-- ==== Sys2Proof/Word.lean ====
section
/-! DEFINITION. The widths of OWUART (00_scope.md R7): an 8-bit register or line byte, a 32-bit command word, and the eight-byte
register files ROM and SROM (10_state.md R28, R29). -/

namespace Sys2Proof

/-- One byte: a block register, a line byte or an operand byte. -/
abbrev Byte := BitVec 8

/-- One command word (30_encoding.md R57). -/
abbrev Word := BitVec 32

/-- A register file of eight bytes, index 0 first (ROM[0..7], SROM[0..7]). -/
abbrev Bytes8 := Vector Byte 8

end Sys2Proof
end

