-- ==== Sys2Proof/Syntax.lean ====
section
/-! DEFINITION. The commands of OWUART, one constructor for each row of spec/opcode_table.json (30_encoding.md R60), with the
operands of 30_encoding.md R59; the opcode names and operand forms; and a command as an assembler is handed it, before its
operands are checked (30_encoding.md R64). -/

namespace Sys2Proof

/-- The operand `m` of OW.SEARCH (30_encoding.md R59): 0 is SEARCH ROM, 1 is ALARM SEARCH. -/
inductive SearchMode where
  | rom
  | alarm
  deriving DecidableEq, Repr

/-- The ten commands (30_encoding.md R60). A bit operand is a Bool, a byte operand a byte. -/
inductive Instr where
  /-- UART.OPEN: open the link. -/
  | uartOpen
  /-- UART.CLOSE: close the link. -/
  | uartClose
  /-- OW.RESET: one 1-Wire reset. -/
  | owReset
  /-- OW.BIT v: one time slot, `v` is send_one. -/
  | owBit (v : Bool)
  /-- OW.BYTE d: touch one byte. -/
  | owByte (d : Byte)
  /-- OW.COMMAND target, cmd: reset, then two bytes. -/
  | owCommand (target cmd : Byte)
  /-- OW.READROM: read the single device's ROM code. -/
  | owReadrom
  /-- OW.TRIPLET v: one search step, `v` is the preferred direction. -/
  | owTriplet (v : Bool)
  /-- OW.SEARCH m: one pass of the ROM search. -/
  | owSearch (m : SearchMode)
  /-- OW.SEARCHRST: search state to FIRST. -/
  | owSearchrst
  deriving DecidableEq, Repr

/-- The opcode names of 30_encoding.md R60. -/
inductive Opcode where
  | uartOpen
  | uartClose
  | owReset
  | owBit
  | owByte
  | owCommand
  | owReadrom
  | owTriplet
  | owSearch
  | owSearchrst
  deriving DecidableEq, Repr

/-- The operand forms of 30_encoding.md R59. -/
inductive OperandForm where
  | none
  | bit
  | mode
  | byte
  | twoBytes
  deriving DecidableEq, Repr

/-- Which opcode an instruction has. -/
def Instr.opcode : Instr → Opcode
  | .uartOpen => .uartOpen
  | .uartClose => .uartClose
  | .owReset => .owReset
  | .owBit _ => .owBit
  | .owByte _ => .owByte
  | .owCommand _ _ => .owCommand
  | .owReadrom => .owReadrom
  | .owTriplet _ => .owTriplet
  | .owSearch _ => .owSearch
  | .owSearchrst => .owSearchrst

/-- The operand form of each command (30_encoding.md R60). -/
def Opcode.form : Opcode → OperandForm
  | .uartOpen => .none
  | .uartClose => .none
  | .owReset => .none
  | .owBit => .bit
  | .owByte => .byte
  | .owCommand => .twoBytes
  | .owReadrom => .none
  | .owTriplet => .bit
  | .owSearch => .mode
  | .owSearchrst => .none

/-- A command as it is written: an opcode and the numbers of its operands, not yet checked (30_encoding.md R64). -/
structure RawCommand where
  op : Opcode
  operands : List Nat
  deriving DecidableEq, Repr

end Sys2Proof
end

