-- ==== Sys2Proof/WellFormed.lean ====
section
/-! DEFINITION. Which written commands are well formed (30_encoding.md R59, R64): the number of operands of the form, and each
operand in its range. An operand outside its range is an assembly error, not an illegal word. The operands of `Instr` have types
that hold exactly the operands in range, so every `Instr` is well formed; a word's legality (30_encoding.md R61) is in
Decode.lean. -/

namespace Sys2Proof

/-- The operands a form admits: none; one bit; one mode; one byte; two bytes. -/
def OperandForm.admits : OperandForm → List Nat → Bool
  | .none, [] => true
  | .bit, [v] => decide (v < 2)
  | .mode, [m] => decide (m < 2)
  | .byte, [d] => decide (d < 256)
  | .twoBytes, [target, cmd] => decide (target < 256) && decide (cmd < 256)
  | _, _ => false

/-- A written command is well formed when its form admits its operands (30_encoding.md R64). -/
def RawCommand.wellFormed (r : RawCommand) : Bool := r.op.form.admits r.operands

/-- The command a written command stands for: nothing for one that is not well formed (an assembly error). -/
def RawCommand.toInstr (r : RawCommand) : Option Instr :=
  if r.wellFormed then
    match r.op, r.operands with
    | .uartOpen, [] => some .uartOpen
    | .uartClose, [] => some .uartClose
    | .owReset, [] => some .owReset
    | .owBit, [v] => some (.owBit (v == 1))
    | .owByte, [d] => some (.owByte (BitVec.ofNat 8 d))
    | .owCommand, [target, cmd] => some (.owCommand (BitVec.ofNat 8 target) (BitVec.ofNat 8 cmd))
    | .owReadrom, [] => some .owReadrom
    | .owTriplet, [v] => some (.owTriplet (v == 1))
    | .owSearch, [m] => some (.owSearch (if m = 1 then .alarm else .rom))
    | .owSearchrst, [] => some .owSearchrst
    | _, _ => none
  else none

/-- The written form of a command. -/
def Instr.raw : Instr → RawCommand
  | .uartOpen => ⟨.uartOpen, []⟩
  | .uartClose => ⟨.uartClose, []⟩
  | .owReset => ⟨.owReset, []⟩
  | .owBit v => ⟨.owBit, [v.toNat]⟩
  | .owByte d => ⟨.owByte, [d.toNat]⟩
  | .owCommand target cmd => ⟨.owCommand, [target.toNat, cmd.toNat]⟩
  | .owReadrom => ⟨.owReadrom, []⟩
  | .owTriplet v => ⟨.owTriplet, [v.toNat]⟩
  | .owSearch m => ⟨.owSearch, [match m with | .rom => 0 | .alarm => 1]⟩
  | .owSearchrst => ⟨.owSearchrst, []⟩

end Sys2Proof
end

