-- ==== Sys2Proof/Decode.lean ====
section
/-! DEFINITION. The command word (30_encoding.md R57), decoding, total on every 32-bit word (30_encoding.md R63), the legality
test by match and mask (30_encoding.md R61), and the encoder (30_encoding.md R57, R59, R60). -/

namespace Sys2Proof

/-- Bits 31..24, OPC. -/
def Word.opc (w : Word) : Byte := w.extractLsb' 24 8
/-- Bits 23..16, RSV. -/
def Word.rsv (w : Word) : Byte := w.extractLsb' 16 8
/-- Bits 15..8, A. -/
def Word.opA (w : Word) : Byte := w.extractLsb' 8 8
/-- Bits 7..0, B. -/
def Word.opB (w : Word) : Byte := w.extractLsb' 0 8

/-- The word with fields OPC, RSV, A and B. -/
def Word.ofFields (opc rsv a b : Byte) : Word :=
  (opc.setWidth 32 <<< 24) ||| (rsv.setWidth 32 <<< 16) ||| (a.setWidth 32 <<< 8) ||| b.setWidth 32

/-- Why a word is illegal (30_encoding.md R61: clauses a, b and c). -/
inductive Illegal where
  /-- RSV is not 0x00. -/
  | reservedField
  /-- OPC is not in the opcode map. -/
  | unknownOpcode
  /-- A bit that the operand form fixes to zero is 1. -/
  | operandField
  deriving DecidableEq, Repr

/-- The opcode byte of each command (30_encoding.md R60). -/
def Opcode.byte : Opcode → Byte
  | .uartOpen => 0x01
  | .uartClose => 0x02
  | .owReset => 0x10
  | .owBit => 0x11
  | .owByte => 0x12
  | .owCommand => 0x13
  | .owReadrom => 0x20
  | .owTriplet => 0x21
  | .owSearch => 0x22
  | .owSearchrst => 0x23

/-- The command an opcode byte selects (30_encoding.md R60). -/
def Opcode.ofByte (b : Byte) : Option Opcode :=
  if b = 0x01 then some .uartOpen
  else if b = 0x02 then some .uartClose
  else if b = 0x10 then some .owReset
  else if b = 0x11 then some .owBit
  else if b = 0x12 then some .owByte
  else if b = 0x13 then some .owCommand
  else if b = 0x20 then some .owReadrom
  else if b = 0x21 then some .owTriplet
  else if b = 0x22 then some .owSearch
  else if b = 0x23 then some .owSearchrst
  else none

/-- The mode a mode bit selects (30_encoding.md R59). -/
def SearchMode.ofBit (m : Bool) : SearchMode := if m then .alarm else .rom
/-- The bit of a mode. -/
def SearchMode.bit : SearchMode → Bool
  | .rom => false
  | .alarm => true

/-- A command whose fixed-zero operand bits are right, or the illegal word. -/
def fixedZero (ok : Bool) (i : Instr) : Except Illegal Instr :=
  if ok then .ok i else .error .operandField

/-- The decode function (30_encoding.md R63). -/
def decode (w : Word) : Except Illegal Instr :=
  let a := w.opA
  let b := w.opB
  if w.rsv ≠ 0 then .error .reservedField
  else
    match Opcode.ofByte w.opc with
    | none => .error .unknownOpcode
    | some .uartOpen => fixedZero (a = 0 && b = 0) .uartOpen
    | some .uartClose => fixedZero (a = 0 && b = 0) .uartClose
    | some .owReset => fixedZero (a = 0 && b = 0) .owReset
    | some .owBit => fixedZero (a = 0 && b.extractLsb' 1 7 = 0) (.owBit (b.getLsbD 0))
    | some .owByte => fixedZero (a = 0) (.owByte b)
    | some .owCommand => .ok (.owCommand a b)
    | some .owReadrom => fixedZero (a = 0 && b = 0) .owReadrom
    | some .owTriplet => fixedZero (a = 0 && b.extractLsb' 1 7 = 0) (.owTriplet (b.getLsbD 0))
    | some .owSearch => fixedZero (a = 0 && b.extractLsb' 1 7 = 0) (.owSearch (SearchMode.ofBit (b.getLsbD 0)))
    | some .owSearchrst => fixedZero (a = 0 && b = 0) .owSearchrst

/-- A row of the match and mask table of 30_encoding.md R61. -/
structure OpcodeRow where
  op : Opcode
  matchBits : Word
  mask : Word
  deriving DecidableEq, Repr

/-- The match and mask table of 30_encoding.md R61. -/
def opcodeRows : List OpcodeRow :=
  [⟨.uartOpen, 0x01000000, 0xFFFFFFFF⟩,
   ⟨.uartClose, 0x02000000, 0xFFFFFFFF⟩,
   ⟨.owReset, 0x10000000, 0xFFFFFFFF⟩,
   ⟨.owBit, 0x11000000, 0xFFFFFFFE⟩,
   ⟨.owByte, 0x12000000, 0xFFFFFF00⟩] ++
  [⟨.owCommand, 0x13000000, 0xFFFF0000⟩,
   ⟨.owReadrom, 0x20000000, 0xFFFFFFFF⟩,
   ⟨.owTriplet, 0x21000000, 0xFFFFFFFE⟩,
   ⟨.owSearch, 0x22000000, 0xFFFFFFFE⟩,
   ⟨.owSearchrst, 0x23000000, 0xFFFFFFFF⟩]

/-- A word is a row's command when its masked bits match (30_encoding.md R61). -/
def OpcodeRow.selects (r : OpcodeRow) (w : Word) : Bool := w &&& r.mask = r.matchBits

/-- A word is legal when some row selects it (30_encoding.md R61). -/
def Word.legal (w : Word) : Bool := opcodeRows.any (·.selects w)

/-- A bit operand as an operand byte. -/
def bitOperand (v : Bool) : Byte := if v then 1 else 0

/-- The command word of each command (30_encoding.md R57, R59, R60). -/
def encode : Instr → Word
  | .uartOpen => Word.ofFields (Opcode.byte .uartOpen) 0 0 0
  | .uartClose => Word.ofFields (Opcode.byte .uartClose) 0 0 0
  | .owReset => Word.ofFields (Opcode.byte .owReset) 0 0 0
  | .owBit v => Word.ofFields (Opcode.byte .owBit) 0 0 (bitOperand v)
  | .owByte d => Word.ofFields (Opcode.byte .owByte) 0 0 d
  | .owCommand target cmd => Word.ofFields (Opcode.byte .owCommand) 0 target cmd
  | .owReadrom => Word.ofFields (Opcode.byte .owReadrom) 0 0 0
  | .owTriplet v => Word.ofFields (Opcode.byte .owTriplet) 0 0 (bitOperand v)
  | .owSearch m => Word.ofFields (Opcode.byte .owSearch) 0 0 (bitOperand m.bit)
  | .owSearchrst => Word.ofFields (Opcode.byte .owSearchrst) 0 0 0

/-- The 32-bit command word whose low `nbits` bits are the number `w` and whose other bits are 0. A command word goes to the
command port whole (30_encoding.md R57, 20_memory.md R49), so no byte order enters. Log entry 17. -/
def tableWord (nbits w : Nat) : Word := BitVec.ofNat 32 (w % 2 ^ nbits)

/-- The instruction the decoder reads from bits numbered as spec/opcode_table.json numbers them. -/
def decodeTableWord (nbits w : Nat) : Option Instr :=
  match decode (tableWord nbits w) with
  | .ok i => some i
  | .error _ => none

end Sys2Proof
end

