-- ==== Sys2Proof/Config.lean ====
section
/-! DEFINITION. What is fixed for the life of a link (00_scope.md R6, R7), the answers the environment can give
(40_serial_channel.md R76, R84), the events of TRACE (10_state.md R39), and the free values: what an unscripted oracle answers. -/

namespace Sys2Proof

/-- The baud selection, the two values of the BAUD_SEL bit (10_state.md R25): 0 is normal, 1 is reset. -/
inductive BaudSel where
  | normal
  | reset
  deriving DecidableEq, Repr

/-- The answer to one frame (40_serial_channel.md R76). -/
inductive LineOutcome where
  | writeFail
  | readFail
  | timeout
  | echo (r : Byte)
  deriving DecidableEq, Repr, Inhabited

/-- The answer to one attempt to open the port (40_serial_channel.md R84). -/
inductive OpenAnswer where
  | ok
  | unavailable
  | openFailed
  deriving DecidableEq, Repr, Inhabited

/-- One line event of TRACE (10_state.md R39): `FrameEv(baud, tx, outcome)`, `OpenEv(answer)`, `CloseEv`. -/
inductive Event where
  | frame (baud : Nat) (tx : Byte) (outcome : LineOutcome)
  | opened (answer : OpenAnswer)
  | closed
  deriving DecidableEq, Repr

/-- The parity setting of a UART frame. -/
inductive Parity where
  | none
  | even
  | odd
  deriving DecidableEq, Repr

/-- `P_BAUD_NORMAL` (00_scope.md R6). -/
def Config.baudNormal : Nat := 115200
/-- `P_BAUD_RESET` (00_scope.md R6). -/
def Config.baudReset : Nat := 9600
/-- `P_DATA_BITS` (00_scope.md R6). -/
def Config.dataBits : Nat := 8
/-- `P_PARITY` (00_scope.md R6). -/
def Config.parity : Parity := .none
/-- `P_STOP_BITS` (00_scope.md R6). -/
def Config.stopBits : Nat := 1
/-- `P_READ_TIMEOUT_MS`, per single-byte read (00_scope.md R6, 40_serial_channel.md R81). -/
def Config.readTimeoutMs : Nat := 100
/-- The default of `P_CONV_MAX_POLLS` (00_scope.md R7). The parameter itself is an argument of H.CONVERT: log entry 5. -/
def Config.convMaxPollsDefault : Nat := 8
/-- `P_POLL_INTERVAL_MS`, informative: no rule depends on it and no step reads it (00_scope.md R7). The spec says only "about 500"
and that no exact interval may be assumed (91_not_in_source.md N19): the exact 500 is the model's choice. Log entry 20. -/
def Config.pollIntervalMs : Nat := 500

/-- The free answer of the echo oracle of the port at `path`, to draw number `n` after the events `history`, asked
`EchoOracle(baud, t)` (40_serial_channel.md R76: "the answer is under no law"). No body: a proof can see no value of it, and nothing
relates the answers of two ports. Log entries 1 and 16. -/
opaque Config.freeEcho : (path : String) → (n : Nat) → (history : List Event) → (baud : Nat) → (t : Byte) → LineOutcome

/-- The free answer of the open oracle, asked `OpenOracle(path)`, to draw number `n` after the events `history`
(40_serial_channel.md R84: "under no law"). Log entries 2 and 16. -/
opaque Config.freeOpen : (path : String) → (n : Nat) → (history : List Event) → OpenAnswer

end Sys2Proof
end

