-- ==== Sys2Proof/Machine/State.lean ====
section
/-! DEFINITION. The state of one OWUART instance (10_state.md R15), the host's program and index (10_state.md R38), the line
environment as plain data (00_scope.md R14, 40_serial_channel.md R76), the reasons a step can stop, and the state after reset
(10_state.md R37). -/

namespace Sys2Proof.Machine

/-- The status codes the block writes to STATUS (60_exceptions.md R147). -/
inductive StatusCode where
  | ok
  | noDevicesPresent
  | shortCircuit
  | noEcho
  | writeError
  | readError
  | portUnavailable
  | portOpenFailed
  | portClosed
  | busNotReady
  | illegalCommand
  | searchExhausted
  | searchNoResponse
  | searchZeroFamily
  deriving DecidableEq, Repr

/-- The classes of a reset echo (41_onewire_bus.md R90). -/
inductive ResetClass where
  | noDevicesPresent
  | shortCircuit
  | singleDevicePresent
  | multipleDevicesPresent
  deriving DecidableEq, Repr

/-- The values of RSTCLS (10_state.md R21). -/
inductive RstCls where
  /-- The class of the last reset echo. -/
  | classified (c : ResetClass)
  /-- 0xFE: the reset frame timed out. -/
  | noEcho
  /-- 0xFF: no reset frame classified since block reset or the last successful UART.OPEN. -/
  | unclassified
  deriving DecidableEq, Repr

/-- The read slots and the direction slot of one search position (42_rom_commands.md R113). -/
inductive SearchSlot where
  | id
  | cmp
  | dir
  deriving DecidableEq, Repr

/-- Where a population of devices stands in the transaction (42_rom_commands.md R113). -/
inductive DevicePhase where
  /-- No reset seen yet, or the devices' part of the transaction is over: they release the line. -/
  | released
  /-- The ROM command byte is being received: the bits received so far, first bit first. -/
  | romCommand (bits : List Bool)
  /-- A search, at position `n` (1..64). -/
  | search (n : Nat) (slot : SearchSlot)
  /-- READ ROM, at position `n` (1..64). -/
  | readRom (n : Nat)
  deriving DecidableEq, Repr

/-- A test double: 1-Wire devices on a wired-AND line (42_rom_commands.md R113, R116). Environment state, not block state
(10_state.md R35). Log entry 18. -/
structure Population where
  /-- The ROM codes on the line, in reception order. -/
  codes : List Bytes8
  /-- Those of them in an alarm condition. -/
  alarmed : List Bytes8
  /-- Those that still take part since the last reset. -/
  taking : List Bytes8
  phase : DevicePhase
  deriving DecidableEq, Repr

/-- What answers a frame when no scripted answer is left (40_serial_channel.md R76). -/
inductive Oracle where
  /-- Under no law: the free value of Config. -/
  | free
  /-- The loopback test double: every frame echoes its own byte. -/
  | loopback
  /-- The simulated device double. -/
  | devices (pop : Population)
  deriving DecidableEq, Repr

/-- The line environment (00_scope.md R14): the model's own fields, no state of the block. Log entries 1, 2, 3 and 4. -/
structure Env where
  /-- The parameter `P_WIRED_AND` (00_scope.md R7). No step changes it. -/
  wiredAnd : Bool
  /-- The parameter `P_PORT_PATH` (00_scope.md R7): the port this instance opens, never interpreted. No step changes it, and instances
  have different ones (00_scope.md R8). Log entries 4 and 16. -/
  portPath : String
  /-- The answers to the next frames, the first one first. -/
  echoes : List LineOutcome
  /-- The answers to the next attempts to open the port. -/
  opens : List OpenAnswer
  /-- What answers once `echoes` is used up. -/
  oracle : Oracle
  /-- How many free values have been drawn. -/
  draws : Nat
  deriving DecidableEq, Repr

/-- One step of a host (45_host_transactions.md R124): a command word handed to the command port (00_scope.md R14), a read of a
register (10_state.md R17), or block reset (70_reset_and_hazards.md R167). -/
inductive HostStep where
  | command (w : Word)
  | readReg (n : Byte)
  | assertReset
  /-- Command `w` is started and block reset is asserted when `k` of its line events have happened. -/
  | resetDuring (w : Word) (k : Nat)
  deriving DecidableEq, Repr

/-- The host's side (10_state.md R38): its program, its index into it, and the byte its last register read returned. -/
structure HostSide where
  program : List HostStep
  pc : Nat
  readData : Option Byte
  deriving DecidableEq, Repr

/-- The state of one OWUART instance (10_state.md R15), with the host's side and the environment beside it. FLAGS is its four bits
(10_state.md R22); its bits 7..4 are hardwired to 0 and stored nowhere. -/
structure State where
  /-- STATUS (R19). -/
  status : StatusCode
  /-- RESULT (R20). -/
  result : Byte
  /-- RSTCLS (R21). -/
  rstcls : RstCls
  /-- FLAGS bit 0, LINK_OPEN (R23). -/
  linkOpen : Bool
  /-- FLAGS bit 1, BUS_READY (R24). -/
  busReady : Bool
  /-- FLAGS bit 2, BAUD_SEL (R25). -/
  baudSel : BaudSel
  /-- FLAGS bit 3, LAST_DEV (R26). -/
  lastDev : Bool
  /-- LAST_DISC (R27). -/
  lastDisc : Byte
  /-- ROM[0..7] (R28). -/
  rom : Bytes8
  /-- SROM[0..7] (R29). -/
  srom : Bytes8
  /-- TRACE (R39), oldest event first. -/
  trace : List Event
  /-- The environment. -/
  env : Env
  /-- The host. -/
  host : HostSide
  deriving DecidableEq, Repr

/-- No step faults: every failure is a status code, a result of a step (60_exceptions.md R150, R157). The type has no constructor.
Log entry 12. -/
inductive Fault where
  deriving DecidableEq, Repr

/-- Why a step is refused. -/
inductive Refusal where
  /-- Raised by `exec` for a command with no meaning yet. Safe: the machine stops. No command is left so. -/
  | notModelled (mnemonic : String)
  /-- Raised by a register read of a number outside the register map (10_state.md R17: "is refused: the model gives it no value").
  Safe: the machine stops. -/
  | unmappedRegister (n : Byte)
  deriving DecidableEq, Repr

/-- The state after block reset (10_state.md R37) of an instance whose host holds no program. The environment's fields and the
host's are the model's own (log entries 1, 2, 3, 4, 7 and 19); R38 gives `pc` = 0. -/
def State.reset : State where
  status := .ok
  result := 0x00
  rstcls := .unclassified
  linkOpen := false
  busReady := false
  baudSel := .normal
  lastDev := false
  lastDisc := 0x00
  rom := Vector.replicate 8 0x00
  srom := Vector.replicate 8 0x00
  trace := []
  env := { wiredAnd := false, portPath := "", echoes := [], opens := [], oracle := .free, draws := 0 }
  host := { program := [], pc := 0, readData := none }

end Sys2Proof.Machine
end

