-- ==== Sys2Proof/Machine/Operands.lean ====
section
/-! DEFINITION. Operand forms and byte assembly: the bytes an operand selects on the line, bits of a byte on the line
(20_memory.md R45), the register files ROM and SROM byte by byte and as a 64-bit path (10_state.md R28, R29), and the search
direction (42_rom_commands.md R109). -/

namespace Sys2Proof.Machine

/-- `zext_8` of one bit (00_scope.md R9). -/
def zext8 (b : Bool) : Byte := if b then 0x01 else 0x00

/-- The byte of a slot that sends `v` (41_onewire_bus.md R93): 0xFF for 1, 0x00 for 0. -/
def slotByte (v : Bool) : Byte := if v then 0xFF else 0x00

/-- The bit a slot's echo gives (41_onewire_bus.md R93, R99): 1 for exactly 0xFF, 0 for every other byte and for a timeout. -/
def slotBit (e : Option Byte) : Bool := e = some 0xFF

/-- The reset byte (41_onewire_bus.md R89). -/
def resetByte : Byte := 0xF0
/-- ROM command bytes (42_rom_commands.md R105). -/
def byteSearchRom : Byte := 0xF0
def byteReadRom : Byte := 0x33
def byteMatchRom : Byte := 0x55
def byteSkipRom : Byte := 0xCC
def byteAlarmSearch : Byte := 0xEC
/-- Function command bytes (45_host_transactions.md R125). -/
def byteTemperatureRead : Byte := 0x44
def byteReadScratchpad : Byte := 0xBE
def byteWriteScratchpad : Byte := 0x4E
def byteCopyScratchpad : Byte := 0x48
def byteRecallEeprom : Byte := 0xB8
def byteReadPowerSupply : Byte := 0xB4

/-- The ROM command byte OW.SEARCH sends (42_rom_commands.md R112). -/
def searchCommandByte : SearchMode → Byte
  | .rom => byteSearchRom
  | .alarm => byteAlarmSearch

/-- The baud rate a selection gives (40_serial_channel.md R80). -/
def baudRate : BaudSel → Nat
  | .normal => Config.baudNormal
  | .reset => Config.baudReset

/-- Byte `j` of a register file. -/
def byteAt (v : Bytes8) (j : Nat) : Byte := v.getD j 0x00

/-- Write byte `j` of a register file. -/
def setByteAt (v : Bytes8) (j : Nat) (x : Byte) : Bytes8 := v.setIfInBounds j x

/-- The eight bytes in reverse order: `ROM[i] <- b[7 - i]` (20_memory.md R46, 42_rom_commands.md R106, R118). -/
def romFromReception (b : Bytes8) : Bytes8 := Vector.ofFn fun i => byteAt b (7 - i.val)

/-- All eight bytes 0x00. -/
def zeroBytes : Bytes8 := Vector.replicate 8 0x00

/-- A byte with bit `i` set to `b`. -/
def setBitAt (x : Byte) (i : Nat) (b : Bool) : Byte :=
  (x &&& ~~~(0x01#8 <<< i)) ||| (zext8 b <<< i)

/-- `SBIT(n)`, search bit position `n` in 1..64 (10_state.md R29): bit `(n-1) & 7` of byte `(n-1) >> 3`. -/
def sbit (v : Bytes8) (n : Nat) : Bool := (byteAt v ((n - 1) >>> 3)).getLsbD ((n - 1) &&& 7)

/-- `SBIT(n) <- b`. -/
def setSbit (v : Bytes8) (n : Nat) (b : Bool) : Bytes8 :=
  setByteAt v ((n - 1) >>> 3) (setBitAt (byteAt v ((n - 1) >>> 3)) ((n - 1) &&& 7) b)

/-- `Direction(n)` at a discrepancy (42_rom_commands.md R109). -/
def searchDirection (lastDisc : Byte) (srom : Bytes8) (n : Nat) : Bool :=
  if n < lastDisc.toNat then sbit srom n
  else if n = lastDisc.toNat then true
  else false

/-- The direction OW.TRIPLET writes (42_rom_commands.md R111): the bit read when the two reads differ, else `v`. -/
def tripletDirection (id cmp v : Bool) : Bool := if id ≠ cmp then id else v

/-- RESULT of OW.TRIPLET (42_rom_commands.md R111): `(dir << 2) | (cmp << 1) | id`. -/
def tripletResult (id cmp dir : Bool) : Byte := (zext8 dir <<< 2) ||| (zext8 cmp <<< 1) ||| zext8 id

end Sys2Proof.Machine
end

