-- ==== Sys2Proof/Machine/DeviceDouble.lean ====
section
/-! DEFINITION. The simulated device double (42_rom_commands.md R113, R116, R121): how a population of 1-Wire devices on a
wired-AND line answers a frame. Environment, not block (10_state.md R35). Where no rule of the spec fixes an answer of the double
(the reset echo of several devices, the byte a pulled-low slot echoes, the frames after its part is over), it is the model's choice:
log entry 18. -/

namespace Sys2Proof.Machine

/-- A population that has seen no reset. -/
def Population.init (codes alarmed : List Bytes8) : Population :=
  { codes := codes, alarmed := alarmed, taking := [], phase := .released }

/-- What the reset frame echoes: 0xF0 with no device, 0xE0 with one, 0xC0 with several (95_test_vectors.md V-SEARCH-1, V-SEARCH-2). -/
def Population.resetEcho (p : Population) : Byte :=
  match p.codes with
  | [] => 0xF0
  | [_] => 0xE0
  | _ => 0xC0

/-- The line carries the AND of what all participating devices send: a device sends bit `n` of its code, or its complement. -/
def Population.lineBit (p : Population) (complement : Bool) (n : Nat) : Bool :=
  p.taking.all fun c => (sbit c n) != complement

/-- The echo of a slot transmitting `t` while the devices send `b`: a 1 leaves the frame as it is, a 0 pulls its first data bit low. -/
def slotEcho (t : Byte) (b : Bool) : Byte := if b then t else t &&& 0xFE

/-- The byte of eight received bits, first bit least significant (20_memory.md R45). -/
def byteOfBits : List Bool → Byte
  | [] => 0x00
  | b :: bs => (byteOfBits bs <<< 1) ||| zext8 b

/-- What the devices do once the ROM command byte is complete. -/
def Population.afterRomCommand (p : Population) (cmd : Byte) : Population :=
  if cmd = byteSearchRom then { p with phase := .search 1 .id }
  else if cmd = byteAlarmSearch then
    { p with taking := p.taking.filter (fun c => p.alarmed.contains c), phase := .search 1 .id }
  else if cmd = byteReadRom then { p with phase := .readRom 1 }
  else { p with phase := .released }

/-- The devices' answer to one frame at rate `baud` transmitting `t`, and the population after it. -/
def Population.answer (p : Population) (baud : Nat) (t : Byte) : LineOutcome × Population :=
  if baud = Config.baudReset then
    (.echo p.resetEcho, { p with taking := p.codes, phase := .romCommand [] })
  else
    match p.phase with
    | .released => (.echo t, p)
    | .romCommand bits =>
      let bits' := bits ++ [decide (t = 0xFF)]
      (.echo t,
        if bits'.length = 8 then p.afterRomCommand (byteOfBits bits') else { p with phase := .romCommand bits' })
    | .search n .id => (.echo (slotEcho t (p.lineBit false n)), { p with phase := .search n .cmp })
    | .search n .cmp => (.echo (slotEcho t (p.lineBit true n)), { p with phase := .search n .dir })
    | .search n .dir =>
      (.echo t,
        { p with
          taking := p.taking.filter (fun c => sbit c n == decide (t = 0xFF))
          phase := if n < 64 then .search (n + 1) .id else .released })
    | .readRom n =>
      (.echo (slotEcho t (p.lineBit false n)),
        { p with phase := if n < 64 then .readRom (n + 1) else .released })

end Sys2Proof.Machine
end

