-- ==== Sys2Proof/Machine/Flags.lean ====
section
/-! DEFINITION. The registers as the host reads them: the STATUS and RSTCLS codes, the FLAGS byte, the register map
(10_state.md R17 to R29), and which status codes clear BUS_READY (60_exceptions.md R152, R153). -/

namespace Sys2Proof.Machine

/-- The number of a status code (60_exceptions.md R147). -/
def StatusCode.code : StatusCode → Byte
  | .ok => 0x00
  | .noDevicesPresent => 0x01
  | .shortCircuit => 0x02
  | .noEcho => 0x03
  | .writeError => 0x04
  | .readError => 0x05
  | .portUnavailable => 0x06
  | .portOpenFailed => 0x07
  | .portClosed => 0x08
  | .busNotReady => 0x09
  | .illegalCommand => 0x0A
  | .searchExhausted => 0x0B
  | .searchNoResponse => 0x0C
  | .searchZeroFamily => 0x0D

/-- The number of a reset class (10_state.md R21). -/
def ResetClass.code : ResetClass → Byte
  | .noDevicesPresent => 0x00
  | .shortCircuit => 0x01
  | .singleDevicePresent => 0x02
  | .multipleDevicesPresent => 0x03

/-- The number of an RSTCLS value (10_state.md R21). -/
def RstCls.code : RstCls → Byte
  | .classified c => c.code
  | .noEcho => 0xFE
  | .unclassified => 0xFF

/-- The reset classification, a pure function of the echo (41_onewire_bus.md R90). -/
def classify (r : Byte) : ResetClass :=
  if r = 0xF0 then .noDevicesPresent
  else if r = 0x00 then .shortCircuit
  else if r = 0xE0 then .singleDevicePresent
  else .multipleDevicesPresent

/-- The BAUD_SEL bit of a selection (10_state.md R25). -/
def baudSelBit : BaudSel → Bool
  | .normal => false
  | .reset => true

/-- FLAGS as the host reads it (10_state.md R22): bits 7..4 read 0. -/
def flagsByte (s : State) : Byte :=
  zext8 s.linkOpen ||| (zext8 s.busReady <<< 1) ||| (zext8 (baudSelBit s.baudSel) <<< 2) ||| (zext8 s.lastDev <<< 3)

/-- The failures whose cause is on the line: their abort clears BUS_READY (60_exceptions.md R152, R153). -/
def StatusCode.clearsBusReady : StatusCode → Bool
  | .noDevicesPresent => true
  | .shortCircuit => true
  | .noEcho => true
  | .writeError => true
  | .readError => true
  | .ok => false
  | .portUnavailable => false
  | .portOpenFailed => false
  | .portClosed => false
  | .busNotReady => false
  | .illegalCommand => false
  | .searchExhausted => false
  | .searchNoResponse => false
  | .searchZeroFamily => false

/-- `ReadReg(n)` (10_state.md R17, R18): the value of register `n`, none for a number outside the map. -/
def readReg (n : Byte) (s : State) : Option Byte :=
  if n = 0x00 then some s.status.code
  else if n = 0x01 then some s.result
  else if n = 0x02 then some s.rstcls.code
  else if n = 0x03 then some (flagsByte s)
  else if n = 0x04 then some s.lastDisc
  else if n.toNat ≤ 0x0C then some (byteAt s.rom (n.toNat - 0x05))
  else if n.toNat ≤ 0x14 then some (byteAt s.srom (n.toNat - 0x0D))
  else none

end Sys2Proof.Machine
end

