-- ==== Sys2Proof/Machine/Ops.lean ====
section
/-! DEFINITION. The shared operations: one write of each field of State; ending a command normally and by a failure
(60_exceptions.md R151, R152), the block's one exception mechanism; the environment's draws; and the primitives Frame, BusReset,
Slot and TouchByte (40_serial_channel.md R78, 41_onewire_bus.md R89, R93, R95). -/

namespace Sys2Proof.Machine

def State.setStatus (s : State) (x : StatusCode) : State := { s with status := x }
def State.setResult (s : State) (x : Byte) : State := { s with result := x }
def State.setRstcls (s : State) (x : RstCls) : State := { s with rstcls := x }
def State.setLinkOpen (s : State) (x : Bool) : State := { s with linkOpen := x }
def State.setBusReady (s : State) (x : Bool) : State := { s with busReady := x }
def State.setBaudSel (s : State) (x : BaudSel) : State := { s with baudSel := x }
def State.setLastDev (s : State) (x : Bool) : State := { s with lastDev := x }
def State.setLastDisc (s : State) (x : Byte) : State := { s with lastDisc := x }
def State.setRom (s : State) (x : Bytes8) : State := { s with rom := x }
def State.setSrom (s : State) (x : Bytes8) : State := { s with srom := x }
def State.setTrace (s : State) (x : List Event) : State := { s with trace := x }
def State.setEnv (s : State) (x : Env) : State := { s with env := x }
def State.setHost (s : State) (x : HostSide) : State := { s with host := x }

/-- `TRACE <- TRACE ++ [e]` (10_state.md R39). -/
def State.record (s : State) (e : Event) : State := s.setTrace (s.trace ++ [e])

/-- A part of a command either goes on with a value, or ends the command with a failure's status code. -/
inductive Run (α : Type) where
  | ok (a : α) (s : State)
  | stop (c : StatusCode) (s : State)
  deriving DecidableEq, Repr

/-- Go on with the next part of the command; a failure ends it (60_exceptions.md R152: no further frame, no further write). -/
def Run.andThen {α β : Type} : Run α → (α → State → Run β) → Run β
  | .ok a s, k => k a s
  | .stop c s, _ => .stop c s

/-- `guard { P } onabort { Q }` (42_rom_commands.md R112): when `P` ends in a failure, the writes `Q` are made. -/
def Run.onAbort {α : Type} : Run α → (State → State) → Run α
  | .ok a s, _ => .ok a s
  | .stop c s, q => .stop c (q s)

/-- `complete(code)` (60_exceptions.md R151). -/
def complete (code : StatusCode) (s : State) : State := (s.setStatus code).setBaudSel .normal

/-- `abort(code)` (60_exceptions.md R152): what taking a failure writes. Nothing saves a program counter, no mode changes and there
is no vector (60_exceptions.md R150), and there is no return from it (60_exceptions.md R154). -/
def abort (code : StatusCode) (s : State) : State :=
  let t := (s.setStatus code).setBaudSel .normal
  if code.clearsBusReady then t.setBusReady false else t

/-- The end of a command: `complete(OK)` or `abort(code)` (60_exceptions.md R151, R152). -/
def endCommand : Run Unit → State
  | .ok _ s => complete .ok s
  | .stop c s => abort c s

/-- An illegal word (30_encoding.md R62). -/
def illegalCommand (s : State) : State := complete .illegalCommand s

/-- The link check (40_serial_channel.md R86). -/
def requireLink (s : State) : Run Unit := if s.linkOpen then .ok () s else .stop .portClosed s

/-- The BUS_READY check (10_state.md R24). -/
def requireBus (s : State) : Run Unit := if s.busReady then .ok () s else .stop .busNotReady s

/-- An answer under the parameter `P_WIRED_AND` (40_serial_channel.md R77): when it is true, an echo has no 1 where the
transmitted byte has a 0. Log entry 3. -/
def wiredAnswer (wiredAnd : Bool) (t : Byte) : LineOutcome → LineOutcome
  | .echo r => .echo (if wiredAnd then r &&& t else r)
  | .writeFail => .writeFail
  | .readFail => .readFail
  | .timeout => .timeout

/-- The environment's next answer to a frame, before the wired-AND constraint, and the environment after it: the scripted answers
first, then the oracle; a free answer is one of this instance's own port. Log entries 1 and 16. -/
def Env.nextEcho (e : Env) (history : List Event) (baud : Nat) (t : Byte) : LineOutcome × Env :=
  match e.echoes with
  | o :: rest => (o, { e with echoes := rest })
  | [] =>
    match e.oracle with
    | .free => (Config.freeEcho e.portPath e.draws history baud t, { e with draws := e.draws + 1 })
    | .loopback => (.echo t, e)
    | .devices p => ((p.answer baud t).1, { e with oracle := .devices (p.answer baud t).2 })

/-- `draw EchoOracle(baud, t)` (40_serial_channel.md R76, R77): the answer, and the environment after it. -/
def drawEcho (s : State) (baud : Nat) (t : Byte) : LineOutcome × Env :=
  let d := s.env.nextEcho s.trace baud t
  (wiredAnswer s.env.wiredAnd t d.1, d.2)

/-- `draw OpenOracle(P_PORT_PATH)` (40_serial_channel.md R84), with the instance's own path: the answer, and the environment after it.
Log entries 2 and 16. -/
def drawOpen (s : State) : OpenAnswer × Env :=
  match s.env.opens with
  | a :: rest => (a, { s.env with opens := rest })
  | [] => (Config.freeOpen s.env.portPath s.env.draws s.trace, { s.env with draws := s.env.draws + 1 })

/-- The state after one frame at selection `sel` transmitting `t` (40_serial_channel.md R78, first four lines): the baud switch,
in effect before the byte is sent (40_serial_channel.md R79), the draw, and the event. -/
def sendFrame (sel : BaudSel) (t : Byte) (s : State) : LineOutcome × State :=
  let s1 := s.setBaudSel sel
  let d := drawEcho s1 (baudRate sel) t
  (d.1, (s1.setEnv d.2).record (.frame (baudRate sel) t d.1))

/-- `Frame(sel, t)` (40_serial_channel.md R78). -/
def frame (sel : BaudSel) (t : Byte) (s : State) : Run (Option Byte) :=
  let f := sendFrame sel t s
  match f.1 with
  | .writeFail => .stop .writeError f.2
  | .readFail => .stop .readError f.2
  | .timeout => .ok none f.2
  | .echo r => .ok (some r) f.2

/-- What `BusReset` does with a classified echo (41_onewire_bus.md R89, R91). -/
def resetClassified (r : Byte) (s : State) : Run (ResetClass × Byte) :=
  let t := s.setRstcls (.classified (classify r))
  match classify r with
  | .noDevicesPresent => .stop .noDevicesPresent t
  | .shortCircuit => .stop .shortCircuit t
  | .singleDevicePresent => .ok (classify r, r) (t.setBusReady true)
  | .multipleDevicesPresent => .ok (classify r, r) (t.setBusReady true)

/-- `BusReset()` (41_onewire_bus.md R89): one reset frame, the normal rate restored, the echo classified. -/
def busReset (s : State) : Run (ResetClass × Byte) :=
  (frame .reset resetByte s).andThen fun e s1 =>
    match e with
    | none => .stop .noEcho ((s1.setBaudSel .normal).setRstcls .noEcho)
    | some r => resetClassified r (s1.setBaudSel .normal)

/-- `Slot(v)` (41_onewire_bus.md R93). -/
def slot (v : Bool) (s : State) : Run Bool :=
  (frame .normal (slotByte v) s).andThen fun e s1 => .ok (slotBit e) s1

/-- The loop of `TouchByte(d)` over bit positions, with the byte assembled so far (41_onewire_bus.md R95). -/
def touchBits (d : Byte) : List Nat → Byte → State → Run Byte
  | [], res, s => .ok res s
  | i :: is, res, s => (slot (d.getLsbD i) s).andThen fun b s1 => touchBits d is (res ||| (zext8 b <<< i)) s1

/-- `TouchByte(d)` (41_onewire_bus.md R95): the bits of `d` least significant first (20_memory.md R45). -/
def touchByte (d : Byte) (s : State) : Run Byte := touchBits d [0, 1, 2, 3, 4, 5, 6, 7] 0x00 s

/-- Read bytes by touching 0xFF, byte `j` of the result for each `j` in turn (42_rom_commands.md R107). -/
def readBytes : List Nat → Bytes8 → State → Run Bytes8
  | [], b, s => .ok b s
  | j :: js, b, s => (touchByte 0xFF s).andThen fun x s1 => readBytes js (setByteAt b j x) s1

/-- The search state machine's state FIRST, all but the path (42_rom_commands.md R108, R115). -/
def searchFirst (s : State) : State := (s.setLastDisc 0x00).setLastDev false

/-- Block reset of the block's own state (10_state.md R37, 70_reset_and_hazards.md R167). The host's side and the environment are no
state of the block (10_state.md R35, R38) and stay. Log entry 9. -/
def blockReset (s : State) : State := { State.reset with env := s.env, host := s.host }

end Sys2Proof.Machine
end

