-- ==== Sys2Proof/Machine/Bus.lean ====
section
/-! DEFINITION. The 1-Wire bus commands: OW.RESET, OW.BIT, OW.BYTE and OW.COMMAND (41_onewire_bus.md R92, R94, R96, R97). -/

namespace Sys2Proof.Machine

/-- OW.RESET as a part of a command (41_onewire_bus.md R92). -/
def resetCommand (s : State) : Run Unit :=
  (requireLink s).andThen fun _ s1 => (busReset s1).andThen fun e s2 => .ok () (s2.setResult e.2)

/-- OW.RESET (41_onewire_bus.md R92). -/
def execOwReset (s : State) : Host.Outcome State Fault Refusal := .next (endCommand (resetCommand s))

/-- OW.BIT as a part of a command (41_onewire_bus.md R94). -/
def bitCommand (v : Bool) (s : State) : Run Unit :=
  (requireLink s).andThen fun _ s1 => (requireBus s1).andThen fun _ s2 =>
    (slot v s2).andThen fun b s3 => .ok () (s3.setResult (zext8 b))

/-- OW.BIT (41_onewire_bus.md R94). -/
def execOwBit (v : Bool) (s : State) : Host.Outcome State Fault Refusal := .next (endCommand (bitCommand v s))

/-- OW.BYTE as a part of a command (41_onewire_bus.md R96). -/
def byteCommand (d : Byte) (s : State) : Run Unit :=
  (requireLink s).andThen fun _ s1 => (requireBus s1).andThen fun _ s2 =>
    (touchByte d s2).andThen fun r s3 => .ok () (s3.setResult r)

/-- OW.BYTE (41_onewire_bus.md R96). -/
def execOwByte (d : Byte) (s : State) : Host.Outcome State Fault Refusal := .next (endCommand (byteCommand d s))

/-- OW.COMMAND as a part of a command (41_onewire_bus.md R97). -/
def commandCommand (target cmd : Byte) (s : State) : Run Unit :=
  (requireLink s).andThen fun _ s1 => (busReset s1).andThen fun _ s2 =>
    (touchByte target s2).andThen fun _ s3 => (touchByte cmd s3).andThen fun r s4 => .ok () (s4.setResult r)

/-- OW.COMMAND (41_onewire_bus.md R97). -/
def execOwCommand (target cmd : Byte) (s : State) : Host.Outcome State Fault Refusal :=
  .next (endCommand (commandCommand target cmd s))

end Sys2Proof.Machine
end

