-- ==== Sys2Proof/Machine/Channel.lean ====
section
/-! DEFINITION. The UART channel's commands: UART.OPEN and UART.CLOSE (40_serial_channel.md R83, R85). -/

namespace Sys2Proof.Machine

/-- What a successful open writes (40_serial_channel.md R83). -/
def openLink (s : State) : State :=
  (searchFirst ((((s.setLinkOpen true).setBusReady false).setBaudSel .normal).setRstcls .unclassified)).setSrom zeroBytes

/-- UART.OPEN as a part of a command (40_serial_channel.md R83). -/
def openPort (s : State) : Run Unit :=
  if s.linkOpen then .ok () s
  else
    let d := drawOpen s
    let s1 := (s.setEnv d.2).record (.opened d.1)
    match d.1 with
    | .unavailable => .stop .portUnavailable s1
    | .openFailed => .stop .portOpenFailed s1
    | .ok => .ok () (openLink s1)

/-- UART.OPEN (40_serial_channel.md R83). -/
def execUartOpen (s : State) : Host.Outcome State Fault Refusal := .next (endCommand (openPort s))

/-- What UART.CLOSE writes (40_serial_channel.md R85): the event only if the link was open. -/
def closeLink (s : State) : State :=
  let s1 := if s.linkOpen then s.record .closed else s
  ((s1.setLinkOpen false).setBusReady false).setBaudSel .normal

/-- UART.CLOSE (40_serial_channel.md R85): it cannot fail. -/
def execUartClose (s : State) : Host.Outcome State Fault Refusal := .next (endCommand (.ok () (closeLink s)))

end Sys2Proof.Machine
end

