-- ==== Sys2Proof/Machine/Rom.lean ====
section
/-! DEFINITION. The ROM commands and the ROM search state machine: OW.READROM, OW.SEARCHRST, OW.TRIPLET and OW.SEARCH
(42_rom_commands.md R107, R110, R111, R112). -/

namespace Sys2Proof.Machine

/-- OW.READROM as a part of a command (42_rom_commands.md R107): ROM is written only after the last frame. -/
def readRomCommand (s : State) : Run Unit :=
  (requireLink s).andThen fun _ s1 => (busReset s1).andThen fun _ s2 =>
    (touchByte byteReadRom s2).andThen fun _ s3 =>
      (readBytes [0, 1, 2, 3, 4, 5, 6, 7] zeroBytes s3).andThen fun b s4 => .ok () (s4.setRom (romFromReception b))

/-- OW.READROM (42_rom_commands.md R107). -/
def execOwReadrom (s : State) : Host.Outcome State Fault Refusal := .next (endCommand (readRomCommand s))

/-- OW.SEARCHRST as a part of a command (42_rom_commands.md R110). -/
def searchResetCommand (s : State) : Run Unit :=
  (requireLink s).andThen fun _ s1 => .ok () ((searchFirst s1).setSrom zeroBytes)

/-- OW.SEARCHRST (42_rom_commands.md R110). -/
def execOwSearchrst (s : State) : Host.Outcome State Fault Refusal := .next (endCommand (searchResetCommand s))

/-- OW.TRIPLET as a part of a command (42_rom_commands.md R111). -/
def tripletCommand (v : Bool) (s : State) : Run Unit :=
  (requireLink s).andThen fun _ s1 => (requireBus s1).andThen fun _ s2 =>
    (slot true s2).andThen fun id s3 => (slot true s3).andThen fun cmp s4 =>
      (slot (tripletDirection id cmp v) s4).andThen fun _ s5 =>
        .ok () (s5.setResult (tripletResult id cmp (tripletDirection id cmp v)))

/-- OW.TRIPLET (42_rom_commands.md R111). -/
def execOwTriplet (v : Bool) (s : State) : Host.Outcome State Fault Refusal := .next (endCommand (tripletCommand v s))

/-- The direction a search position takes from its two reads (42_rom_commands.md R112). -/
def searchTake (id cmp : Bool) (lastDisc : Byte) (srom : Bytes8) (n : Nat) : Bool :=
  if id ≠ cmp then id else searchDirection lastDisc srom n

/-- `last_zero` after position `n` (42_rom_commands.md R112): a discrepancy at which 0 was taken is remembered. -/
def searchLastZero (id cmp dir : Bool) (n lastZero : Nat) : Nat := if id = cmp ∧ dir = false then n else lastZero

/-- One search position (42_rom_commands.md R112): two reads, the no-response check, the path bit, the direction slot. The value is
`last_zero`. -/
def searchPosition (n lastZero : Nat) (s : State) : Run Nat :=
  (slot true s).andThen fun id s1 => (slot true s1).andThen fun cmp s2 =>
    if id ∧ cmp then .stop .searchNoResponse s2
    else
      let dir := searchTake id cmp s2.lastDisc s2.srom n
      (slot dir (s2.setSrom (setSbit s2.srom n dir))).andThen fun _ s3 =>
        .ok (searchLastZero id cmp dir n lastZero) s3

/-- The loop over bit positions (42_rom_commands.md R112). -/
def searchLoop : List Nat → Nat → State → Run Nat
  | [], lastZero, s => .ok lastZero s
  | n :: ns, lastZero, s => (searchPosition n lastZero s).andThen fun lz s1 => searchLoop ns lz s1

/-- The positions 1..64 in line order. -/
def searchPositions : List Nat := List.range' 1 64

/-- The end of a pass (42_rom_commands.md R112, R114, R118). -/
def searchFound (lastZero : Nat) (s : State) : Run Unit :=
  if byteAt s.srom 0 = 0x00 then .stop .searchZeroFamily s
  else
    let s1 := s.setLastDisc (BitVec.ofNat 8 lastZero)
    let s2 := if lastZero = 0 then s1.setLastDev true else s1
    .ok () (s2.setRom (romFromReception s2.srom))

/-- The guarded part of OW.SEARCH (42_rom_commands.md R112). -/
def searchPass (m : SearchMode) (s : State) : Run Unit :=
  (busReset s).andThen fun _ s1 => (touchByte (searchCommandByte m) s1).andThen fun _ s2 =>
    (searchLoop searchPositions 0 s2).andThen fun lastZero s3 => searchFound lastZero s3

/-- OW.SEARCH as a part of a command (42_rom_commands.md R112). -/
def searchCommand (m : SearchMode) (s : State) : Run Unit :=
  (requireLink s).andThen fun _ s1 =>
    if s1.lastDev then .stop .searchExhausted (searchFirst s1)
    else (searchPass m s1).onAbort searchFirst

/-- OW.SEARCH (42_rom_commands.md R112). -/
def execOwSearch (m : SearchMode) (s : State) : Host.Outcome State Fault Refusal := .next (endCommand (searchCommand m s))

end Sys2Proof.Machine
end

