-- ==== Sys2Proof/Machine/Dispatch.lean ====
section
/-! DEFINITION. One arm for each command of the opcode map (30_encoding.md R60). -/

namespace Sys2Proof.Machine

def exec (i : Instr) (s : State) : Host.Outcome State Fault Refusal :=
  match i with
  | .uartOpen => Sys2Proof.Machine.execUartOpen s
  | .uartClose => Sys2Proof.Machine.execUartClose s
  | .owReset => Sys2Proof.Machine.execOwReset s
  | .owBit v => Sys2Proof.Machine.execOwBit v s
  | .owByte d => Sys2Proof.Machine.execOwByte d s
  | .owCommand target cmd => Sys2Proof.Machine.execOwCommand target cmd s
  | .owReadrom => Sys2Proof.Machine.execOwReadrom s
  | .owTriplet v => Sys2Proof.Machine.execOwTriplet v s
  | .owSearch m => Sys2Proof.Machine.execOwSearch m s
  | .owSearchrst => Sys2Proof.Machine.execOwSearchrst s

end Sys2Proof.Machine
end

