-- ==== Sys2Proof/Machine/Port.lean ====
section
/-! DEFINITION. The block's two ports and its reset input as a host uses them (20_memory.md R43, 70_reset_and_hazards.md R167), the
host's index into its program (10_state.md R38), and several independent instances (60_exceptions.md R162). -/

namespace Sys2Proof.Machine

/-- The command port (30_encoding.md R57, R62, R63): a legal word runs its command, an illegal one completes with IllegalCommand. -/
def commandPort (w : Word) (s : State) : Host.Outcome State Fault Refusal :=
  match decode w with
  | .ok i => exec i s
  | .error _ => .next (illegalCommand s)

/-- The register read port (10_state.md R17): the value goes to the host and the block's state is as it was; a read of an unmapped
number is refused. -/
def readPort (n : Byte) (s : State) : Host.Outcome State Fault Refusal :=
  match readReg n s with
  | some x => .next (s.setHost { s.host with readData := some x })
  | none => .refused (.unmappedRegister n)

/-- The environment after it has answered one line event. -/
def Env.afterEvent (e : Env) : Event → Env
  | .frame baud t _ => (e.nextEcho [] baud t).2
  | .opened _ =>
    match e.opens with
    | _ :: rest => { e with opens := rest }
    | [] => { e with draws := e.draws + 1 }
  | .closed => e

/-- Block reset asserted after `k` line events of the command `w` (70_reset_and_hazards.md R167): the command is abandoned and
writes no status, the events that happened stay answered, and the block is as after reset. -/
def resetDuringCommand (w : Word) (k : Nat) (s : State) : Host.Outcome State Fault Refusal :=
  match commandPort w s with
  | .next t =>
    let events := (t.trace.drop s.trace.length).take k
    .next (blockReset (s.setEnv (events.foldl Env.afterEvent s.env)))
  | .fault f => .fault f
  | .refused r => .refused r

/-- One host step. -/
def runHostStep (h : HostStep) (s : State) : Host.Outcome State Fault Refusal :=
  match h with
  | .command w => commandPort w s
  | .readReg n => readPort n s
  | .assertReset => .next (blockReset s)
  | .resetDuring w k => resetDuringCommand w k s

/-- The host step the host's index points to (10_state.md R38). -/
def currentHostStep (s : State) : Option HostStep := s.host.program[s.host.pc]?

/-- The host's index advances by 1 (10_state.md R38). -/
def advanceHost (s : State) : State := s.setHost { s.host with pc := s.host.pc + 1 }

/-- After a host step the index has advanced; a step that stops leaves nothing behind it. -/
def thenAdvance : Host.Outcome State Fault Refusal → Host.Outcome State Fault Refusal
  | .next s => .next (advanceHost s)
  | .fault f => .fault f
  | .refused r => .refused r

/-- The host holds the one-command program `w` and is about to issue it (10_state.md R38). -/
def loadCommand (w : Word) (s : State) : State :=
  s.setHost { s.host with program := [.command w], pc := 0 }

/-- The instance that serves the port at `path`, right after reset (00_scope.md R7, R8). -/
def resetOn (path : String) : State := { State.reset with env := { State.reset.env with portPath := path } }

/-- Instances right after reset, one for each path (00_scope.md R8). -/
def instancesOn (paths : List String) : List State := paths.map resetOn

/-- Instance `i` of several takes the step `f`; the others keep their state (60_exceptions.md R162). Log entry 16. -/
def stepInstance (f : State → Host.Outcome State Fault Refusal) :
    (i : Nat) → List State → Host.Outcome (List State) Fault Refusal
  | _, [] => .next []
  | 0, s :: rest =>
    match f s with
    | .next t => .next (t :: rest)
    | .fault e => .fault e
    | .refused r => .refused r
  | i + 1, s :: rest =>
    match stepInstance f i rest with
    | .next ts => .next (s :: ts)
    | .fault e => .fault e
    | .refused r => .refused r

end Sys2Proof.Machine
end

