-- ==== Sys2Proof/Machine/Step.lean ====
section
/-! DEFINITION. One step of the model: the host step at the host's index runs to completion as one atomic step (00_scope.md R14)
and the index advances (10_state.md R38). With no host step left the block is quiescent: it sends nothing and changes nothing
(70_reset_and_hazards.md R168, R182). -/

namespace Sys2Proof.Machine

/-- One step. -/
def step (s : State) : Host.Outcome State Fault Refusal :=
  match currentHostStep s with
  | none => .next s
  | some h => thenAdvance (runHostStep h s)

/-- The state in which the host's next step hands the block the command word whose low `nbits` bits are `w`. Log entry 7. -/
def State.withFetchWord (s : State) (nbits w : Nat) : State := loadCommand (tableWord nbits w) s

end Sys2Proof.Machine
end

