-- ==== Sys2Proof/Machine/Assembler.lean ====
section
/-! DEFINITION. The assembler syntax (30_encoding.md R64) and the pseudo-instructions (30_encoding.md R65), on lists of characters.
What R64 leaves open (white space, letter case, lines without a command, several labels) is the model's choice: log entry 15. -/

namespace Sys2Proof.Machine

/-- Why a line is no command. -/
inductive AsmError where
  | unknownMnemonic
  | badOperand
  | wrongOperandCount
  | badLabel
  deriving DecidableEq, Repr

/-- Mnemonics and pseudo-instructions (30_encoding.md R60, R65). -/
inductive AsmOp where
  | core (op : Opcode)
  | owRead
  | owWrite
  | owReadbit
  | owWritebit
  | owSkip
  | owSearchalarm
  deriving DecidableEq, Repr

/-- The mnemonics (30_encoding.md R60, R65). -/
def asmOps : List (String × AsmOp) :=
  [("UART.OPEN", .core .uartOpen), ("UART.CLOSE", .core .uartClose), ("OW.RESET", .core .owReset),
   ("OW.BIT", .core .owBit), ("OW.BYTE", .core .owByte), ("OW.COMMAND", .core .owCommand),
   ("OW.READROM", .core .owReadrom), ("OW.TRIPLET", .core .owTriplet)] ++
  [("OW.SEARCH", .core .owSearch), ("OW.SEARCHRST", .core .owSearchrst), ("OW.READ", .owRead),
   ("OW.WRITE", .owWrite), ("OW.READBIT", .owReadbit), ("OW.WRITEBIT", .owWritebit),
   ("OW.SKIP", .owSkip), ("OW.SEARCHALARM", .owSearchalarm)]

/-- The constant names a byte operand may be written as (42_rom_commands.md R105, 45_host_transactions.md R125). -/
def asmConstants : List (String × Byte) :=
  [("SEARCH_ROM", byteSearchRom), ("READ_ROM", byteReadRom), ("MATCH_ROM", byteMatchRom),
   ("SKIP_ROM_BROADCAST", byteSkipRom), ("SKIP_ROM", byteSkipRom), ("ALARM_SEARCH", byteAlarmSearch)] ++
  [("TEMPERATURE_READ", byteTemperatureRead), ("CONVERT_T", byteTemperatureRead), ("READ_SCRATCHPAD", byteReadScratchpad),
   ("WRITE_SCRATCHPAD", byteWriteScratchpad), ("COPY_SCRATCHPAD", byteCopyScratchpad), ("RECALL_EEPROM", byteRecallEeprom),
   ("READ_POWER_SUPPLY", byteReadPowerSupply)]

/-- Find a name in a table. -/
def asmLookup {α : Type} (name : List Char) : List (String × α) → Option α
  | [] => none
  | (k, v) :: rest => if k.toList = name then some v else asmLookup name rest

/-- White space between tokens. -/
def asmSpace (c : Char) : Bool := c = ' ' || c = '\t'

/-- A text without the white space at its two ends. -/
def asmTrim (cs : List Char) : List Char := ((cs.dropWhile asmSpace).reverse.dropWhile asmSpace).reverse

/-- A digit of a number in the given base, 10 or 16. -/
def asmDigit (base : Nat) (c : Char) : Option Nat :=
  let n := c.toNat
  if 48 ≤ n && n ≤ 57 then some (n - 48)
  else if base = 16 && 65 ≤ n && n ≤ 70 then some (n - 55)
  else if base = 16 && 97 ≤ n && n ≤ 102 then some (n - 87)
  else none

/-- The digits of a number after `acc`. -/
def asmDigits (base : Nat) : List Char → (acc : Nat) → Option Nat
  | [], acc => some acc
  | c :: cs, acc =>
    match asmDigit base c with
    | some d => asmDigits base cs (acc * base + d)
    | none => none

/-- A number: decimal, or hexadecimal with prefix `0x` (30_encoding.md R64). -/
def asmNumber : List Char → Option Nat
  | [] => none
  | ['0', 'x'] => none
  | '0' :: 'x' :: ds => asmDigits 16 ds 0
  | ds => asmDigits 10 ds 0

/-- A byte operand: a number or a constant name (30_encoding.md R64). -/
def asmByteOperand (cs : List Char) : Option Nat :=
  match asmNumber cs with
  | some n => some n
  | none => (asmLookup cs asmConstants).map BitVec.toNat

/-- A mode operand: `0`, `1`, `ROM` or `ALARM` (30_encoding.md R64). -/
def asmModeOperand (cs : List Char) : Option Nat :=
  if cs = "ROM".toList then some 0
  else if cs = "ALARM".toList then some 1
  else asmNumber cs

/-- An operand of a form. A bit, and a mode that is no word, may be any spelling of a number; RawCommand.toInstr then admits the values
0 and 1 alone, so `0x1` and `01` are taken as `1`. R64 writes `0` or `1`: the wider spelling is the model's choice, log entry 15. -/
def asmOperand : OperandForm → List Char → Option Nat
  | .none, _ => none
  | .bit, cs => asmNumber cs
  | .mode, cs => asmModeOperand cs
  | .byte, cs => asmByteOperand cs
  | .twoBytes, cs => asmByteOperand cs

/-- Split at every occurrence of a character. -/
def asmSplit (sep : Char) : List Char → List Char → List (List Char)
  | [], cur => [cur.reverse]
  | c :: cs, cur => if c = sep then cur.reverse :: asmSplit sep cs [] else asmSplit sep cs (c :: cur)

/-- The operands of a line, separated by commas. -/
def asmOperandTexts (cs : List Char) : List (List Char) :=
  if asmTrim cs = [] then [] else (asmSplit ',' cs []).map asmTrim

/-- The operands of a form, or nothing if one of them is no operand of it. -/
def asmOperands (f : OperandForm) : List (List Char) → Option (List Nat)
  | [] => some []
  | t :: ts =>
    match asmOperand f t, asmOperands f ts with
    | some n, some ns => some (n :: ns)
    | _, _ => none

/-- How many operands a form takes. -/
def asmArity : OperandForm → Nat
  | .none => 0
  | .bit => 1
  | .mode => 1
  | .byte => 1
  | .twoBytes => 2

/-- A command from an opcode and operand texts, after the operands a pseudo-instruction supplies. -/
def asmCore (op : Opcode) (supplied : List Nat) (texts : List (List Char)) : Except AsmError Instr :=
  if supplied.length + texts.length ≠ asmArity op.form then .error .wrongOperandCount
  else
    match asmOperands op.form texts with
    | none => .error .badOperand
    | some ns =>
      match RawCommand.toInstr ⟨op, supplied ++ ns⟩ with
      | some i => .ok i
      | none => .error .badOperand

/-- A mnemonic or pseudo-instruction with its operand texts (30_encoding.md R65): each expands to exactly one command. -/
def asmExpand (op : AsmOp) (texts : List (List Char)) : Except AsmError Instr :=
  match op with
  | .core op => asmCore op [] texts
  | .owRead => asmCore .owByte [0xFF] texts
  | .owWrite => asmCore .owByte [] texts
  | .owReadbit => asmCore .owBit [1] texts
  | .owWritebit => asmCore .owBit [] texts
  | .owSkip => asmCore .owCommand [0xCC] texts
  | .owSearchalarm => asmCore .owSearch [1] texts

/-- A command text without label and comment: nothing, or one command. That a line with no command, be it blank, a comment alone or a
label alone, is accepted and assembles to nothing is the model's choice, R64 being silent: log entry 15. -/
def asmCommand (cs : List Char) : Except AsmError (Option Instr) :=
  let body := asmTrim cs
  if body = [] then .ok none
  else
    match asmLookup (body.takeWhile fun c => !asmSpace c) asmOps with
    | none => .error .unknownMnemonic
    | some op =>
      match asmExpand op (asmOperandTexts (body.dropWhile fun c => !asmSpace c)) with
      | .ok i => .ok (some i)
      | .error e => .error e

/-- A character of an identifier. -/
def asmIdentChar (c : Char) : Bool := c.isAlphanum || c = '_'

/-- An identifier: letters, digits and underscores, no digit first. -/
def asmIdent : List Char → Bool
  | [] => false
  | c :: cs => (c.isAlpha || c = '_') && cs.all asmIdentChar

/-- One line (30_encoding.md R64): an optional label, then at most one command, then an optional comment. That a line holds at most one
label, so that a second one is rejected as an unknown mnemonic, and that the text before the first colon must be a label, is the model's
choice, R64 being silent: log entry 15. -/
def asmLine (line : List Char) : Except AsmError (Option (List Char) × Option Instr) :=
  let code := line.takeWhile (· ≠ ';')
  if code.contains ':' then
    let label := asmTrim (code.takeWhile (· ≠ ':'))
    if asmIdent label then
      match asmCommand ((code.dropWhile (· ≠ ':')).drop 1) with
      | .ok i => .ok (some label, i)
      | .error e => .error e
    else .error .badLabel
  else
    match asmCommand code with
    | .ok i => .ok (none, i)
    | .error e => .error e

/-- An assembled program: its labels, each with the index of the next command, and its command words. -/
structure AsmProgram where
  labels : List (List Char × Nat)
  words : List Word
  deriving DecidableEq, Repr

/-- Assemble lines after the program so far (30_encoding.md R64). A label defined twice is accepted and both entries are kept, in order:
R64 is silent, the model's choice, log entry 15. -/
def assembleFrom (p : AsmProgram) : List (List Char) → Except AsmError AsmProgram
  | [] => .ok p
  | line :: lines =>
    match asmLine line with
    | .error e => .error e
    | .ok (label, i) =>
      assembleFrom
        { labels := p.labels ++ (label.map fun l => (l, p.words.length)).toList
          words := p.words ++ (i.map encode).toList }
        lines

/-- Assemble a program, one command a line. -/
def assemble (lines : List (List Char)) : Except AsmError AsmProgram := assembleFrom { labels := [], words := [] } lines

end Sys2Proof.Machine
end

