-- ==== Sys2Proof/Machine/HostProgram.lean ====
section
/-! DEFINITION. The DS18B20 function layer as host programs: sequences of commands with host decisions between them
(45_host_transactions.md R124 to R146), and their data formats. The programs use the block only through its command port and its register read port. -/

namespace Sys2Proof.Machine

/-- Why a host program stops with a failure (45_host_transactions.md R124). -/
inductive HostFailure where
  | status (c : StatusCode)
  | invalidResolution
  | conversionTimeout
  deriving DecidableEq, Repr

/-- The number of a failure (45_host_transactions.md R124): host-layer codes are never written to STATUS. -/
def HostFailure.code : HostFailure → Byte
  | .status c => c.code
  | .invalidResolution => 0x80
  | .conversionTimeout => 0x81

/-- How a host program, or a part of one, ends. -/
inductive HostRun (α : Type) where
  | done (a : α) (s : State)
  /-- `Do` or `Fail` stopped it; there is no partial result. -/
  | failed (f : HostFailure) (s : State)
  /-- An external signal stopped it between two polls (45_host_transactions.md R144). The spec gives this end no result and no host
  code (R182 names only the last step, `Do` and `Fail`): that it is an end of its own, with no code, is the model's choice, log entry
  14. -/
  | cancelled (s : State)
  /-- A port access was refused. -/
  | refused (r : Refusal) (s : State)

/-- Go on with the next part of the program. -/
def HostRun.andThen {α β : Type} : HostRun α → (α → State → HostRun β) → HostRun β
  | .done a s, k => k a s
  | .failed f s, _ => .failed f s
  | .cancelled s, _ => .cancelled s
  | .refused r s, _ => .refused r s

/-- The state a host program leaves. -/
def HostRun.state {α : Type} : HostRun α → State
  | .done _ s => s
  | .failed _ s => s
  | .cancelled s => s
  | .refused _ s => s

/-- `Do(c)` (45_host_transactions.md R124): issue the command, read STATUS, stop on a failure, else return RESULT. The host's index
advances by 1 (10_state.md R38). It goes on from the index of the state it is given: that no program sets the index back to 0 when it
starts, so that programs run one after another, and retries, count on, is the model's choice, log entry 14. -/
def doCommand (i : Instr) (s : State) : HostRun Byte :=
  match commandPort (encode i) s with
  | .next t =>
    if t.status.code = 0x00 then .done t.result (advanceHost t) else .failed (.status t.status) (advanceHost t)
  | .fault f => nomatch f
  | .refused r => .refused r s

/-- The host reads register `n` (10_state.md R17). -/
def hostRead (n : Byte) (s : State) : HostRun Byte :=
  match readReg n s with
  | some x => .done x (s.setHost { s.host with readData := some x })
  | none => .refused (.unmappedRegister n) s

/-- The host sets its index: `goto` (45_host_transactions.md R124). -/
def hostGoto (pc : Nat) (s : State) : State := s.setHost { s.host with pc := pc }

/-- Issue `OW.BYTE 0xFF` `n` times and collect what was read, first byte first. -/
def hostReadBytes : Nat → State → HostRun (List Byte)
  | 0, s => .done [] s
  | n + 1, s => (doCommand (.owByte 0xFF) s).andThen fun b s1 =>
      (hostReadBytes n s1).andThen fun bs s2 => .done (b :: bs) s2

/-- Issue `OW.BYTE d` for each byte; the returned bytes are ignored. -/
def hostWriteBytes : List Byte → State → HostRun Unit
  | [], s => .done () s
  | d :: ds, s => (doCommand (.owByte d) s).andThen fun _ s1 => hostWriteBytes ds s1

/-- `OW.COMMAND 0xCC, cmd`: skip ROM and a function command (45_host_transactions.md R145). -/
def hostSkipRom (cmd : Byte) (s : State) : HostRun Byte := doCommand (.owCommand byteSkipRom cmd) s

/-- `resolution_bits` of a configuration byte (45_host_transactions.md R127). -/
def resolutionBits (configuration : Byte) : Nat :=
  9 + ((configuration >>> 5) &&& 1).toNat + (((configuration >>> 6) &&& 1).toNat <<< 1)

/-- The scratchpad (45_host_transactions.md R126), in reception order, with the resolution of its configuration byte. -/
structure Scratchpad where
  temperatureLsb : Byte
  temperatureMsb : Byte
  thRegister : Byte
  tlRegister : Byte
  configuration : Byte
  reservedFf : Byte
  reservedXx : Byte
  reserved10 : Byte
  crc : Byte
  resolution : Nat
  deriving DecidableEq, Repr

/-- The scratchpad record of nine received bytes (45_host_transactions.md R126, R132). -/
def scratchpadOf (b : List Byte) : Scratchpad where
  temperatureLsb := b.getD 0 0x00
  temperatureMsb := b.getD 1 0x00
  thRegister := b.getD 2 0x00
  tlRegister := b.getD 3 0x00
  configuration := b.getD 4 0x00
  reservedFf := b.getD 5 0x00
  reservedXx := b.getD 6 0x00
  reserved10 := b.getD 7 0x00
  crc := b.getD 8 0x00
  resolution := resolutionBits (b.getD 4 0x00)

/-- The ROM code record (10_state.md R28, 42_rom_commands.md R106). -/
structure RomCode where
  crc : Byte
  serial : List Byte
  familyCode : Byte
  deriving DecidableEq, Repr

/-- The ROM code record of the bytes ROM[0], ..., ROM[7]. -/
def romCodeOf (b : List Byte) : RomCode where
  crc := b.getD 0 0x00
  serial := (b.drop 1).take 6
  familyCode := b.getD 7 0x00

/-- `raw = (msb << 8) | lsb` (45_host_transactions.md R128). -/
def temperatureRaw (lsb msb : Byte) : BitVec 16 := (msb.setWidth 16 <<< 8) ||| lsb.setWidth 16

/-- The temperature in units of 1/16 °C: `sext_16(raw)` (45_host_transactions.md R128). -/
def temperatureSixteenths (lsb msb : Byte) : Int := (temperatureRaw lsb msb).toInt

/-- The temperature in °C, exactly (45_host_transactions.md R128). -/
def temperature (lsb msb : Byte) : Rat := (temperatureSixteenths lsb msb : Rat) / 16

/-- The power mode (45_host_transactions.md R129). -/
inductive PowerMode where
  | externallyPowered
  | parasiticPowered
  deriving DecidableEq, Repr

/-- The power mode a read byte stands for (45_host_transactions.md R129). -/
def powerModeOf (r : Byte) : PowerMode := if r = 0xFF then .externallyPowered else .parasiticPowered

/-- The configuration byte H.SETRES writes (45_host_transactions.md R139). -/
def resolutionConfig (configuration : Byte) (bits : Nat) : Byte :=
  (configuration &&& ~~~0x60#8) ||| (BitVec.ofNat 8 (bits - 9) <<< 5)

/-- The poll loop of H.CONVERT (45_host_transactions.md R130, R131): `left` polls may still be made, the loop's label is at index
`label`, and `cancelWait` says which wait between two polls an external signal stops, if one comes: 0 is the wait after the next poll
(45_host_transactions.md R144: only between two polls, so a poll has always been made). A wait has no duration. A cancelled program returns neither a value nor a failure code, and it
issues no further command: the link stays as it is, no UART.CLOSE is added. Both are the model's choice. Log entries 5 and 14. -/
def pollLoop (label : Nat) : (left : Nat) → (cancelWait : Option Nat) → State → HostRun Unit
  | 0, _, s => .failed .conversionTimeout s
  | left + 1, cancelWait, s =>
    (doCommand (.owByte 0xFF) s).andThen fun r s1 =>
      if r ≠ 0x00 then .done () s1
      else if left = 0 then .failed .conversionTimeout s1
      else if cancelWait = some 0 then .cancelled s1
      else pollLoop label left (cancelWait.map (· - 1)) (hostGoto label s1)

/-- H.CONVERT (45_host_transactions.md R130, R131) with `P_CONV_MAX_POLLS` = `maxPolls`, at least 1. -/
def hConvert (maxPolls : Nat) (cancelWait : Option Nat) (s : State) : HostRun Unit :=
  (hostSkipRom byteTemperatureRead s).andThen fun _ s1 => pollLoop s1.host.pc maxPolls cancelWait s1

/-- H.READSP (45_host_transactions.md R132, R133): exactly nine bytes. -/
def hReadScratchpad (s : State) : HostRun Scratchpad :=
  (hostSkipRom byteReadScratchpad s).andThen fun _ s1 =>
    (hostReadBytes 9 s1).andThen fun b s2 => .done (scratchpadOf b) s2

/-- H.WRITESP (45_host_transactions.md R134): Th, Tl, configuration. -/
def hWriteScratchpad (th tl config : Byte) (s : State) : HostRun Unit :=
  (hostSkipRom byteWriteScratchpad s).andThen fun _ s1 => hostWriteBytes [th, tl, config] s1

/-- H.READTEMP (45_host_transactions.md R135): no closing reset is sent (45_host_transactions.md R136). -/
def hReadTemperature (maxPolls : Nat) (cancelWait : Option Nat) (s : State) : HostRun Rat :=
  (hConvert maxPolls cancelWait s).andThen fun _ s1 => (hostSkipRom byteReadScratchpad s1).andThen fun _ s2 =>
    (doCommand (.owByte 0xFF) s2).andThen fun lsb s3 => (doCommand (.owByte 0xFF) s3).andThen fun msb s4 =>
      .done (temperature lsb msb) s4

/-- Read the registers `n`, ..., in order. -/
def hostReadRegs : List Byte → State → HostRun (List Byte)
  | [], s => .done [] s
  | n :: ns, s => (hostRead n s).andThen fun b s1 => (hostReadRegs ns s1).andThen fun bs s2 => .done (b :: bs) s2

/-- H.READROM (45_host_transactions.md R137): the ROM registers are read through the read port, numbers 0x05..0x0C. -/
def hReadRom (s : State) : HostRun RomCode :=
  (doCommand .owReadrom s).andThen fun _ s1 =>
    (hostReadRegs [0x05, 0x06, 0x07, 0x08, 0x09, 0x0A, 0x0B, 0x0C] s1).andThen fun b s2 => .done (romCodeOf b) s2

/-- H.POWER (45_host_transactions.md R138). -/
def hPower (s : State) : HostRun PowerMode :=
  (hostSkipRom byteReadPowerSupply s).andThen fun _ s1 =>
    (doCommand (.owByte 0xFF) s1).andThen fun r s2 => .done (powerModeOf r) s2

/-- H.SETRES (45_host_transactions.md R139, R140): the range is checked before any command. -/
def hSetResolution (bits : Int) (s : State) : HostRun Unit :=
  if bits < 9 ∨ bits > 12 then .failed .invalidResolution s
  else
    (hReadScratchpad s).andThen fun sp s1 =>
      hWriteScratchpad sp.thRegister sp.tlRegister (resolutionConfig sp.configuration bits.toNat) s1

/-- The composition with MATCH_ROM a host may make (45_host_transactions.md R145): `code` in reception order, then `func`. R145 lists bare
commands: that each is issued by `Do`, so that the first failed one stops the composition with its status, and that it returns no value,
is the model's choice, log entry 14. -/
def hMatchRom (code : Bytes8) (func : Byte) (s : State) : HostRun Unit :=
  (doCommand .owReset s).andThen fun _ s1 => hostWriteBytes (byteMatchRom :: code.toList ++ [func]) s1

end Sys2Proof.Machine
end

