-- ==== Sys2Proof/Machine/Timing.lean ====
section
/-! DEFINITION. Informative timing: the line levels of a UART frame (20_memory.md R48), frame times and the lower bound of a
command's duration (70_reset_and_hazards.md R179, R180). No step reads any of this (00_scope.md R11). The unit of time is one bit at
the normal rate, 1/115200 s; one bit at the reset rate is twelve of them. -/

namespace Sys2Proof.Machine

/-- The line levels of a frame, in bit times: a start bit at 0, the data bits least significant first, a stop bit at 1. -/
def frameLevels (t : Byte) : List Bool :=
  [false] ++ (List.range Config.dataBits).map (fun i => t.getLsbD i) ++ List.replicate Config.stopBits true

/-- The idle level of the line (20_memory.md R48). -/
def idleLevel : Bool := true

/-- The level of the line: idle while no frame is being sent, else the level of frame `t` at bit time `i` from its start, and idle again
once the frame is over (20_memory.md R48). -/
def lineLevel : (sending : Option (Byte × Nat)) → Bool
  | none => idleLevel
  | some (t, i) => (frameLevels t).getD i idleLevel

/-- How many bit times the line is low at the start of a frame (70_reset_and_hazards.md R179). -/
def leadingLowBits (t : Byte) : Nat := ((frameLevels t).takeWhile (· == false)).length

/-- The length of one bit at rate `baud`, in bits at the normal rate. -/
def bitTime (baud : Nat) : Nat := Config.baudNormal / baud

/-- The length of a line event, in bits at the normal rate: a frame is its levels long; opening and closing take no line time. -/
def eventTime : Event → Nat
  | .frame baud t _ => (frameLevels t).length * bitTime baud
  | .opened _ => 0
  | .closed => 0

/-- The lower bound of the duration of a sequence of line events, in bits at the normal rate (70_reset_and_hazards.md R180). -/
def minDuration (events : List Event) : Nat := (events.map eventTime).sum

/-- The upper bound the read timeouts add, in milliseconds (70_reset_and_hazards.md R180). -/
def maxTimeoutMs (events : List Event) : Nat :=
  (events.map fun e => match e with | .frame _ _ _ => Config.readTimeoutMs | _ => 0).sum

end Sys2Proof.Machine
end

