-- ==== Sys2Proof/Safety.lean ====
section
/-! DEFINITION. What counts as a safe state of the block, in the terms claims use: the invariants that hold between commands
(10_state.md R41), and the framing of the line (10_state.md R39, 41_onewire_bus.md R104). -/

namespace Sys2Proof

open Machine

/-- The invariants of 10_state.md R41, clauses a to e. -/
structure Machine.State.Inv (s : State) : Prop where
  /-- (a) BAUD_SEL = 0. -/
  baud : s.baudSel = .normal
  /-- (b) LINK_OPEN = 0 implies BUS_READY = 0. -/
  link : s.linkOpen = false → s.busReady = false
  /-- (c) LAST_DISC ≤ 64. -/
  disc : s.lastDisc.toNat ≤ 64
  /-- (d) LAST_DEV = 1 implies LAST_DISC = 0. -/
  last : s.lastDev = true → s.lastDisc = 0x00
  /-- (e) BUS_READY = 1 implies RSTCLS ∈ {0x02, 0x03}. -/
  ready : s.busReady = true → s.rstcls.code = 0x02 ∨ s.rstcls.code = 0x03

/-- The framing of one line event: a frame at 9600 baud transmits the reset byte 0xF0, and a frame at 115200 baud transmits 0xFF or
0x00; there is no third rate. -/
def Event.framed : Event → Prop
  | .frame baud t _ => (baud = 9600 ∧ t = 0xF0) ∨ (baud = 115200 ∧ (t = 0xFF ∨ t = 0x00))
  | .opened _ => True
  | .closed => True

/-- Every line event on record is framed. -/
def Machine.State.Framed (s : State) : Prop := ∀ e ∈ s.trace, e.framed

/-- No two instances share a port (00_scope.md R8). -/
def DistinctPorts (ss : List State) : Prop := (ss.map fun s => s.env.portPath).Nodup

/-- The search state machine's three states between commands (42_rom_commands.md R108). -/
def Machine.State.searchStateFirst (s : State) : Prop := s.lastDisc = 0x00 ∧ s.lastDev = false
def Machine.State.searchStateNext (s : State) : Prop := 1 ≤ s.lastDisc.toNat ∧ s.lastDev = false
def Machine.State.searchStateDone (s : State) : Prop := s.lastDisc = 0x00 ∧ s.lastDev = true

/-- A frame as a question to the environment: the baud rate and the transmitted byte. -/
abbrev FrameAsk := Nat × Byte

/-- The answers of the environment `e` to a sequence of frames, each asked after the events before it
(40_serial_channel.md R76), and the environment after them. -/
def Machine.Env.answers (e : Env) (history : List Event) : List FrameAsk → List LineOutcome × Env
  | [] => ([], e)
  | (baud, t) :: fs =>
    let o := wiredAnswer e.wiredAnd t (e.nextEcho history baud t).1
    let r := (e.nextEcho history baud t).2.answers (history ++ [.frame baud t o]) fs
    (o :: r.1, r.2)

/-- The line events of frames and their answers. -/
def frameEvents (fs : List FrameAsk) (os : List LineOutcome) : List Event :=
  List.zipWith (fun f o => Event.frame f.1 f.2 o) fs os

/-- The status with which an answer ends a command, if it does (40_serial_channel.md R78). -/
def LineOutcome.failure : LineOutcome → Option StatusCode
  | .writeFail => some .writeError
  | .readFail => some .readError
  | .timeout => none
  | .echo _ => none

/-- The bit a slot's answer gives: 1 for an echo of exactly 0xFF, else 0 (41_onewire_bus.md R93). -/
def LineOutcome.bit (o : LineOutcome) : Bool := o = .echo 0xFF

/-- The bit of the answer at index `i`, 0 past the end. -/
def bitOf (os : List LineOutcome) (i : Nat) : Bool := ((os[i]?).map LineOutcome.bit).getD false

/-- The reset frame: 0xF0 at 9600 baud (41_onewire_bus.md R89). -/
def resetAsk : FrameAsk := (9600, 0xF0)

/-- The slot of a bit: 0xFF or 0x00 at 115200 baud (41_onewire_bus.md R93). -/
def slotAsk (b : Bool) : FrameAsk := (115200, if b then 0xFF else 0x00)

/-- The eight slots of a byte, bit 0 first (41_onewire_bus.md R95). -/
def byteAsks (d : Byte) : List FrameAsk :=
  [slotAsk (d.getLsbD 0), slotAsk (d.getLsbD 1), slotAsk (d.getLsbD 2), slotAsk (d.getLsbD 3),
   slotAsk (d.getLsbD 4), slotAsk (d.getLsbD 5), slotAsk (d.getLsbD 6), slotAsk (d.getLsbD 7)]

/-- The three slots of one search position at which direction `dir` is written (42_rom_commands.md R112). -/
def positionAsks (dir : Bool) : List FrameAsk := [slotAsk true, slotAsk true, slotAsk dir]

/-- The byte `r` is the touched byte of the eight answers from index `k` on: bit `i` is the bit of answer `k + i`
(41_onewire_bus.md R95). -/
def Touched (r : Byte) (os : List LineOutcome) (k : Nat) : Prop := ∀ i, i < 8 → r.getLsbD i = bitOf os (k + i)

/-- A reset echo that finds a presence (41_onewire_bus.md R90): neither 0xF0 nor 0x00. -/
def presence (r : Byte) : Prop := r ≠ 0xF0 ∧ r ≠ 0x00

/-- How many line events of a list are frames at a rate. -/
def framesAt (baud : Nat) (es : List Event) : Nat :=
  es.countP fun e => match e with | .frame b _ _ => b == baud | _ => false

/-- Answer `k` is the first that ends the command, with status `c` (60_exceptions.md R149, step 4). -/
def FirstFailure (os : List LineOutcome) (k : Nat) (c : StatusCode) : Prop :=
  (os[k]?).bind LineOutcome.failure = some c ∧ ∀ j, j < k → (os[j]?).bind LineOutcome.failure = none

/-- No answer of the list ends the command. -/
def NoFailure (os : List LineOutcome) : Prop := ∀ o ∈ os, o.failure = none

/-- What the environment answers to a command's frames, asked from the state `s`. -/
def Machine.State.answersTo (s : State) (fs : List FrameAsk) : List LineOutcome := (s.env.answers s.trace fs).1

/-- The state in which the frames `fs` have been sent from `s` and the rate is normal again: TRACE holds them with their answers, the
environment has answered them, and every other register is as it was. -/
def Machine.State.afterFrames (s : State) (fs : List FrameAsk) : State :=
  { s with
    baudSel := .normal
    trace := s.trace ++ frameEvents fs (s.env.answers s.trace fs).1
    env := (s.env.answers s.trace fs).2 }

/-- How a reset frame's answer ends a command, if it does (41_onewire_bus.md R89, R91): the status, and RSTCLS if it is written. -/
def resetFailure (o : LineOutcome) : Option (StatusCode × Option RstCls) :=
  match o with
  | .writeFail => some (.writeError, none)
  | .readFail => some (.readError, none)
  | .timeout => some (.noEcho, some .noEcho)
  | .echo r =>
    if r = 0xF0 then some (.noDevicesPresent, some (.classified .noDevicesPresent))
    else if r = 0x00 then some (.shortCircuit, some (.classified .shortCircuit))
    else none

/-- RSTCLS after a presence echo (41_onewire_bus.md R90): 0x02 for 0xE0, 0x03 for any other byte. -/
def presenceClass (r : Byte) : RstCls :=
  if r = 0xE0 then .classified .singleDevicePresent else .classified .multipleDevicesPresent

/-- The command fails fast: with the link open, a reset frame that finds no presence ends it with one frame sent, the status, RSTCLS
(if it is classified or timed out) and BUS_READY = 0, and `also` says what else it writes (41_onewire_bus.md R98). -/
def FailsFast (i : Instr) (also : State → State) : Prop :=
  ∀ (s : State) (o : LineOutcome) (c : StatusCode) (cls : Option RstCls),
    s.linkOpen = true → s.answersTo [resetAsk] = [o] → resetFailure o = some (c, cls) →
    exec i s =
      .next (also { s.afterFrames [resetAsk] with status := c, busReady := false, rstcls := cls.getD s.rstcls })

/-- With the link closed the command ends with PortClosed and changes nothing but STATUS (40_serial_channel.md R86); BAUD_SEL is
written 0 as at the end of every command (log entry 10). -/
def NeedsLink (i : Instr) : Prop :=
  ∀ s : State, s.linkOpen = false → exec i s = .next { s with status := .portClosed, baudSel := .normal }

/-- With the link open and BUS_READY = 0 the command ends with BusNotReady and sends nothing (10_state.md R24);
BAUD_SEL is written 0 as at the end of every command (log entry 10). -/
def NeedsBus (i : Instr) : Prop :=
  ∀ s : State, s.linkOpen = true → s.busReady = false →
    exec i s = .next { s with status := .busNotReady, baudSel := .normal }

/-- Of the polls of H.CONVERT, whose eight slots each follow the 17 frames that start the conversion, poll `j` (from 1) is the first that
does not read 0x00 (45_host_transactions.md R130). -/
def FirstNonzeroPoll (os : List LineOutcome) (j : Nat) : Prop :=
  (∀ k, 17 ≤ k → k < 17 + 8 * (j - 1) → bitOf os k = false) ∧
    ∃ k, 17 + 8 * (j - 1) ≤ k ∧ k < 17 + 8 * j ∧ bitOf os k = true

/-- The frames of OW.READROM (42_rom_commands.md R107). -/
def readRomAsks : List FrameAsk := resetAsk :: (byteAsks 0x33 ++ (List.replicate 8 (byteAsks 0xFF)).flatten)

/-- The ROM command byte of a search pass: 0xF0, or 0xEC for an alarm search (42_rom_commands.md R105, R112). -/
def searchByte : SearchMode → Byte
  | .rom => 0xF0
  | .alarm => 0xEC

/-- The frames of a search pass that takes the directions `dirs` (42_rom_commands.md R112). -/
def searchAsks (m : SearchMode) (dirs : List Bool) : List FrameAsk :=
  resetAsk :: (byteAsks (searchByte m) ++ dirs.flatMap positionAsks)

/-- The bit read at position `n` (1..64) of a pass, and its complement slot. -/
def readId (os : List LineOutcome) (n : Nat) : Bool := bitOf os (9 + 3 * (n - 1))
def readCmp (os : List LineOutcome) (n : Nat) : Bool := bitOf os (9 + 3 * (n - 1) + 1)

/-- The direction of position `n` in a list of directions. -/
def dirAt (dirs : List Bool) (n : Nat) : Bool := dirs.getD (n - 1) false

/-- `Direction(n)` from a state's search state (42_rom_commands.md R109). -/
def directionRule (s : State) (n : Nat) : Bool :=
  if n < s.lastDisc.toNat then sbit s.srom n else decide (n = s.lastDisc.toNat)

/-- The directions are those the search takes from the bits read: never two 1s; the bit read where the two differ; `Direction(n)` at a
discrepancy (42_rom_commands.md R112). -/
def TakesDirections (s : State) (os : List LineOutcome) (dirs : List Bool) : Prop :=
  ∀ n, 1 ≤ n → n ≤ dirs.length →
    ¬(readId os n = true ∧ readCmp os n = true) ∧
    dirAt dirs n = if readId os n ≠ readCmp os n then readId os n else directionRule s n

/-- Position `n` is a discrepancy at which 0 was taken. -/
def ZeroTaken (os : List LineOutcome) (dirs : List Bool) (n : Nat) : Prop :=
  readId os n = readCmp os n ∧ dirAt dirs n = false

/-- `last` is the last of the 64 positions at which 0 was taken at a discrepancy, 0 if there is none (42_rom_commands.md R114). -/
def LastZero (os : List LineOutcome) (dirs : List Bool) (last : Nat) : Prop :=
  last ≤ 64 ∧ (1 ≤ last → ZeroTaken os dirs last) ∧ ∀ n, last < n → n ≤ 64 → ¬ZeroTaken os dirs n

/-- The path register after the first `k` positions of a pass: they hold the directions, the others are as before. -/
def PathAfter (before after : Bytes8) (dirs : List Bool) (k : Nat) : Prop :=
  ∀ n, 1 ≤ n → n ≤ 64 → sbit after n = if n ≤ k then dirAt dirs n else sbit before n

/-- `c` comes before `d` in the order of the 64-bit line-order bit string, SBIT(1) most significant (42_rom_commands.md R117). -/
def LineOrder (c d : Bytes8) : Prop :=
  ∃ n, 1 ≤ n ∧ n ≤ 64 ∧ (∀ m, 1 ≤ m → m < n → sbit c m = sbit d m) ∧ sbit c n = false ∧ sbit d n = true

end Sys2Proof
end

