-- ==== Sys2Proof/Certificates/Slice0/Obligations.lean ====
section
/-! DEFINITION. The statements for the provers. Every command that completes is stated by an equation for the whole next state, so that
each such statement is also the command's frame: what it does not name is as it was. -/

open Sys2Proof Sys2Proof.Machine

/-! ### Reset, the ports and the step -/

/-- Block reset sets every piece of state to its reset value (R37), whether reset is asserted between commands or while a command is in
progress (R167). That the host's index advances by 1 at a reset, that the rest of the host's side and the environment's parameters are
as before, and that reset is a host step at all, is the model's choice: log entries 8 and 9. -/
def Obligations.BlockResetSetsEveryRegister : Prop :=
  ∀ (s : State) (h : HostStep), (h = .assertReset ∨ ∃ w k, h = .resetDuring w k) →
    s.host.program[s.host.pc]? = some h →
    ∃ t, step s = .next t ∧ readReg 0x00 t = some 0x00 ∧ readReg 0x01 t = some 0x00 ∧ readReg 0x02 t = some 0xFF ∧
      readReg 0x03 t = some 0x00 ∧ t.linkOpen = false ∧ t.busReady = false ∧ t.baudSel = .normal ∧ t.lastDev = false ∧
      readReg 0x04 t = some 0x00 ∧ (∀ i, i < 8 → byteAt t.rom i = 0x00 ∧ byteAt t.srom i = 0x00) ∧ t.trace = [] ∧
      t.host = { s.host with pc := s.host.pc + 1 } ∧ t.env.wiredAnd = s.env.wiredAnd ∧ t.env.portPath = s.env.portPath

/-- R15's table of reset values and R38's `pc` = 0, for the state after reset. That the host holds no program and the environment no
scripted answer is the model's choice (log entries 7 and 19). -/
def Obligations.StateAfterReset : Prop :=
  (∀ n : Byte, n.toNat ≤ 0x14 → readReg n State.reset = some (if n = 0x02 then 0xFF else 0x00)) ∧
    State.reset.trace = [] ∧ State.reset.host.pc = 0

/-- The invariants of 10_state.md section 5 hold after reset, and so does the framing of TRACE. -/
def Obligations.ResetMeetsInvariants : Prop := State.reset.Inv ∧ State.reset.Framed

/-- A register read returns the value of the register, has no side effect on any state of the block, and is refused for a number
outside the map (R17). That a read is a step of the host, which keeps the byte and whose index advances by 1, is the model's choice:
log entry 8. -/
def Obligations.ReadPortHasNoSideEffect : Prop :=
  ∀ (s : State) (n : Byte), s.host.program[s.host.pc]? = some (.readReg n) →
    (n.toNat ≤ 0x14 → ∃ x, readReg n s = some x ∧
      step s = .next { s with host := { s.host with pc := s.host.pc + 1, readData := some x } }) ∧
    (0x14 < n.toNat → step s = .refused (.unmappedRegister n))

/-- R18: the register map, byte by byte; FLAGS bits 7..4 read 0 (R22); and what the byte of STATUS and of RSTCLS is: the fourteen
status codes (R147) and the six values of RSTCLS (R21). -/
def Obligations.RegisterMapContents : Prop :=
  ∀ s : State, readReg 0x00 s = some s.status.code ∧ readReg 0x01 s = some s.result ∧ readReg 0x02 s = some s.rstcls.code ∧
    (∃ f : Byte, readReg 0x03 s = some f ∧ f.getLsbD 0 = s.linkOpen ∧ f.getLsbD 1 = s.busReady ∧
      f.getLsbD 2 = decide (s.baudSel = .reset) ∧ f.getLsbD 3 = s.lastDev ∧ ∀ i, 4 ≤ i → f.getLsbD i = false) ∧
    readReg 0x04 s = some s.lastDisc ∧
    (∀ i, i < 8 → readReg (BitVec.ofNat 8 (0x05 + i)) s = some (byteAt s.rom i)) ∧
    (∀ i, i < 8 → readReg (BitVec.ofNat 8 (0x0D + i)) s = some (byteAt s.srom i)) ∧
    s.status.code = (match s.status with
      | .ok => 0x00
      | .noDevicesPresent => 0x01
      | .shortCircuit => 0x02
      | .noEcho => 0x03
      | .writeError => 0x04
      | .readError => 0x05
      | .portUnavailable => 0x06
      | .portOpenFailed => 0x07
      | .portClosed => 0x08
      | .busNotReady => 0x09
      | .illegalCommand => 0x0A
      | .searchExhausted => 0x0B
      | .searchNoResponse => 0x0C
      | .searchZeroFamily => 0x0D) ∧
    s.rstcls.code = (match s.rstcls with
      | .classified .noDevicesPresent => 0x00
      | .classified .shortCircuit => 0x01
      | .classified .singleDevicePresent => 0x02
      | .classified .multipleDevicesPresent => 0x03
      | .noEcho => 0xFE
      | .unclassified => 0xFF)

/-- A step runs the decoded command: when the host's next step hands the block a word that decodes to `i`, the step is `exec i`,
which always answers a next state, followed by the host's index advancing by 1 (R38); the command leaves the host's side as it
was. -/
def Obligations.StepRunsDecodedCommand : Prop :=
  ∀ (s : State) (w : Word) (i : Instr), s.host.program[s.host.pc]? = some (.command w) → decode w = .ok i →
    ∃ t, exec i s = .next t ∧ t.host = s.host ∧
      step s = .next { t with host := { s.host with pc := s.host.pc + 1 } }

/-- An illegal word transmits nothing, changes no state except STATUS, and completes with IllegalCommand (R62); the host's index
advances. That BAUD_SEL is written 0 here too, as at the end of every command (R151), is the model's reading: log entry 10. Under the
invariant it is no change. -/
def Obligations.StepIllegalWord : Prop :=
  ∀ (s : State) (w : Word), s.host.program[s.host.pc]? = some (.command w) → w.legal = false →
    step s = .next { s with
      status := .illegalCommand
      baudSel := .normal
      host := { s.host with pc := s.host.pc + 1 } }

/-- Every command word and every reset input ends in a next state; only a read of a register number outside the map stops, by a
refusal (60_exceptions.md section 2, how a model treats the outcomes). -/
def Obligations.OnlyUnmappedReadsStop : Prop :=
  ∀ s : State, (∃ t, step s = .next t) ∨
    ∃ n : Byte, s.host.program[s.host.pc]? = some (.readReg n) ∧ 0x14 < n.toNat ∧ step s = .refused (.unmappedRegister n)

/-- With no host step left the block sends nothing and changes nothing (R168, R182): the model's reading of waiting, log entry 6. -/
def Obligations.StepWaitsWithoutCommand : Prop :=
  ∀ s : State, s.host.program[s.host.pc]? = none → step s = .next s

/-- R38: no block command reads or writes the host's index, nor anything else on the host's side. -/
def Obligations.CommandsIgnoreHostSide : Prop :=
  ∀ (i : Instr) (s : State) (h : HostSide), ∃ t, exec i s = .next t ∧ t.host = s.host ∧
    exec i { s with host := h } = .next { t with host := h }

/-- Several instances share no state: a step of one leaves every other as it was (R162), and instances that serve different ports go
on doing so (R8). That they are a list of states, of which the caller says which one steps, and that each holds its own port path, is
the model's choice: log entries 4 and 16. -/
def Obligations.InstancesShareNoState : Prop :=
  ∀ (ss ts : List State) (i : Nat), stepInstance step i ss = .next ts →
    ts.length = ss.length ∧ (∀ j, j ≠ i → ts[j]? = ss[j]?) ∧
      (∀ s, ss[i]? = some s → ∃ t, ts[i]? = some t ∧ step s = .next t ∧ t.env.portPath = s.env.portPath) ∧
      (DistinctPorts ss → DistinctPorts ts)

/-! ### Encoding -/

/-- The words of 30_encoding.md section 4 and of 95_test_vectors.md section 2.1, one for each family and each reason to be
illegal. -/
def Obligations.DecodesExampleWords : Prop :=
  decode 0x01000000 = .ok .uartOpen ∧ decode 0x02000000 = .ok .uartClose ∧ decode 0x10000000 = .ok .owReset ∧
    decode 0x11000001 = .ok (.owBit true) ∧ decode 0x120000A5 = .ok (.owByte 0xA5) ∧
    decode 0x1300CC44 = .ok (.owCommand 0xCC 0x44) ∧ decode 0x20000000 = .ok .owReadrom ∧
    decode 0x21000001 = .ok (.owTriplet true) ∧ decode 0x22000001 = .ok (.owSearch .alarm) ∧
    decode 0x23000000 = .ok .owSearchrst ∧ decode 0x00000000 = .error .unknownOpcode ∧
    decode 0x11FF0001 = .error .reservedField ∧ decode 0x12000100 = .error .operandField

/-- Decoding an encoded command gives it back, at every value of every operand. -/
def Obligations.DecodeEncodeRoundTrip : Prop := ∀ i : Instr, decode (encode i) = .ok i

/-- Each legal word is the encoding of the command it decodes to: no bit of a legal word is dropped. -/
def Obligations.EncodeDecodeRoundTrip : Prop := ∀ (w : Word) (i : Instr), decode w = .ok i → encode i = w

/-- R61: a word is legal exactly when clauses (a), (b) and (c) hold, exactly when one row of the match and mask table selects it,
and exactly then it decodes; the rows do not overlap. -/
def Obligations.LegalWordsDecode : Prop :=
  (∀ w : Word, w.legal = true ↔
    ∃ op : Opcode, w.extractLsb' 24 8 = op.byte ∧ w.extractLsb' 16 8 = 0x00 ∧
      (op.form ≠ .twoBytes → w.extractLsb' 8 8 = 0x00) ∧ (op.form = .none → w.extractLsb' 0 8 = 0x00) ∧
      (op.form = .bit ∨ op.form = .mode → w.extractLsb' 1 7 = 0)) ∧
    (∀ w : Word, w.legal = true ↔ ∃ i, decode w = .ok i) ∧
    ∀ (w : Word) (r q : OpcodeRow), r ∈ opcodeRows → q ∈ opcodeRows → r.selects w = true → q.selects w = true → r = q

/-- A written command stands for a command exactly when its operands are in range, and the written form of a command gives it back
(30_encoding.md R64). -/
def Obligations.WrittenCommandsInRange : Prop :=
  (∀ r : RawCommand, r.wellFormed = true ↔ ∃ i, r.toInstr = some i) ∧
    (∀ i : Instr, i.raw.toInstr = some i) ∧ ∀ (r : RawCommand) (i : Instr), r.toInstr = some i → i.raw = r

/-! ### The UART channel -/

/-- R83: UART.OPEN, for an open link and for each answer of the open oracle. -/
def Obligations.UartOpenEffect : Prop :=
  decode 0x01000000 = .ok .uartOpen ∧ ∀ s : State,
    (s.linkOpen = true → exec .uartOpen s = .next { s with status := .ok, baudSel := .normal }) ∧
    (s.linkOpen = false → (drawOpen s).1 = .unavailable →
      exec .uartOpen s = .next { s with
        status := .portUnavailable
        baudSel := .normal
        trace := s.trace ++ [.opened .unavailable]
        env := (drawOpen s).2 }) ∧
    (s.linkOpen = false → (drawOpen s).1 = .openFailed →
      exec .uartOpen s = .next { s with
        status := .portOpenFailed
        baudSel := .normal
        trace := s.trace ++ [.opened .openFailed]
        env := (drawOpen s).2 }) ∧
    (s.linkOpen = false → (drawOpen s).1 = .ok →
      exec .uartOpen s = .next { s with
        status := .ok
        linkOpen := true
        busReady := false
        baudSel := .normal
        lastDev := false
        lastDisc := 0x00
        rstcls := .unclassified
        srom := Vector.replicate 8 0x00
        trace := s.trace ++ [.opened .ok]
        env := (drawOpen s).2 })

/-- R85: UART.CLOSE cannot fail; closing a closed link records no event. -/
def Obligations.UartCloseEffect : Prop :=
  decode 0x02000000 = .ok .uartClose ∧ ∀ s : State,
    exec .uartClose s = .next { s with
      status := .ok
      linkOpen := false
      busReady := false
      baudSel := .normal
      trace := if s.linkOpen = true then s.trace ++ [.closed] else s.trace }

/-- Every command but UART.OPEN and UART.CLOSE on a closed link aborts with PortClosed before any other check and before any frame, and
changes nothing but STATUS (R86). That BAUD_SEL is written 0 here too, as at every abort (R152), is the model's reading: log entry
10. -/
def Obligations.ClosedLinkEndsLineCommands : Prop :=
  ∀ (i : Instr) (s : State), i ≠ .uartOpen → i ≠ .uartClose → s.linkOpen = false →
    exec i s = .next { s with status := .portClosed, baudSel := .normal }

/-- R78: the frame primitive: the rate is switched before the byte is sent, the event is recorded, and the answer decides how it
ends. -/
def Obligations.FramePrimitive : Prop :=
  ∀ (sel : BaudSel) (t : Byte) (s : State),
    let baud := match sel with | .normal => 115200 | .reset => 9600
    let s1 : State := { s with baudSel := sel }
    let o := (drawEcho s1 baud t).1
    let u : State := { s1 with trace := s.trace ++ [.frame baud t o], env := (drawEcho s1 baud t).2 }
    (o = .writeFail → frame sel t s = .stop .writeError u) ∧ (o = .readFail → frame sel t s = .stop .readError u) ∧
      (o = .timeout → frame sel t s = .ok none u) ∧ ∀ r, o = .echo r → frame sel t s = .ok (some r) u

/-- An echo satisfies `r & ~t = 0` when P_WIRED_AND is true (R77); when it is false, a scripted answer is the answer, whatever it is.
That the scripted answers come first, and that P_WIRED_AND is a field of the environment that cuts an echo down, is the model's choice:
log entries 1 and 3. -/
def Obligations.WiredAndConstraint : Prop :=
  (∀ (s : State) (baud : Nat) (t r : Byte), s.env.wiredAnd = true → (drawEcho s baud t).1 = .echo r → r &&& ~~~t = 0x00) ∧
    ∀ (s : State) (baud : Nat) (t : Byte) (o : LineOutcome) (os : List LineOutcome),
      s.env.wiredAnd = false → s.env.echoes = o :: os → (drawEcho s baud t).1 = o

/-! ### The 1-Wire bus -/

/-- R90: the reset classification, a pure function of the echo. -/
def Obligations.ResetClassification : Prop :=
  ∀ r : Byte,
    (r = 0xF0 → classify r = .noDevicesPresent) ∧ (r = 0x00 → classify r = .shortCircuit) ∧
      (r = 0xE0 → classify r = .singleDevicePresent) ∧
      (r ≠ 0xF0 → r ≠ 0x00 → r ≠ 0xE0 → classify r = .multipleDevicesPresent)

/-- R92: OW.RESET: PortClosed on a closed link; on an open one the raw echo to RESULT on a presence; a failed reset ends it with
RESULT unchanged. -/
def Obligations.OwResetEffect : Prop :=
  decode 0x10000000 = .ok .owReset ∧ NeedsLink .owReset ∧ FailsFast .owReset id ∧
    ∀ (s : State) (r : Byte), s.linkOpen = true → s.answersTo [resetAsk] = [.echo r] → presence r →
      exec .owReset s = .next { s.afterFrames [resetAsk] with
        status := .ok
        result := r
        rstcls := presenceClass r
        busReady := true }

/-- R94: OW.BIT: PortClosed on a closed link, BusNotReady without a presence; else one slot, whose bit goes to RESULT; a failed
frame ends it. -/
def Obligations.OwBitEffect : Prop :=
  (∀ v : Bool, decode (if v then 0x11000001 else 0x11000000) = .ok (.owBit v)) ∧
    (∀ v : Bool, NeedsLink (.owBit v) ∧ NeedsBus (.owBit v)) ∧
    ∀ (v : Bool) (s : State) (o : LineOutcome), s.linkOpen = true → s.busReady = true → s.answersTo [slotAsk v] = [o] →
      (o.failure = none →
        exec (.owBit v) s = .next { s.afterFrames [slotAsk v] with
          status := .ok
          result := if o = .echo 0xFF then 0x01 else 0x00 }) ∧
      ∀ c, o.failure = some c →
        exec (.owBit v) s = .next { s.afterFrames [slotAsk v] with status := c, busReady := false }

/-- R96: OW.BYTE: PortClosed on a closed link, BusNotReady without a presence; else eight slots, bit 0 first, the touched byte to
RESULT; the first failed frame ends it with the frames so far sent and RESULT unchanged (R100). -/
def Obligations.OwByteEffect : Prop :=
  (∀ d : Byte, decode (0x12000000 ||| d.setWidth 32) = .ok (.owByte d) ∧ NeedsLink (.owByte d) ∧ NeedsBus (.owByte d)) ∧
    ∀ (d : Byte) (s : State), s.linkOpen = true → s.busReady = true →
      (NoFailure (s.answersTo (byteAsks d)) →
        ∃ r, Touched r (s.answersTo (byteAsks d)) 0 ∧
          exec (.owByte d) s = .next { s.afterFrames (byteAsks d) with status := .ok, result := r }) ∧
      ∀ k c, FirstFailure (s.answersTo (byteAsks d)) k c →
        exec (.owByte d) s = .next { s.afterFrames ((byteAsks d).take (k + 1)) with status := c, busReady := false }

/-- The checks before any frame: with the link open and BUS_READY = 0, OW.BIT, OW.BYTE and OW.TRIPLET abort with BusNotReady and
transmit nothing (R24). -/
def Obligations.BusNotReadyEndsBitOperations : Prop :=
  ∀ (i : Instr) (s : State), ((∃ v, i = .owBit v) ∨ (∃ d, i = .owByte d) ∨ ∃ v, i = .owTriplet v) →
    s.linkOpen = true → s.busReady = false →
    exec i s = .next { s with status := .busNotReady, baudSel := .normal }

/-- R97: OW.COMMAND: PortClosed on a closed link; on an open one the reset frame, the slots of `target`, the slots of `cmd`; the
byte touched while sending `cmd` goes to RESULT; a failed reset sends no slot, and a failed slot ends it. -/
def Obligations.OwCommandEffect : Prop :=
  (∀ target cmd : Byte,
      decode (0x13000000 ||| (target.setWidth 32 <<< 8) ||| cmd.setWidth 32) = .ok (.owCommand target cmd)) ∧
    (∀ target cmd : Byte, NeedsLink (.owCommand target cmd) ∧ FailsFast (.owCommand target cmd) id) ∧
    ∀ (target cmd : Byte) (s : State) (r0 : Byte), s.linkOpen = true →
      (s.answersTo (resetAsk :: (byteAsks target ++ byteAsks cmd)))[0]? = some (.echo r0) → presence r0 →
      (NoFailure (s.answersTo (resetAsk :: (byteAsks target ++ byteAsks cmd))) →
        ∃ r, Touched r (s.answersTo (resetAsk :: (byteAsks target ++ byteAsks cmd))) 9 ∧
          exec (.owCommand target cmd) s =
            .next { s.afterFrames (resetAsk :: (byteAsks target ++ byteAsks cmd)) with
              status := .ok
              result := r
              rstcls := presenceClass r0
              busReady := true }) ∧
      ∀ k c, FirstFailure (s.answersTo (resetAsk :: (byteAsks target ++ byteAsks cmd))) k c →
        exec (.owCommand target cmd) s =
          .next { s.afterFrames ((resetAsk :: (byteAsks target ++ byteAsks cmd)).take (k + 1)) with
            status := c
            rstcls := presenceClass r0
            busReady := false }

/-- The loopback law of 41_onewire_bus.md section 5: when every frame echoes its own byte, OW.BYTE leaves its operand in RESULT. -/
def Obligations.LoopbackReturnsOperand : Prop :=
  ∀ (d : Byte) (s : State), s.linkOpen = true → s.busReady = true →
    s.answersTo (byteAsks d) = (byteAsks d).map (fun f => .echo f.2) →
    exec (.owByte d) s = .next { s.afterFrames (byteAsks d) with status := .ok, result := d }

/-- The write-zero law of 41_onewire_bus.md section 5: with P_WIRED_AND true, a touch never returns a 1 where it wrote a 0. -/
def Obligations.WiredAndNeverRaisesZero : Prop :=
  ∀ (d : Byte) (s t : State), s.env.wiredAnd = true → exec (.owByte d) s = .next t → t.status = .ok → t.result &&& ~~~d = 0x00

/-! ### ROM commands and the search state machine -/

/-- R107: OW.READROM: PortClosed on a closed link; on an open one the reset frame, 0x33, eight read bytes, stored in reverse order
of reception (R106); a failed reset or a failed frame leaves all of ROM as it was. -/
def Obligations.OwReadromEffect : Prop :=
  decode 0x20000000 = .ok .owReadrom ∧ NeedsLink .owReadrom ∧ FailsFast .owReadrom id ∧
    ∀ (s : State) (r0 : Byte), s.linkOpen = true → (s.answersTo readRomAsks)[0]? = some (.echo r0) → presence r0 →
      (NoFailure (s.answersTo readRomAsks) →
        ∃ rom : Bytes8, (∀ j, j < 8 → Touched (byteAt rom (7 - j)) (s.answersTo readRomAsks) (9 + 8 * j)) ∧
          exec .owReadrom s = .next { s.afterFrames readRomAsks with
            status := .ok
            rom := rom
            rstcls := presenceClass r0
            busReady := true }) ∧
      ∀ k c, FirstFailure (s.answersTo readRomAsks) k c →
        exec .owReadrom s = .next { s.afterFrames (readRomAsks.take (k + 1)) with
          status := c
          rstcls := presenceClass r0
          busReady := false }

/-- R110: OW.SEARCHRST: PortClosed on a closed link; on an open one it puts the search state machine in state FIRST and sends no
frame. -/
def Obligations.OwSearchrstEffect : Prop :=
  decode 0x23000000 = .ok .owSearchrst ∧ NeedsLink .owSearchrst ∧ ∀ s : State, s.linkOpen = true →
    exec .owSearchrst s = .next { s with
      status := .ok
      baudSel := .normal
      lastDisc := 0x00
      lastDev := false
      srom := Vector.replicate 8 0x00 }

/-- R111: OW.TRIPLET: PortClosed on a closed link, BusNotReady without a presence; else two read slots, then the direction slot;
RESULT is dir, cmp, id; a failed frame ends it with the frames so far sent. -/
def Obligations.OwTripletEffect : Prop :=
  (∀ v : Bool, decode (if v then 0x21000001 else 0x21000000) = .ok (.owTriplet v)) ∧
    (∀ v : Bool, NeedsLink (.owTriplet v) ∧ NeedsBus (.owTriplet v)) ∧
    ∀ (v : Bool) (s : State), s.linkOpen = true → s.busReady = true →
      let reads := s.answersTo [slotAsk true, slotAsk true]
      let id := bitOf reads 0
      let cmp := bitOf reads 1
      let dir := if id ≠ cmp then id else v
      (NoFailure (s.answersTo (positionAsks dir)) →
        exec (.owTriplet v) s = .next { s.afterFrames (positionAsks dir) with
          status := .ok
          result := BitVec.ofNat 8 (4 * dir.toNat + 2 * cmp.toNat + id.toNat) }) ∧
      ∀ k c, FirstFailure (s.answersTo (positionAsks dir)) k c →
        exec (.owTriplet v) s = .next { s.afterFrames ((positionAsks dir).take (k + 1)) with
          status := c
          busReady := false }

/-- OW.SEARCH in state DONE reports SearchExhausted, sends no frame and goes to state FIRST (R108). -/
def Obligations.SearchExhaustedGoesToFirst : Prop :=
  ∀ (m : SearchMode) (s : State), s.linkOpen = true → s.lastDev = true →
    exec (.owSearch m) s = .next { s with
      status := .searchExhausted
      baudSel := .normal
      lastDisc := 0x00
      lastDev := false }

/-- R109, R114, R118: a search pass that no frame fails and at every position of which a device answers. Its path holds the
directions it took; LAST_DISC is the last discrepancy at which it took 0, LAST_DEV is 1 when there is none, and ROM is the path in
reverse byte order; a path with family byte 0x00 is SearchZeroFamily instead, with state FIRST and ROM unchanged. `dirs` is
determined by the bits read. -/
def Obligations.SearchPassEffect : Prop :=
  (∀ m : SearchMode, decode (match m with | .rom => 0x22000000 | .alarm => 0x22000001) = .ok (.owSearch m)) ∧
    ∀ (m : SearchMode) (s : State) (r0 : Byte) (dirs : List Bool),
      let fs := searchAsks m dirs
      let os := s.answersTo fs
      s.linkOpen = true → s.lastDev = false → dirs.length = 64 → os[0]? = some (.echo r0) → presence r0 → NoFailure os →
      TakesDirections s os dirs →
      ∃ (path rom : Bytes8) (last : Nat), PathAfter s.srom path dirs 64 ∧ LastZero os dirs last ∧
        (∀ i, i < 8 → byteAt rom i = byteAt path (7 - i)) ∧
        (byteAt path 0 ≠ 0x00 →
          exec (.owSearch m) s = .next { s.afterFrames fs with
            status := .ok
            rstcls := presenceClass r0
            busReady := true
            lastDisc := BitVec.ofNat 8 last
            lastDev := decide (last = 0)
            srom := path
            rom := rom }) ∧
        (byteAt path 0 = 0x00 →
          exec (.owSearch m) s = .next { s.afterFrames fs with
            status := .searchZeroFamily
            rstcls := presenceClass r0
            busReady := true
            lastDisc := 0x00
            lastDev := false
            srom := path })

/-- A position that reads id = cmp = 1 ends the pass with SearchNoResponse (R149 step 5): the positions before it are on the path,
two read slots were sent there and no direction slot, and the search state is FIRST. -/
def Obligations.SearchNoResponseEffect : Prop :=
  ∀ (m : SearchMode) (s : State) (r0 : Byte) (dirs : List Bool),
    let fs := searchAsks m dirs ++ [slotAsk true, slotAsk true]
    let os := s.answersTo fs
    s.linkOpen = true → s.lastDev = false → dirs.length < 64 → os[0]? = some (.echo r0) → presence r0 → NoFailure os →
    TakesDirections s os dirs → readId os (dirs.length + 1) = true → readCmp os (dirs.length + 1) = true →
    ∃ path : Bytes8, PathAfter s.srom path dirs dirs.length ∧
      exec (.owSearch m) s = .next { s.afterFrames fs with
        status := .searchNoResponse
        rstcls := presenceClass r0
        busReady := true
        lastDisc := 0x00
        lastDev := false
        srom := path }

/-- A failed frame inside a pass ends it (R115): the frames so far are sent, the positions whose direction slot was reached are on
the path, BUS_READY is 0, the search state is FIRST and ROM is unchanged. A failed reset frame ends it before any slot (R98). -/
def Obligations.SearchFrameFailureEffect : Prop :=
  (∀ m : SearchMode, ∀ (s : State) (o : LineOutcome) (c : StatusCode) (cls : Option RstCls),
      s.linkOpen = true → s.lastDev = false → s.answersTo [resetAsk] = [o] → resetFailure o = some (c, cls) →
      exec (.owSearch m) s = .next { s.afterFrames [resetAsk] with
        status := c
        busReady := false
        rstcls := cls.getD s.rstcls
        lastDisc := 0x00
        lastDev := false }) ∧
    ∀ (m : SearchMode) (s : State) (r0 : Byte) (dirs : List Bool) (k : Nat) (c : StatusCode),
      let fs := searchAsks m dirs
      let os := s.answersTo fs
      s.linkOpen = true → s.lastDev = false → dirs.length ≤ 64 → os[0]? = some (.echo r0) → presence r0 →
      FirstFailure os k c → (∀ n, 1 ≤ n → 9 + 3 * (n - 1) + 1 < k →
        ¬(readId os n = true ∧ readCmp os n = true) ∧
        dirAt dirs n = if readId os n ≠ readCmp os n then readId os n else directionRule s n) →
      ∃ path : Bytes8, PathAfter s.srom path dirs ((k - 8) / 3) ∧
        exec (.owSearch m) s = .next { s.afterFrames (fs.take (k + 1)) with
          status := c
          rstcls := presenceClass r0
          busReady := false
          lastDisc := 0x00
          lastDev := false
          srom := path }

/-- The enumeration law of 42_rom_commands.md section 3: with a population of devices that does not change on the line, successive
passes of OW.SEARCH from state FIRST return each participating device's ROM code exactly once, in ascending line order, the last
with LAST_DEV = 1, and the next pass reports SearchExhausted. The devices answer as the device double does (log entry 18). -/
def Obligations.SearchEnumeratesDevices : Prop :=
  ∀ (m : SearchMode) (s : State) (p : Population) (found : List Bytes8),
    s.linkOpen = true → s.searchStateFirst → s.env.echoes = [] → s.env.oracle = .devices p →
    (∀ c, c ∈ found ↔ c ∈ p.codes ∧ (m = .alarm → c ∈ p.alarmed)) → found ≠ [] → found.Pairwise LineOrder →
    (∀ c ∈ found, byteAt c 0 ≠ 0x00) →
    ∃ run : Nat → State, run 0 = s ∧
      (∀ k c, found[k]? = some c → exec (.owSearch m) (run k) = .next (run (k + 1)) ∧
        (run (k + 1)).status = .ok ∧ (∀ i, i < 8 → byteAt (run (k + 1)).rom i = byteAt c (7 - i)) ∧
        ((run (k + 1)).lastDev = true ↔ k + 1 = found.length)) ∧
      exec (.owSearch m) (run found.length) = .next (run (found.length + 1)) ∧
      (run (found.length + 1)).status = .searchExhausted

/-! ### Status, failures and whole-machine rules -/

/-- R153, with what `complete` and `abort` write and nothing else (60_exceptions.md section 2): an abort clears BUS_READY for a
cause on the line (codes 0x01..0x05) and leaves it unchanged for every other cause. -/
def Obligations.EndingACommand : Prop :=
  ∀ (c : StatusCode) (s : State), complete c s = { s with status := c, baudSel := .normal } ∧
    abort c s = { s with
      status := c
      baudSel := .normal
      busReady :=
        if c.code = 0x01 ∨ c.code = 0x02 ∨ c.code = 0x03 ∨ c.code = 0x04 ∨ c.code = 0x05 then false else s.busReady }

/-- Which command can end with which status (60_exceptions.md section 1, the second table). -/
def Obligations.StatusesOfEachCommand : Prop :=
  ∀ (i : Instr) (s t : State), exec i s = .next t →
    match i with
    | .uartOpen => t.status.code ∈ [0x00, 0x06, 0x07]
    | .uartClose => t.status.code = 0x00
    | .owReset => t.status.code ∈ [0x00, 0x08, 0x01, 0x02, 0x03, 0x04, 0x05]
    | .owBit _ => t.status.code ∈ [0x00, 0x08, 0x09, 0x04, 0x05]
    | .owByte _ => t.status.code ∈ [0x00, 0x08, 0x09, 0x04, 0x05]
    | .owCommand _ _ => t.status.code ∈ [0x00, 0x08, 0x01, 0x02, 0x03, 0x04, 0x05]
    | .owReadrom => t.status.code ∈ [0x00, 0x08, 0x01, 0x02, 0x03, 0x04, 0x05]
    | .owTriplet _ => t.status.code ∈ [0x00, 0x08, 0x09, 0x04, 0x05]
    | .owSearch _ => t.status.code ∈ [0x00, 0x08, 0x0B, 0x01, 0x02, 0x03, 0x04, 0x05, 0x0C, 0x0D]
    | .owSearchrst => t.status.code ∈ [0x00, 0x08]

/-- A command that aborts leaves RESULT and ROM unchanged (R20, R28, R152), and a failure on the line leaves BUS_READY = 0, any
other failure before a frame leaves it as it was (R153). -/
def Obligations.AbortKeepsResults : Prop :=
  ∀ (i : Instr) (s t : State), exec i s = .next t → t.status ≠ .ok →
    t.result = s.result ∧ t.rom = s.rom ∧
      (t.status.code ∈ [0x01, 0x02, 0x03, 0x04, 0x05] → t.busReady = false) ∧
      (t.status.code ∈ [0x06, 0x07, 0x08, 0x09, 0x0A, 0x0B] → t.busReady = s.busReady)

/-- Which commands write which register (10_state.md section 4): every other command leaves it as it was. That no command changes the
parameters P_WIRED_AND and P_PORT_PATH (00_scope.md section 3) rests on the model's choice to hold them in the environment: log entries
3 and 4. -/
def Obligations.RegisterWriters : Prop :=
  ∀ (i : Instr) (s t : State), exec i s = .next t →
    (t.linkOpen ≠ s.linkOpen →
      (i = .uartOpen ∧ (drawOpen s).1 = .ok ∧ t.linkOpen = true) ∨ (i = .uartClose ∧ t.linkOpen = false)) ∧
    (t.result ≠ s.result → t.status = .ok ∧
      (i = .owReset ∨ (∃ v, i = .owBit v) ∨ (∃ d, i = .owByte d) ∨ (∃ a b, i = .owCommand a b) ∨ ∃ v, i = .owTriplet v)) ∧
    (t.rstcls ≠ s.rstcls →
      i = .uartOpen ∨ i = .owReset ∨ (∃ a b, i = .owCommand a b) ∨ i = .owReadrom ∨ ∃ m, i = .owSearch m) ∧
    (t.rom ≠ s.rom → t.status = .ok ∧ (i = .owReadrom ∨ ∃ m, i = .owSearch m)) ∧
    (t.lastDev ≠ s.lastDev ∨ t.lastDisc ≠ s.lastDisc ∨ t.srom ≠ s.srom →
      (i = .uartOpen ∧ (drawOpen s).1 = .ok ∧ s.linkOpen = false) ∨ i = .owSearchrst ∨ ∃ m, i = .owSearch m) ∧
    (t.busReady = true → s.busReady = true ∨ (t.rstcls.code = 0x02 ∨ t.rstcls.code = 0x03) ∧
      (i = .owReset ∨ (∃ a b, i = .owCommand a b) ∨ i = .owReadrom ∨ ∃ m, i = .owSearch m)) ∧
    t.env.wiredAnd = s.env.wiredAnd ∧ t.env.portPath = s.env.portPath

/-- A failed pass of OW.SEARCH leaves the search state FIRST (R115); a command that ends before its first frame leaves TRACE as it
was (R51). -/
def Obligations.FailedSearchAndNoFrame : Prop :=
  ∀ (i : Instr) (s t : State), exec i s = .next t →
    ((∃ m, i = .owSearch m) → t.status ≠ .ok → t.status ≠ .portClosed → t.searchStateFirst) ∧
    (t.status.code ∈ [0x08, 0x09, 0x0B] → t.trace = s.trace)

/-- A command only adds to TRACE; a frame at 9600 baud is the reset frame, the first event the command adds, and every later frame
is a slot at 115200 (41_onewire_bus.md section 5, the baud switch points). -/
def Obligations.ResetFrameComesFirst : Prop :=
  ∀ (i : Instr) (s t : State), exec i s = .next t →
    ∃ es, t.trace = s.trace ++ es ∧ (∀ e ∈ es, e.framed) ∧ framesAt 9600 es.tail = 0

/-- The frame counts of a successful command (41_onewire_bus.md section 5, 42_rom_commands.md section 3). -/
def Obligations.FrameCountsOfSuccess : Prop :=
  ∀ (i : Instr) (s t : State), exec i s = .next t → t.status = .ok →
    ∃ es, t.trace = s.trace ++ es ∧
      (framesAt 9600 es, framesAt 115200 es) =
        match i with
        | .uartOpen => (0, 0)
        | .uartClose => (0, 0)
        | .owReset => (1, 0)
        | .owBit _ => (0, 1)
        | .owByte _ => (0, 8)
        | .owCommand _ _ => (1, 16)
        | .owReadrom => (1, 72)
        | .owTriplet _ => (0, 3)
        | .owSearch _ => (1, 200)
        | .owSearchrst => (0, 0)

/-- The invariants of 10_state.md section 5 are kept by every step, from every state that meets them. -/
def Obligations.StepKeepsInvariants : Prop := ∀ s t : State, s.Inv → step s = .next t → t.Inv

/-- The framing of TRACE is kept by every step, from every state that meets it. -/
def Obligations.StepKeepsFraming : Prop := ∀ s t : State, s.Framed → step s = .next t → t.Framed

/-! ### Host programs -/

/-- R127: `resolution_bits` is `9 + bit 5 + 2 * bit 6`; it lies in 9..12. -/
def Obligations.ResolutionOfConfiguration : Prop :=
  ∀ c : Byte, resolutionBits c = 9 + (c.getLsbD 5).toNat + 2 * (c.getLsbD 6).toNat ∧ 9 ≤ resolutionBits c ∧
    resolutionBits c ≤ 12

/-- The resolution round trip of 45_host_transactions.md section 4: the byte H.SETRES writes has the resolution asked for, the other
bits as read, and writing the same resolution again gives the same byte. -/
def Obligations.ResolutionRoundTrip : Prop :=
  ∀ (c : Byte) (bits : Nat), 9 ≤ bits → bits ≤ 12 →
    resolutionBits (resolutionConfig c bits) = bits ∧
      resolutionConfig (resolutionConfig c bits) bits = resolutionConfig c bits ∧
      ∀ i, i ≠ 5 → i ≠ 6 → (resolutionConfig c bits).getLsbD i = c.getLsbD i

/-- R128: the temperature is `sext_16(raw) / 16`, exactly, with `raw = (msb << 8) | lsb`. -/
def Obligations.TemperatureIsSignedSixteenths : Prop :=
  ∀ lsb msb : Byte,
    temperature lsb msb =
      (((256 * msb.toNat + lsb.toNat : Nat) : Rat) - if 128 ≤ msb.toNat then 65536 else 0) / 16

/-- R140: H.SETRES with `bits` outside 9..12 fails with InvalidResolution, issues no command and sends no frame: the state is as it
was. -/
def Obligations.InvalidResolutionTouchesNothing : Prop :=
  ∀ (bits : Int) (s : State), bits < 9 ∨ 12 < bits →
    hSetResolution bits s = .failed .invalidResolution s ∧ HostFailure.invalidResolution.code = 0x80

/-- R131: when OW.COMMAND succeeds and every poll reads 0x00 without a frame failing, H.CONVERT stops with ConversionTimeout after
exactly P_CONV_MAX_POLLS polls of eight frames each; the parameter's default is 8. -/
def Obligations.ConversionPollsAreBounded : Prop :=
  Config.convMaxPollsDefault = 8 ∧
  ∀ (maxPolls : Nat) (s : State) (r0 : Byte),
    let fs : List FrameAsk :=
      resetAsk :: (byteAsks 0xCC ++ byteAsks 0x44) ++ (List.replicate maxPolls (byteAsks 0xFF)).flatten
    let os := s.answersTo fs
    1 ≤ maxPolls → s.linkOpen = true → os[0]? = some (.echo r0) → presence r0 → NoFailure os →
    (∀ j, 17 ≤ j → bitOf os j = false) →
    ∃ t, hConvert maxPolls none s = .failed .conversionTimeout t ∧ HostFailure.conversionTimeout.code = 0x81 ∧
      t.trace = s.trace ++ frameEvents fs os ∧ t.status = .ok ∧ t.result = 0x00

/-- H.CONVERT is done at the first poll that does not read 0x00 (R130), whichever of the P_CONV_MAX_POLLS polls it is: no frame is sent
after it, and RESULT holds what it read. -/
def Obligations.ConversionEndsAtFirstNonzeroPoll : Prop :=
  ∀ (maxPolls j : Nat) (s : State) (r0 : Byte),
    let fs : List FrameAsk := resetAsk :: (byteAsks 0xCC ++ byteAsks 0x44) ++ (List.replicate j (byteAsks 0xFF)).flatten
    let os := s.answersTo fs
    1 ≤ j → j ≤ maxPolls → s.linkOpen = true → os[0]? = some (.echo r0) → presence r0 → NoFailure os →
    FirstNonzeroPoll os j →
    ∃ t, hConvert maxPolls none s = .done () t ∧ t.trace = s.trace ++ frameEvents fs os ∧ t.status = .ok ∧
      Touched t.result os (17 + 8 * (j - 1))

/-- An external signal stops H.CONVERT only between two polls (R144): when it comes in the wait after poll `j` and every poll so far has
read 0x00, exactly `j` polls have been made, at least one, the last with status OK. Which wait it comes in is an argument of the program,
and the end is an outcome of its own with no code that leaves the link open: the model's choice, log entry 14. -/
def Obligations.ConversionStopsBetweenPolls : Prop :=
  ∀ (maxPolls j : Nat) (s : State) (r0 : Byte),
    let fs : List FrameAsk := resetAsk :: (byteAsks 0xCC ++ byteAsks 0x44) ++ (List.replicate j (byteAsks 0xFF)).flatten
    let os := s.answersTo fs
    1 ≤ j → j < maxPolls → s.linkOpen = true → os[0]? = some (.echo r0) → presence r0 → NoFailure os →
    (∀ k, 17 ≤ k → bitOf os k = false) →
    ∃ t, hConvert maxPolls (some (j - 1)) s = .cancelled t ∧ t.trace = s.trace ++ frameEvents fs os ∧ t.status = .ok ∧
      t.result = 0x00

/-- R138, R129: H.POWER, when no frame fails: ExternallyPowered exactly for a read byte of 0xFF. -/
def Obligations.PowerModeProgram : Prop :=
  ∀ (s : State) (r0 : Byte),
    let fs : List FrameAsk := resetAsk :: (byteAsks 0xCC ++ byteAsks 0xB4) ++ byteAsks 0xFF
    let os := s.answersTo fs
    s.linkOpen = true → os[0]? = some (.echo r0) → presence r0 → NoFailure os →
    ∃ (r : Byte) (t : State), Touched r os 17 ∧ t.trace = s.trace ++ frameEvents fs os ∧
      hPower s = .done (if r = 0xFF then .externallyPowered else .parasiticPowered) t

/-- `Do(c)` of 45_host_transactions.md section 1: a status other than OK stops the program with that status, OK returns RESULT; the
host's index advances either way (R38). -/
def Obligations.HostCommandReturnsResult : Prop :=
  ∀ (i : Instr) (s t : State), exec i s = .next t →
    (t.status = .ok →
      doCommand i s = .done t.result { t with host := { t.host with pc := t.host.pc + 1 } }) ∧
    (t.status ≠ .ok →
      doCommand i s = .failed (.status t.status) { t with host := { t.host with pc := t.host.pc + 1 } } ∧
        (HostFailure.status t.status).code = t.status.code)

/-- H.READSP when no frame fails: the commands of R132, exactly nine bytes (R133) in the order of R126, the resolution of the
configuration byte (R127), 89 frames. -/
def Obligations.ReadScratchpadProgram : Prop :=
  ∀ (s : State) (r0 : Byte),
    let fs : List FrameAsk := resetAsk :: (byteAsks 0xCC ++ byteAsks 0xBE) ++ (List.replicate 9 (byteAsks 0xFF)).flatten
    let os := s.answersTo fs
    s.linkOpen = true → os[0]? = some (.echo r0) → presence r0 → NoFailure os →
    ∃ (sp : Scratchpad) (t : State), hReadScratchpad s = .done sp t ∧ t.trace = s.trace ++ frameEvents fs os ∧
      Touched sp.temperatureLsb os 17 ∧ Touched sp.temperatureMsb os 25 ∧ Touched sp.thRegister os 33 ∧
      Touched sp.tlRegister os 41 ∧ Touched sp.configuration os 49 ∧ Touched sp.reservedFf os 57 ∧
      Touched sp.reservedXx os 65 ∧ Touched sp.reserved10 os 73 ∧ Touched sp.crc os 81 ∧
      sp.resolution = 9 + (sp.configuration.getLsbD 5).toNat + 2 * (sp.configuration.getLsbD 6).toNat

/-- H.WRITESP when no frame fails: Th, Tl and the configuration byte, in that order, after the reset frame and the two command
bytes. -/
def Obligations.WriteScratchpadProgram : Prop :=
  ∀ (th tl config : Byte) (s : State) (r0 : Byte),
    let fs : List FrameAsk :=
      resetAsk :: (byteAsks 0xCC ++ byteAsks 0x4E) ++ (byteAsks th ++ byteAsks tl ++ byteAsks config)
    let os := s.answersTo fs
    s.linkOpen = true → os[0]? = some (.echo r0) → presence r0 → NoFailure os →
    ∃ t : State, hWriteScratchpad th tl config s = .done () t ∧ t.trace = s.trace ++ frameEvents fs os

/-- H.SETRES for 9..12 bits when no frame fails: the scratchpad is read, and Th, Tl and the configuration byte are written back,
bits 6 and 5 of it replaced by the resolution's code. -/
def Obligations.SetResolutionProgram : Prop :=
  ∀ (bits : Nat) (th tl c : Byte) (s : State) (r0 r1 : Byte),
    let fs : List FrameAsk :=
      (resetAsk :: (byteAsks 0xCC ++ byteAsks 0xBE) ++ (List.replicate 9 (byteAsks 0xFF)).flatten) ++
        (resetAsk :: (byteAsks 0xCC ++ byteAsks 0x4E) ++
          (byteAsks th ++ byteAsks tl ++ byteAsks ((c &&& 0x9F) ||| (BitVec.ofNat 8 (bits - 9) <<< 5))))
    let os := s.answersTo fs
    9 ≤ bits → bits ≤ 12 → s.linkOpen = true → os[0]? = some (.echo r0) → presence r0 → os[89]? = some (.echo r1) → presence r1 →
    NoFailure os → Touched th os 33 → Touched tl os 41 → Touched c os 49 →
    ∃ t : State, hSetResolution bits s = .done () t ∧ t.trace = s.trace ++ frameEvents fs os

/-- H.READTEMP when no frame fails and poll `j` is the first that does not read 0x00, whichever of the P_CONV_MAX_POLLS polls it is: two
of the nine scratchpad bytes are read, no closing reset is sent, and the result is the temperature of the two. -/
def Obligations.ReadTemperatureProgram : Prop :=
  ∀ (maxPolls j : Nat) (s : State) (r0 r1 lsb msb : Byte),
    let fs : List FrameAsk :=
      (resetAsk :: (byteAsks 0xCC ++ byteAsks 0x44) ++ (List.replicate j (byteAsks 0xFF)).flatten) ++
        (resetAsk :: (byteAsks 0xCC ++ byteAsks 0xBE) ++ (byteAsks 0xFF ++ byteAsks 0xFF))
    let os := s.answersTo fs
    1 ≤ j → j ≤ maxPolls → s.linkOpen = true → os[0]? = some (.echo r0) → presence r0 →
    os[17 + 8 * j]? = some (.echo r1) → presence r1 → NoFailure os → FirstNonzeroPoll os j →
    Touched lsb os (34 + 8 * j) → Touched msb os (42 + 8 * j) →
    ∃ t : State, hReadTemperature maxPolls none s = .done (temperature lsb msb) t ∧ t.trace = s.trace ++ frameEvents fs os

/-- H.READROM when no frame fails: the eight bytes of OW.READROM, read through the register read port, as a ROM code: the family
code is the byte received first, the CRC the one received last. -/
def Obligations.ReadRomProgram : Prop :=
  ∀ (s : State) (r0 : Byte),
    let os := s.answersTo readRomAsks
    s.linkOpen = true → os[0]? = some (.echo r0) → presence r0 → NoFailure os →
    ∃ (code : RomCode) (t : State), hReadRom s = .done code t ∧ t.trace = s.trace ++ frameEvents readRomAsks os ∧
      Touched code.familyCode os 9 ∧ code.serial.length = 6 ∧
      (∀ j, j < 6 → Touched (code.serial.getD j 0x00) os (57 - 8 * j)) ∧ Touched code.crc os 65
end

