-- ==== Sys2Proof/Laws/State.lean ====
section
/-! SUPPORT. One lemma for each field of State and each update of Machine/Ops.lean, so that no later proof unfolds a record
update. -/

namespace Sys2Proof.Machine

section setStatus
variable (s : State) (x : StatusCode)
@[simp] theorem State.setStatus_status : (s.setStatus x).status = x := rfl
@[simp] theorem State.setStatus_result : (s.setStatus x).result = s.result := rfl
@[simp] theorem State.setStatus_rstcls : (s.setStatus x).rstcls = s.rstcls := rfl
@[simp] theorem State.setStatus_linkOpen : (s.setStatus x).linkOpen = s.linkOpen := rfl
@[simp] theorem State.setStatus_busReady : (s.setStatus x).busReady = s.busReady := rfl
@[simp] theorem State.setStatus_baudSel : (s.setStatus x).baudSel = s.baudSel := rfl
@[simp] theorem State.setStatus_lastDev : (s.setStatus x).lastDev = s.lastDev := rfl
@[simp] theorem State.setStatus_lastDisc : (s.setStatus x).lastDisc = s.lastDisc := rfl
@[simp] theorem State.setStatus_rom : (s.setStatus x).rom = s.rom := rfl
@[simp] theorem State.setStatus_srom : (s.setStatus x).srom = s.srom := rfl
@[simp] theorem State.setStatus_trace : (s.setStatus x).trace = s.trace := rfl
@[simp] theorem State.setStatus_env : (s.setStatus x).env = s.env := rfl
@[simp] theorem State.setStatus_host : (s.setStatus x).host = s.host := rfl
end setStatus

section setResult
variable (s : State) (x : Byte)
@[simp] theorem State.setResult_status : (s.setResult x).status = s.status := rfl
@[simp] theorem State.setResult_result : (s.setResult x).result = x := rfl
@[simp] theorem State.setResult_rstcls : (s.setResult x).rstcls = s.rstcls := rfl
@[simp] theorem State.setResult_linkOpen : (s.setResult x).linkOpen = s.linkOpen := rfl
@[simp] theorem State.setResult_busReady : (s.setResult x).busReady = s.busReady := rfl
@[simp] theorem State.setResult_baudSel : (s.setResult x).baudSel = s.baudSel := rfl
@[simp] theorem State.setResult_lastDev : (s.setResult x).lastDev = s.lastDev := rfl
@[simp] theorem State.setResult_lastDisc : (s.setResult x).lastDisc = s.lastDisc := rfl
@[simp] theorem State.setResult_rom : (s.setResult x).rom = s.rom := rfl
@[simp] theorem State.setResult_srom : (s.setResult x).srom = s.srom := rfl
@[simp] theorem State.setResult_trace : (s.setResult x).trace = s.trace := rfl
@[simp] theorem State.setResult_env : (s.setResult x).env = s.env := rfl
@[simp] theorem State.setResult_host : (s.setResult x).host = s.host := rfl
end setResult

section setRstcls
variable (s : State) (x : RstCls)
@[simp] theorem State.setRstcls_status : (s.setRstcls x).status = s.status := rfl
@[simp] theorem State.setRstcls_result : (s.setRstcls x).result = s.result := rfl
@[simp] theorem State.setRstcls_rstcls : (s.setRstcls x).rstcls = x := rfl
@[simp] theorem State.setRstcls_linkOpen : (s.setRstcls x).linkOpen = s.linkOpen := rfl
@[simp] theorem State.setRstcls_busReady : (s.setRstcls x).busReady = s.busReady := rfl
@[simp] theorem State.setRstcls_baudSel : (s.setRstcls x).baudSel = s.baudSel := rfl
@[simp] theorem State.setRstcls_lastDev : (s.setRstcls x).lastDev = s.lastDev := rfl
@[simp] theorem State.setRstcls_lastDisc : (s.setRstcls x).lastDisc = s.lastDisc := rfl
@[simp] theorem State.setRstcls_rom : (s.setRstcls x).rom = s.rom := rfl
@[simp] theorem State.setRstcls_srom : (s.setRstcls x).srom = s.srom := rfl
@[simp] theorem State.setRstcls_trace : (s.setRstcls x).trace = s.trace := rfl
@[simp] theorem State.setRstcls_env : (s.setRstcls x).env = s.env := rfl
@[simp] theorem State.setRstcls_host : (s.setRstcls x).host = s.host := rfl
end setRstcls

section setLinkOpen
variable (s : State) (x : Bool)
@[simp] theorem State.setLinkOpen_status : (s.setLinkOpen x).status = s.status := rfl
@[simp] theorem State.setLinkOpen_result : (s.setLinkOpen x).result = s.result := rfl
@[simp] theorem State.setLinkOpen_rstcls : (s.setLinkOpen x).rstcls = s.rstcls := rfl
@[simp] theorem State.setLinkOpen_linkOpen : (s.setLinkOpen x).linkOpen = x := rfl
@[simp] theorem State.setLinkOpen_busReady : (s.setLinkOpen x).busReady = s.busReady := rfl
@[simp] theorem State.setLinkOpen_baudSel : (s.setLinkOpen x).baudSel = s.baudSel := rfl
@[simp] theorem State.setLinkOpen_lastDev : (s.setLinkOpen x).lastDev = s.lastDev := rfl
@[simp] theorem State.setLinkOpen_lastDisc : (s.setLinkOpen x).lastDisc = s.lastDisc := rfl
@[simp] theorem State.setLinkOpen_rom : (s.setLinkOpen x).rom = s.rom := rfl
@[simp] theorem State.setLinkOpen_srom : (s.setLinkOpen x).srom = s.srom := rfl
@[simp] theorem State.setLinkOpen_trace : (s.setLinkOpen x).trace = s.trace := rfl
@[simp] theorem State.setLinkOpen_env : (s.setLinkOpen x).env = s.env := rfl
@[simp] theorem State.setLinkOpen_host : (s.setLinkOpen x).host = s.host := rfl
end setLinkOpen

section setBusReady
variable (s : State) (x : Bool)
@[simp] theorem State.setBusReady_status : (s.setBusReady x).status = s.status := rfl
@[simp] theorem State.setBusReady_result : (s.setBusReady x).result = s.result := rfl
@[simp] theorem State.setBusReady_rstcls : (s.setBusReady x).rstcls = s.rstcls := rfl
@[simp] theorem State.setBusReady_linkOpen : (s.setBusReady x).linkOpen = s.linkOpen := rfl
@[simp] theorem State.setBusReady_busReady : (s.setBusReady x).busReady = x := rfl
@[simp] theorem State.setBusReady_baudSel : (s.setBusReady x).baudSel = s.baudSel := rfl
@[simp] theorem State.setBusReady_lastDev : (s.setBusReady x).lastDev = s.lastDev := rfl
@[simp] theorem State.setBusReady_lastDisc : (s.setBusReady x).lastDisc = s.lastDisc := rfl
@[simp] theorem State.setBusReady_rom : (s.setBusReady x).rom = s.rom := rfl
@[simp] theorem State.setBusReady_srom : (s.setBusReady x).srom = s.srom := rfl
@[simp] theorem State.setBusReady_trace : (s.setBusReady x).trace = s.trace := rfl
@[simp] theorem State.setBusReady_env : (s.setBusReady x).env = s.env := rfl
@[simp] theorem State.setBusReady_host : (s.setBusReady x).host = s.host := rfl
end setBusReady

section setBaudSel
variable (s : State) (x : BaudSel)
@[simp] theorem State.setBaudSel_status : (s.setBaudSel x).status = s.status := rfl
@[simp] theorem State.setBaudSel_result : (s.setBaudSel x).result = s.result := rfl
@[simp] theorem State.setBaudSel_rstcls : (s.setBaudSel x).rstcls = s.rstcls := rfl
@[simp] theorem State.setBaudSel_linkOpen : (s.setBaudSel x).linkOpen = s.linkOpen := rfl
@[simp] theorem State.setBaudSel_busReady : (s.setBaudSel x).busReady = s.busReady := rfl
@[simp] theorem State.setBaudSel_baudSel : (s.setBaudSel x).baudSel = x := rfl
@[simp] theorem State.setBaudSel_lastDev : (s.setBaudSel x).lastDev = s.lastDev := rfl
@[simp] theorem State.setBaudSel_lastDisc : (s.setBaudSel x).lastDisc = s.lastDisc := rfl
@[simp] theorem State.setBaudSel_rom : (s.setBaudSel x).rom = s.rom := rfl
@[simp] theorem State.setBaudSel_srom : (s.setBaudSel x).srom = s.srom := rfl
@[simp] theorem State.setBaudSel_trace : (s.setBaudSel x).trace = s.trace := rfl
@[simp] theorem State.setBaudSel_env : (s.setBaudSel x).env = s.env := rfl
@[simp] theorem State.setBaudSel_host : (s.setBaudSel x).host = s.host := rfl
end setBaudSel

section setLastDev
variable (s : State) (x : Bool)
@[simp] theorem State.setLastDev_status : (s.setLastDev x).status = s.status := rfl
@[simp] theorem State.setLastDev_result : (s.setLastDev x).result = s.result := rfl
@[simp] theorem State.setLastDev_rstcls : (s.setLastDev x).rstcls = s.rstcls := rfl
@[simp] theorem State.setLastDev_linkOpen : (s.setLastDev x).linkOpen = s.linkOpen := rfl
@[simp] theorem State.setLastDev_busReady : (s.setLastDev x).busReady = s.busReady := rfl
@[simp] theorem State.setLastDev_baudSel : (s.setLastDev x).baudSel = s.baudSel := rfl
@[simp] theorem State.setLastDev_lastDev : (s.setLastDev x).lastDev = x := rfl
@[simp] theorem State.setLastDev_lastDisc : (s.setLastDev x).lastDisc = s.lastDisc := rfl
@[simp] theorem State.setLastDev_rom : (s.setLastDev x).rom = s.rom := rfl
@[simp] theorem State.setLastDev_srom : (s.setLastDev x).srom = s.srom := rfl
@[simp] theorem State.setLastDev_trace : (s.setLastDev x).trace = s.trace := rfl
@[simp] theorem State.setLastDev_env : (s.setLastDev x).env = s.env := rfl
@[simp] theorem State.setLastDev_host : (s.setLastDev x).host = s.host := rfl
end setLastDev

section setLastDisc
variable (s : State) (x : Byte)
@[simp] theorem State.setLastDisc_status : (s.setLastDisc x).status = s.status := rfl
@[simp] theorem State.setLastDisc_result : (s.setLastDisc x).result = s.result := rfl
@[simp] theorem State.setLastDisc_rstcls : (s.setLastDisc x).rstcls = s.rstcls := rfl
@[simp] theorem State.setLastDisc_linkOpen : (s.setLastDisc x).linkOpen = s.linkOpen := rfl
@[simp] theorem State.setLastDisc_busReady : (s.setLastDisc x).busReady = s.busReady := rfl
@[simp] theorem State.setLastDisc_baudSel : (s.setLastDisc x).baudSel = s.baudSel := rfl
@[simp] theorem State.setLastDisc_lastDev : (s.setLastDisc x).lastDev = s.lastDev := rfl
@[simp] theorem State.setLastDisc_lastDisc : (s.setLastDisc x).lastDisc = x := rfl
@[simp] theorem State.setLastDisc_rom : (s.setLastDisc x).rom = s.rom := rfl
@[simp] theorem State.setLastDisc_srom : (s.setLastDisc x).srom = s.srom := rfl
@[simp] theorem State.setLastDisc_trace : (s.setLastDisc x).trace = s.trace := rfl
@[simp] theorem State.setLastDisc_env : (s.setLastDisc x).env = s.env := rfl
@[simp] theorem State.setLastDisc_host : (s.setLastDisc x).host = s.host := rfl
end setLastDisc

section setRom
variable (s : State) (x : Bytes8)
@[simp] theorem State.setRom_status : (s.setRom x).status = s.status := rfl
@[simp] theorem State.setRom_result : (s.setRom x).result = s.result := rfl
@[simp] theorem State.setRom_rstcls : (s.setRom x).rstcls = s.rstcls := rfl
@[simp] theorem State.setRom_linkOpen : (s.setRom x).linkOpen = s.linkOpen := rfl
@[simp] theorem State.setRom_busReady : (s.setRom x).busReady = s.busReady := rfl
@[simp] theorem State.setRom_baudSel : (s.setRom x).baudSel = s.baudSel := rfl
@[simp] theorem State.setRom_lastDev : (s.setRom x).lastDev = s.lastDev := rfl
@[simp] theorem State.setRom_lastDisc : (s.setRom x).lastDisc = s.lastDisc := rfl
@[simp] theorem State.setRom_rom : (s.setRom x).rom = x := rfl
@[simp] theorem State.setRom_srom : (s.setRom x).srom = s.srom := rfl
@[simp] theorem State.setRom_trace : (s.setRom x).trace = s.trace := rfl
@[simp] theorem State.setRom_env : (s.setRom x).env = s.env := rfl
@[simp] theorem State.setRom_host : (s.setRom x).host = s.host := rfl
end setRom

section setSrom
variable (s : State) (x : Bytes8)
@[simp] theorem State.setSrom_status : (s.setSrom x).status = s.status := rfl
@[simp] theorem State.setSrom_result : (s.setSrom x).result = s.result := rfl
@[simp] theorem State.setSrom_rstcls : (s.setSrom x).rstcls = s.rstcls := rfl
@[simp] theorem State.setSrom_linkOpen : (s.setSrom x).linkOpen = s.linkOpen := rfl
@[simp] theorem State.setSrom_busReady : (s.setSrom x).busReady = s.busReady := rfl
@[simp] theorem State.setSrom_baudSel : (s.setSrom x).baudSel = s.baudSel := rfl
@[simp] theorem State.setSrom_lastDev : (s.setSrom x).lastDev = s.lastDev := rfl
@[simp] theorem State.setSrom_lastDisc : (s.setSrom x).lastDisc = s.lastDisc := rfl
@[simp] theorem State.setSrom_rom : (s.setSrom x).rom = s.rom := rfl
@[simp] theorem State.setSrom_srom : (s.setSrom x).srom = x := rfl
@[simp] theorem State.setSrom_trace : (s.setSrom x).trace = s.trace := rfl
@[simp] theorem State.setSrom_env : (s.setSrom x).env = s.env := rfl
@[simp] theorem State.setSrom_host : (s.setSrom x).host = s.host := rfl
end setSrom

section setTrace
variable (s : State) (x : List Event)
@[simp] theorem State.setTrace_status : (s.setTrace x).status = s.status := rfl
@[simp] theorem State.setTrace_result : (s.setTrace x).result = s.result := rfl
@[simp] theorem State.setTrace_rstcls : (s.setTrace x).rstcls = s.rstcls := rfl
@[simp] theorem State.setTrace_linkOpen : (s.setTrace x).linkOpen = s.linkOpen := rfl
@[simp] theorem State.setTrace_busReady : (s.setTrace x).busReady = s.busReady := rfl
@[simp] theorem State.setTrace_baudSel : (s.setTrace x).baudSel = s.baudSel := rfl
@[simp] theorem State.setTrace_lastDev : (s.setTrace x).lastDev = s.lastDev := rfl
@[simp] theorem State.setTrace_lastDisc : (s.setTrace x).lastDisc = s.lastDisc := rfl
@[simp] theorem State.setTrace_rom : (s.setTrace x).rom = s.rom := rfl
@[simp] theorem State.setTrace_srom : (s.setTrace x).srom = s.srom := rfl
@[simp] theorem State.setTrace_trace : (s.setTrace x).trace = x := rfl
@[simp] theorem State.setTrace_env : (s.setTrace x).env = s.env := rfl
@[simp] theorem State.setTrace_host : (s.setTrace x).host = s.host := rfl
end setTrace

section setEnv
variable (s : State) (x : Env)
@[simp] theorem State.setEnv_status : (s.setEnv x).status = s.status := rfl
@[simp] theorem State.setEnv_result : (s.setEnv x).result = s.result := rfl
@[simp] theorem State.setEnv_rstcls : (s.setEnv x).rstcls = s.rstcls := rfl
@[simp] theorem State.setEnv_linkOpen : (s.setEnv x).linkOpen = s.linkOpen := rfl
@[simp] theorem State.setEnv_busReady : (s.setEnv x).busReady = s.busReady := rfl
@[simp] theorem State.setEnv_baudSel : (s.setEnv x).baudSel = s.baudSel := rfl
@[simp] theorem State.setEnv_lastDev : (s.setEnv x).lastDev = s.lastDev := rfl
@[simp] theorem State.setEnv_lastDisc : (s.setEnv x).lastDisc = s.lastDisc := rfl
@[simp] theorem State.setEnv_rom : (s.setEnv x).rom = s.rom := rfl
@[simp] theorem State.setEnv_srom : (s.setEnv x).srom = s.srom := rfl
@[simp] theorem State.setEnv_trace : (s.setEnv x).trace = s.trace := rfl
@[simp] theorem State.setEnv_env : (s.setEnv x).env = x := rfl
@[simp] theorem State.setEnv_host : (s.setEnv x).host = s.host := rfl
end setEnv

section setHost
variable (s : State) (x : HostSide)
@[simp] theorem State.setHost_status : (s.setHost x).status = s.status := rfl
@[simp] theorem State.setHost_result : (s.setHost x).result = s.result := rfl
@[simp] theorem State.setHost_rstcls : (s.setHost x).rstcls = s.rstcls := rfl
@[simp] theorem State.setHost_linkOpen : (s.setHost x).linkOpen = s.linkOpen := rfl
@[simp] theorem State.setHost_busReady : (s.setHost x).busReady = s.busReady := rfl
@[simp] theorem State.setHost_baudSel : (s.setHost x).baudSel = s.baudSel := rfl
@[simp] theorem State.setHost_lastDev : (s.setHost x).lastDev = s.lastDev := rfl
@[simp] theorem State.setHost_lastDisc : (s.setHost x).lastDisc = s.lastDisc := rfl
@[simp] theorem State.setHost_rom : (s.setHost x).rom = s.rom := rfl
@[simp] theorem State.setHost_srom : (s.setHost x).srom = s.srom := rfl
@[simp] theorem State.setHost_trace : (s.setHost x).trace = s.trace := rfl
@[simp] theorem State.setHost_env : (s.setHost x).env = s.env := rfl
@[simp] theorem State.setHost_host : (s.setHost x).host = x := rfl
end setHost

section record
variable (s : State) (e : Event)
@[simp] theorem State.record_status : (s.record e).status = s.status := rfl
@[simp] theorem State.record_result : (s.record e).result = s.result := rfl
@[simp] theorem State.record_rstcls : (s.record e).rstcls = s.rstcls := rfl
@[simp] theorem State.record_linkOpen : (s.record e).linkOpen = s.linkOpen := rfl
@[simp] theorem State.record_busReady : (s.record e).busReady = s.busReady := rfl
@[simp] theorem State.record_baudSel : (s.record e).baudSel = s.baudSel := rfl
@[simp] theorem State.record_lastDev : (s.record e).lastDev = s.lastDev := rfl
@[simp] theorem State.record_lastDisc : (s.record e).lastDisc = s.lastDisc := rfl
@[simp] theorem State.record_rom : (s.record e).rom = s.rom := rfl
@[simp] theorem State.record_srom : (s.record e).srom = s.srom := rfl
@[simp] theorem State.record_trace : (s.record e).trace = s.trace ++ [e] := rfl
@[simp] theorem State.record_env : (s.record e).env = s.env := rfl
@[simp] theorem State.record_host : (s.record e).host = s.host := rfl
end record

section complete
variable (c : StatusCode) (s : State)
@[simp] theorem complete_status : (complete c s).status = c := rfl
@[simp] theorem complete_result : (complete c s).result = s.result := rfl
@[simp] theorem complete_rstcls : (complete c s).rstcls = s.rstcls := rfl
@[simp] theorem complete_linkOpen : (complete c s).linkOpen = s.linkOpen := rfl
@[simp] theorem complete_busReady : (complete c s).busReady = s.busReady := rfl
@[simp] theorem complete_baudSel : (complete c s).baudSel = .normal := rfl
@[simp] theorem complete_lastDev : (complete c s).lastDev = s.lastDev := rfl
@[simp] theorem complete_lastDisc : (complete c s).lastDisc = s.lastDisc := rfl
@[simp] theorem complete_rom : (complete c s).rom = s.rom := rfl
@[simp] theorem complete_srom : (complete c s).srom = s.srom := rfl
@[simp] theorem complete_trace : (complete c s).trace = s.trace := rfl
@[simp] theorem complete_env : (complete c s).env = s.env := rfl
@[simp] theorem complete_host : (complete c s).host = s.host := rfl
end complete

section abort
variable (c : StatusCode) (s : State)
@[simp] theorem abort_status : (abort c s).status = c := by unfold abort; cases c.clearsBusReady <;> rfl
@[simp] theorem abort_result : (abort c s).result = s.result := by unfold abort; cases c.clearsBusReady <;> rfl
@[simp] theorem abort_rstcls : (abort c s).rstcls = s.rstcls := by unfold abort; cases c.clearsBusReady <;> rfl
@[simp] theorem abort_linkOpen : (abort c s).linkOpen = s.linkOpen := by unfold abort; cases c.clearsBusReady <;> rfl
@[simp] theorem abort_busReady : (abort c s).busReady = if c.clearsBusReady then false else s.busReady := by unfold abort; cases c.clearsBusReady <;> rfl
@[simp] theorem abort_baudSel : (abort c s).baudSel = .normal := by unfold abort; cases c.clearsBusReady <;> rfl
@[simp] theorem abort_lastDev : (abort c s).lastDev = s.lastDev := by unfold abort; cases c.clearsBusReady <;> rfl
@[simp] theorem abort_lastDisc : (abort c s).lastDisc = s.lastDisc := by unfold abort; cases c.clearsBusReady <;> rfl
@[simp] theorem abort_rom : (abort c s).rom = s.rom := by unfold abort; cases c.clearsBusReady <;> rfl
@[simp] theorem abort_srom : (abort c s).srom = s.srom := by unfold abort; cases c.clearsBusReady <;> rfl
@[simp] theorem abort_trace : (abort c s).trace = s.trace := by unfold abort; cases c.clearsBusReady <;> rfl
@[simp] theorem abort_env : (abort c s).env = s.env := by unfold abort; cases c.clearsBusReady <;> rfl
@[simp] theorem abort_host : (abort c s).host = s.host := by unfold abort; cases c.clearsBusReady <;> rfl
end abort

section searchFirst
variable (s : State)
@[simp] theorem searchFirst_status : (searchFirst s).status = s.status := rfl
@[simp] theorem searchFirst_result : (searchFirst s).result = s.result := rfl
@[simp] theorem searchFirst_rstcls : (searchFirst s).rstcls = s.rstcls := rfl
@[simp] theorem searchFirst_linkOpen : (searchFirst s).linkOpen = s.linkOpen := rfl
@[simp] theorem searchFirst_busReady : (searchFirst s).busReady = s.busReady := rfl
@[simp] theorem searchFirst_baudSel : (searchFirst s).baudSel = s.baudSel := rfl
@[simp] theorem searchFirst_lastDev : (searchFirst s).lastDev = false := rfl
@[simp] theorem searchFirst_lastDisc : (searchFirst s).lastDisc = 0x00 := rfl
@[simp] theorem searchFirst_rom : (searchFirst s).rom = s.rom := rfl
@[simp] theorem searchFirst_srom : (searchFirst s).srom = s.srom := rfl
@[simp] theorem searchFirst_trace : (searchFirst s).trace = s.trace := rfl
@[simp] theorem searchFirst_env : (searchFirst s).env = s.env := rfl
@[simp] theorem searchFirst_host : (searchFirst s).host = s.host := rfl
end searchFirst

end Sys2Proof.Machine
end

