-- ==== Sys2Proof/Laws/Ops.lean ====
section
/-! SUPPORT. What each shared operation can do, said once: the two ways a part of a command ends (`Run.Ends`), its rule for
`andThen`, and one lemma for each of Frame, Slot, TouchByte, BusReset and the checks. -/

namespace Sys2Proof.Machine

/-- `r` ends in `ok` with `P`, or in `stop` with `Q`. -/
def Run.Ends {α : Type} (P : α → State → Prop) (Q : StatusCode → State → Prop) : Run α → Prop
  | .ok a s => P a s
  | .stop c s => Q c s

@[simp] theorem Run.ends_ok {α : Type} {P : α → State → Prop} {Q : StatusCode → State → Prop} {a : α} {s : State} :
    Run.Ends P Q (.ok a s) ↔ P a s := Iff.rfl
@[simp] theorem Run.ends_stop {α : Type} {P : α → State → Prop} {Q : StatusCode → State → Prop} {c : StatusCode} {s : State} :
    Run.Ends P Q (.stop c s : Run α) ↔ Q c s := Iff.rfl

@[simp] theorem Run.andThen_ok {α β : Type} (a : α) (s : State) (k : α → State → Run β) : (Run.ok a s).andThen k = k a s := rfl
@[simp] theorem Run.andThen_stop {α β : Type} (c : StatusCode) (s : State) (k : α → State → Run β) :
    (Run.stop c s : Run α).andThen k = .stop c s := rfl
@[simp] theorem Run.onAbort_ok {α : Type} (a : α) (s : State) (q : State → State) : (Run.ok a s).onAbort q = .ok a s := rfl
@[simp] theorem Run.onAbort_stop {α : Type} (c : StatusCode) (s : State) (q : State → State) :
    (Run.stop c s : Run α).onAbort q = .stop c (q s) := rfl
@[simp] theorem endCommand_ok (s : State) : endCommand (.ok () s) = complete .ok s := rfl
@[simp] theorem endCommand_stop (c : StatusCode) (s : State) : endCommand (.stop c s) = abort c s := rfl

theorem Run.andThen_assoc {α β γ : Type} (r : Run α) (k : α → State → Run β) (l : β → State → Run γ) :
    (r.andThen k).andThen l = r.andThen fun a s => (k a s).andThen l := by
  cases r <;> rfl

theorem Run.Ends.imp {α : Type} {P P' : α → State → Prop} {Q Q' : StatusCode → State → Prop} {r : Run α}
    (h : Run.Ends P Q r) (hP : ∀ a s, P a s → P' a s) (hQ : ∀ c s, Q c s → Q' c s) : Run.Ends P' Q' r := by
  cases r with
  | ok a s => exact hP a s h
  | stop c s => exact hQ c s h

theorem Run.Ends.andThen {α β : Type} {P : α → State → Prop} {P' : β → State → Prop} {Q : StatusCode → State → Prop}
    {r : Run α} {k : α → State → Run β} (h : Run.Ends P Q r) (hk : ∀ a s, P a s → Run.Ends P' Q (k a s)) :
    Run.Ends P' Q (r.andThen k) := by
  cases r with
  | ok a s => exact hk a s h
  | stop c s => exact h

theorem Run.Ends.onAbort {α : Type} {P : α → State → Prop} {Q Q' : StatusCode → State → Prop} {r : Run α}
    {q : State → State} (h : Run.Ends P Q r) (hq : ∀ c s, Q c s → Q' c (q s)) : Run.Ends P Q' (r.onAbort q) := by
  cases r with
  | ok a s => exact h
  | stop c s => exact hq c s h

/-- How a command ends: normally after its last write, or by a failure. -/
theorem endCommand_of_ends {P : Unit → State → Prop} {Q : StatusCode → State → Prop} {R : State → Prop} {r : Run Unit}
    (h : Run.Ends P Q r) (hP : ∀ s, P () s → R (complete .ok s)) (hQ : ∀ c s, Q c s → R (abort c s)) :
    R (endCommand r) := by
  cases r with
  | ok a s => exact hP s h
  | stop c s => exact hQ c s h

/-- What frames leave alone: every register but BAUD_SEL, the host's side, and the parameters P_WIRED_AND and P_PORT_PATH; TRACE only grows, by
frames each of which is asked as `E` says. -/
structure LineStep (E : Event → Prop) (s t : State) : Prop where
  status : t.status = s.status
  result : t.result = s.result
  rstcls : t.rstcls = s.rstcls
  linkOpen : t.linkOpen = s.linkOpen
  busReady : t.busReady = s.busReady
  lastDev : t.lastDev = s.lastDev
  lastDisc : t.lastDisc = s.lastDisc
  rom : t.rom = s.rom
  srom : t.srom = s.srom
  host : t.host = s.host
  wiredAnd : t.env.wiredAnd = s.env.wiredAnd
  portPath : t.env.portPath = s.env.portPath
  trace : ∃ es, t.trace = s.trace ++ es ∧ ∀ e ∈ es, E e

theorem LineStep.refl (E : Event → Prop) (s : State) : LineStep E s s :=
  ⟨rfl, rfl, rfl, rfl, rfl, rfl, rfl, rfl, rfl, rfl, rfl, rfl, [], by simp, by simp⟩

theorem LineStep.trans {E : Event → Prop} {s t u : State} (h : LineStep E s t) (k : LineStep E t u) : LineStep E s u := by
  obtain ⟨es, hes, hE⟩ := h.trace
  obtain ⟨fs, hfs, hF⟩ := k.trace
  refine ⟨k.status.trans h.status, k.result.trans h.result, k.rstcls.trans h.rstcls, k.linkOpen.trans h.linkOpen,
    k.busReady.trans h.busReady, k.lastDev.trans h.lastDev, k.lastDisc.trans h.lastDisc, k.rom.trans h.rom,
    k.srom.trans h.srom, k.host.trans h.host, k.wiredAnd.trans h.wiredAnd,
    k.portPath.trans h.portPath, es ++ fs, by rw [hfs, hes, List.append_assoc], ?_⟩
  intro e he
  rcases List.mem_append.mp he with h1 | h1
  · exact hE e h1
  · exact hF e h1

theorem LineStep.setBaudSel {E : Event → Prop} {s t : State} (h : LineStep E s t) (b : BaudSel) :
    LineStep E s (t.setBaudSel b) :=
  ⟨h.status, h.result, h.rstcls, h.linkOpen, h.busReady, h.lastDev, h.lastDisc, h.rom, h.srom, h.host, h.wiredAnd,
    h.portPath, h.trace⟩

/-- The environment's answer changes neither the parameters P_WIRED_AND and P_PORT_PATH nor the answers to opening the port. -/
theorem Env.nextEcho_wiredAnd (e : Env) (history : List Event) (baud : Nat) (t : Byte) :
    (e.nextEcho history baud t).2.wiredAnd = e.wiredAnd := by
  unfold Env.nextEcho
  split
  · rfl
  · split <;> rfl

theorem Env.nextEcho_portPath (e : Env) (history : List Event) (baud : Nat) (t : Byte) :
    (e.nextEcho history baud t).2.portPath = e.portPath := by
  unfold Env.nextEcho
  split
  · rfl
  · split <;> rfl

theorem Env.nextEcho_opens (e : Env) (history : List Event) (baud : Nat) (t : Byte) :
    (e.nextEcho history baud t).2.opens = e.opens := by
  unfold Env.nextEcho
  split
  · rfl
  · split <;> rfl

/-- One frame sent, whatever is answered. -/
theorem sendFrame_lineStep (sel : BaudSel) (t : Byte) (s : State) :
    LineStep (fun e => ∃ o, e = .frame (baudRate sel) t o) s (sendFrame sel t s).2 :=
  ⟨rfl, rfl, rfl, rfl, rfl, rfl, rfl, rfl, rfl, rfl, Env.nextEcho_wiredAnd _ _ _ _,
    Env.nextEcho_portPath _ _ _ _, [_], rfl, by
    intro e he
    exact ⟨_, List.mem_singleton.mp he⟩⟩

@[simp] theorem sendFrame_baudSel (sel : BaudSel) (t : Byte) (s : State) : (sendFrame sel t s).2.baudSel = sel := rfl

section frame
variable {sel : BaudSel} {t : Byte} {s : State}
theorem frame_of_writeFail (h : (sendFrame sel t s).1 = .writeFail) :
    frame sel t s = .stop .writeError (sendFrame sel t s).2 := by simp only [frame, h]
theorem frame_of_readFail (h : (sendFrame sel t s).1 = .readFail) :
    frame sel t s = .stop .readError (sendFrame sel t s).2 := by simp only [frame, h]
theorem frame_of_timeout (h : (sendFrame sel t s).1 = .timeout) :
    frame sel t s = .ok none (sendFrame sel t s).2 := by simp only [frame, h]
theorem frame_of_echo {r : Byte} (h : (sendFrame sel t s).1 = .echo r) :
    frame sel t s = .ok (some r) (sendFrame sel t s).2 := by simp only [frame, h]
end frame

/-- Everything `Frame` can do: it goes on, or it ends the command with WriteError or ReadError; one frame was sent. -/
theorem frame_ends (sel : BaudSel) (t : Byte) (s : State) :
    (frame sel t s).Ends
      (fun e u => u = (sendFrame sel t s).2 ∧ ((sendFrame sel t s).1 = .timeout ∧ e = none ∨
        ∃ r, (sendFrame sel t s).1 = .echo r ∧ e = some r))
      (fun c u => u = (sendFrame sel t s).2 ∧ ((sendFrame sel t s).1 = .writeFail ∧ c = .writeError ∨
        (sendFrame sel t s).1 = .readFail ∧ c = .readError)) := by
  cases h : (sendFrame sel t s).1 with
  | writeFail => simp [frame_of_writeFail h]
  | readFail => simp [frame_of_readFail h]
  | timeout => simp [frame_of_timeout h]
  | echo r => simp [frame_of_echo h]

/-- The event of a slot: 115200 baud and 0xFF or 0x00. -/
def SlotEvent (e : Event) : Prop := ∃ (v : Bool) (o : LineOutcome), e = .frame Config.baudNormal (slotByte v) o

/-- The event of a reset frame: 9600 baud and 0xF0. -/
def ResetEvent (e : Event) : Prop := ∃ o : LineOutcome, e = .frame Config.baudReset resetByte o

/-- The failures a slot can end a command with. -/
def SlotFailure (c : StatusCode) : Prop := c = .writeError ∨ c = .readError

/-- Slots were sent from `s` to `u`, and the rate is normal after them. -/
def SlotsSent (s u : State) : Prop := LineStep SlotEvent s u ∧ (s.baudSel = .normal → u.baudSel = .normal)

theorem SlotsSent.refl (s : State) : SlotsSent s s := ⟨.refl _ _, id⟩
theorem SlotsSent.trans {s t u : State} (h : SlotsSent s t) (k : SlotsSent t u) : SlotsSent s u :=
  ⟨h.1.trans k.1, fun hb => k.2 (h.2 hb)⟩

/-- Exactly `n` slots were sent from `s` to `u`. -/
def SlotsExactly (n : Nat) (s u : State) : Prop := SlotsSent s u ∧ u.trace.length = s.trace.length + n

theorem SlotsExactly.refl (s : State) : SlotsExactly 0 s s := ⟨.refl s, rfl⟩
theorem SlotsExactly.trans {m n : Nat} {s t u : State} (h : SlotsExactly m s t) (k : SlotsExactly n t u) :
    SlotsExactly (m + n) s u := ⟨h.1.trans k.1, by rw [k.2, h.2, Nat.add_assoc]⟩

/-- Everything `Slot` can do: one slot is sent. -/
theorem slot_ends (v : Bool) (s : State) :
    (slot v s).Ends (fun _ u => SlotsExactly 1 s u) (fun c u => SlotsSent s u ∧ SlotFailure c) := by
  have hs : SlotsSent s (sendFrame .normal (slotByte v) s).2 := by
    have h := sendFrame_lineStep .normal (slotByte v) s
    obtain ⟨es, h1, h2⟩ := h.trace
    exact ⟨{ h with trace := ⟨es, h1, fun e he => ⟨v, h2 e he⟩⟩ }, fun _ => rfl⟩
  have hn : (sendFrame .normal (slotByte v) s).2.trace.length = s.trace.length + 1 :=
    List.length_append
  unfold slot
  refine Run.Ends.andThen ((frame_ends .normal (slotByte v) s).imp (P' := fun _ u => SlotsExactly 1 s u) ?_ ?_) ?_
  · rintro _ _ ⟨rfl, -⟩; exact ⟨hs, hn⟩
  · rintro _ _ ⟨rfl, h⟩
    refine ⟨hs, ?_⟩
    rcases h with ⟨-, rfl⟩ | ⟨-, rfl⟩
    · exact .inl rfl
    · exact .inr rfl
  · intro _ _ h; exact h

/-- Everything the byte loop can do: one slot for each bit position is sent. -/
theorem touchBits_ends (d : Byte) (is : List Nat) (res : Byte) (s : State) :
    (touchBits d is res s).Ends (fun _ u => SlotsExactly is.length s u) (fun c u => SlotsSent s u ∧ SlotFailure c) := by
  induction is generalizing res s with
  | nil => exact SlotsExactly.refl s
  | cons i is ih =>
    refine Run.Ends.andThen (slot_ends (d.getLsbD i) s) fun b u hu => ?_
    refine (ih _ u).imp (fun _ _ h => ?_) (fun _ _ h => ⟨hu.1.trans h.1, h.2⟩)
    rw [List.length_cons, Nat.add_comm]; exact hu.trans h

/-- Everything `TouchByte` can do: eight slots are sent. -/
theorem touchByte_ends (d : Byte) (s : State) :
    (touchByte d s).Ends (fun _ u => SlotsExactly 8 s u) (fun c u => SlotsSent s u ∧ SlotFailure c) :=
  touchBits_ends d _ _ s

/-- Everything reading bytes can do: eight slots for each byte are sent. -/
theorem readBytes_ends (js : List Nat) (b : Bytes8) (s : State) :
    (readBytes js b s).Ends (fun _ u => SlotsExactly (8 * js.length) s u) (fun c u => SlotsSent s u ∧ SlotFailure c) := by
  induction js generalizing b s with
  | nil => exact SlotsExactly.refl s
  | cons j js ih =>
    refine Run.Ends.andThen (touchByte_ends 0xFF s) fun x u hu => ?_
    refine (ih _ u).imp (fun _ _ h => ?_) (fun _ _ h => ⟨hu.1.trans h.1, h.2⟩)
    rw [List.length_cons, Nat.mul_add, Nat.add_comm]; exact hu.trans h

/-- What the reset frame leaves, whatever it finds: `LineStep` but for RSTCLS and BUS_READY, with exactly one event. -/
structure ResetSent (s u : State) : Prop where
  status : u.status = s.status
  result : u.result = s.result
  linkOpen : u.linkOpen = s.linkOpen
  lastDev : u.lastDev = s.lastDev
  lastDisc : u.lastDisc = s.lastDisc
  rom : u.rom = s.rom
  srom : u.srom = s.srom
  host : u.host = s.host
  wiredAnd : u.env.wiredAnd = s.env.wiredAnd
  portPath : u.env.portPath = s.env.portPath
  trace : ∃ o, u.trace = s.trace ++ [.frame Config.baudReset resetByte o]

theorem sendFrame_resetSent (s : State) : ResetSent s (sendFrame .reset resetByte s).2 :=
  ⟨rfl, rfl, rfl, rfl, rfl, rfl, rfl, rfl, Env.nextEcho_wiredAnd _ _ _ _,
    Env.nextEcho_portPath _ _ _ _, ⟨_, rfl⟩⟩

section resetClassified
variable {r : Byte} {s : State}
theorem resetClassified_none (h : classify r = .noDevicesPresent) :
    resetClassified r s = .stop .noDevicesPresent (s.setRstcls (.classified .noDevicesPresent)) := by
  simp only [resetClassified, h]
theorem resetClassified_short (h : classify r = .shortCircuit) :
    resetClassified r s = .stop .shortCircuit (s.setRstcls (.classified .shortCircuit)) := by
  simp only [resetClassified, h]
theorem resetClassified_single (h : classify r = .singleDevicePresent) :
    resetClassified r s =
      .ok (.singleDevicePresent, r) ((s.setRstcls (.classified .singleDevicePresent)).setBusReady true) := by
  simp only [resetClassified, h]
theorem resetClassified_multiple (h : classify r = .multipleDevicesPresent) :
    resetClassified r s =
      .ok (.multipleDevicesPresent, r) ((s.setRstcls (.classified .multipleDevicesPresent)).setBusReady true) := by
  simp only [resetClassified, h]
end resetClassified

/-- A class that is a presence (41_onewire_bus.md R91). -/
def ResetClass.isPresence (c : ResetClass) : Prop := c = .singleDevicePresent ∨ c = .multipleDevicesPresent

/-- Everything `BusReset` can do (41_onewire_bus.md R89, R91). On a presence: RSTCLS is the echo's class, BUS_READY is 1 and the rate
is normal again. On a failure: the class is written and names the failure, or the frame timed out (NoEcho), or a frame failed and
RSTCLS is as it was; BUS_READY is not written yet. -/
theorem busReset_ends (s : State) :
    (busReset s).Ends
      (fun e u => ResetSent s u ∧ u.baudSel = .normal ∧ u.busReady = true ∧ u.rstcls = .classified e.1 ∧
        e.1 = classify e.2 ∧ e.1.isPresence)
      (fun c u => ResetSent s u ∧ u.busReady = s.busReady ∧
        (c = .noDevicesPresent ∧ u.rstcls = .classified .noDevicesPresent ∨
          c = .shortCircuit ∧ u.rstcls = .classified .shortCircuit ∨
          c = .noEcho ∧ u.rstcls = .noEcho ∨
          SlotFailure c ∧ u.rstcls = s.rstcls)) := by
  have hs := sendFrame_resetSent s
  unfold busReset
  refine Run.Ends.andThen (P := fun _ u => u = (sendFrame .reset resetByte s).2)
    ((frame_ends .reset resetByte s).imp ?_ ?_) ?_
  · rintro _ _ ⟨rfl, -⟩; rfl
  · rintro _ _ ⟨rfl, h⟩
    refine ⟨hs, rfl, .inr (.inr (.inr ⟨?_, rfl⟩))⟩
    rcases h with ⟨-, rfl⟩ | ⟨-, rfl⟩
    · exact .inl rfl
    · exact .inr rfl
  · rintro e _ rfl
    cases e with
    | none => exact ⟨{ hs with }, rfl, .inr (.inr (.inl ⟨rfl, rfl⟩))⟩
    | some r =>
      cases h : classify r with
      | noDevicesPresent =>
        simp only [resetClassified_none h]
        exact ⟨{ hs with }, rfl, .inl ⟨rfl, rfl⟩⟩
      | shortCircuit =>
        simp only [resetClassified_short h]
        exact ⟨{ hs with }, rfl, .inr (.inl ⟨rfl, rfl⟩)⟩
      | singleDevicePresent =>
        simp only [resetClassified_single h]
        exact ⟨{ hs with }, rfl, rfl, rfl, h.symm, .inl rfl⟩
      | multipleDevicesPresent =>
        simp only [resetClassified_multiple h]
        exact ⟨{ hs with }, rfl, rfl, rfl, h.symm, .inr rfl⟩

/-- Everything the link check can do (40_serial_channel.md R86). -/
theorem requireLink_ends (s : State) :
    (requireLink s).Ends (fun _ u => u = s ∧ s.linkOpen = true) (fun c u => u = s ∧ c = .portClosed ∧ s.linkOpen = false) := by
  unfold requireLink
  cases h : s.linkOpen <;> simp

/-- Everything the BUS_READY check can do (10_state.md R24). -/
theorem requireBus_ends (s : State) :
    (requireBus s).Ends (fun _ u => u = s ∧ s.busReady = true) (fun c u => u = s ∧ c = .busNotReady ∧ s.busReady = false) := by
  unfold requireBus
  cases h : s.busReady <;> simp

end Sys2Proof.Machine
end

