-- ==== Sys2Proof/Laws/Line.lean ====
section
/-! SUPPORT. The primitives in terms of what the environment answers to a sequence of frames (`State.answersTo`,
`State.afterFrames`): slots, bytes and runs of slots, when no frame fails and when one does. -/

namespace Sys2Proof.Machine

theorem Env.answers_length (e : Env) (h : List Event) (fs : List FrameAsk) : (e.answers h fs).1.length = fs.length := by
  induction fs generalizing e h with
  | nil => rfl
  | cons f fs ih => simp [Env.answers, ih]

theorem frameEvents_append {fs gs : List FrameAsk} {os ps : List LineOutcome} (h : fs.length = os.length) :
    frameEvents (fs ++ gs) (os ++ ps) = frameEvents fs os ++ frameEvents gs ps :=
  List.zipWith_append h

theorem Env.answers_append (e : Env) (h : List Event) (fs gs : List FrameAsk) :
    e.answers h (fs ++ gs) =
      ((e.answers h fs).1 ++ ((e.answers h fs).2.answers (h ++ frameEvents fs (e.answers h fs).1) gs).1,
        ((e.answers h fs).2.answers (h ++ frameEvents fs (e.answers h fs).1) gs).2) := by
  induction fs generalizing e h with
  | nil => simp [Env.answers, frameEvents]
  | cons f fs ih => simp [Env.answers, ih, frameEvents]

@[simp] theorem State.answersTo_nil (s : State) : s.answersTo [] = [] := rfl
@[simp] theorem State.answersTo_length (s : State) (fs : List FrameAsk) : (s.answersTo fs).length = fs.length :=
  Env.answers_length _ _ _

theorem State.answersTo_append (s : State) (fs gs : List FrameAsk) :
    s.answersTo (fs ++ gs) = s.answersTo fs ++ (s.afterFrames fs).answersTo gs := by
  simp [State.answersTo, Env.answers_append, State.afterFrames]

theorem State.answersTo_take (s : State) (fs : List FrameAsk) (k : Nat) :
    s.answersTo (fs.take k) = (s.answersTo fs).take k := by
  rcases Nat.le_total fs.length k with h | h
  · rw [List.take_of_length_le h, List.take_of_length_le (by simpa using h)]
  · have h1 := s.answersTo_append (fs.take k) (fs.drop k)
    rw [List.take_append_drop] at h1
    rw [h1, List.take_left' (by simpa using h)]

theorem State.afterFrames_append (s : State) (fs gs : List FrameAsk) :
    (s.afterFrames fs).afterFrames gs = s.afterFrames (fs ++ gs) := by
  simp [State.afterFrames, Env.answers_append, frameEvents_append, Env.answers_length]

theorem State.afterFrames_nil (s : State) (h : s.baudSel = .normal) : s.afterFrames [] = s := by
  cases s
  simp only at h
  simp [State.afterFrames, Env.answers, frameEvents, h]

section afterFrames
variable (s : State) (fs : List FrameAsk)
@[simp] theorem State.afterFrames_status : (s.afterFrames fs).status = s.status := rfl
@[simp] theorem State.afterFrames_result : (s.afterFrames fs).result = s.result := rfl
@[simp] theorem State.afterFrames_rstcls : (s.afterFrames fs).rstcls = s.rstcls := rfl
@[simp] theorem State.afterFrames_linkOpen : (s.afterFrames fs).linkOpen = s.linkOpen := rfl
@[simp] theorem State.afterFrames_busReady : (s.afterFrames fs).busReady = s.busReady := rfl
@[simp] theorem State.afterFrames_baudSel : (s.afterFrames fs).baudSel = .normal := rfl
@[simp] theorem State.afterFrames_lastDev : (s.afterFrames fs).lastDev = s.lastDev := rfl
@[simp] theorem State.afterFrames_lastDisc : (s.afterFrames fs).lastDisc = s.lastDisc := rfl
@[simp] theorem State.afterFrames_rom : (s.afterFrames fs).rom = s.rom := rfl
@[simp] theorem State.afterFrames_srom : (s.afterFrames fs).srom = s.srom := rfl
@[simp] theorem State.afterFrames_trace : (s.afterFrames fs).trace = s.trace ++ frameEvents fs (s.answersTo fs) := rfl
@[simp] theorem State.afterFrames_host : (s.afterFrames fs).host = s.host := rfl
end afterFrames

/-- Only the environment and TRACE decide the answers. -/
theorem State.answersTo_congr {s t : State} (he : s.env = t.env) (ht : s.trace = t.trace) (fs : List FrameAsk) :
    s.answersTo fs = t.answersTo fs := by simp [State.answersTo, he, ht]

/-- A frame at the normal rate. -/
theorem sendFrame_normal (t : Byte) (s : State) :
    sendFrame .normal t s = ((s.answersTo [(115200, t)]).headD .timeout, s.afterFrames [(115200, t)]) := rfl

/-- The reset frame, the normal rate restored after it. -/
theorem sendFrame_reset (s : State) :
    (sendFrame .reset resetByte s).1 = (s.answersTo [resetAsk]).headD .timeout ∧
      (sendFrame .reset resetByte s).2.setBaudSel .normal = s.afterFrames [resetAsk] := ⟨rfl, rfl⟩

theorem slotAsk_eq (v : Bool) : slotAsk v = (115200, slotByte v) := by cases v <;> rfl

/-- A slot whose answer does not fail. -/
theorem slot_ok {v : Bool} {s : State} {o : LineOutcome} (h : s.answersTo [slotAsk v] = [o]) (ho : o.failure = none) :
    slot v s = .ok o.bit (s.afterFrames [slotAsk v]) := by
  rw [slotAsk_eq] at h ⊢
  have hf : (sendFrame .normal (slotByte v) s).1 = o := by rw [sendFrame_normal, h]; rfl
  have h2 : (sendFrame .normal (slotByte v) s).2 = s.afterFrames [(115200, slotByte v)] := by rw [sendFrame_normal]
  unfold slot
  cases o with
  | writeFail => simp [LineOutcome.failure] at ho
  | readFail => simp [LineOutcome.failure] at ho
  | timeout => rw [frame_of_timeout hf, h2]; rfl
  | echo r => rw [frame_of_echo hf, h2]; simp [slotBit, LineOutcome.bit]

/-- A slot whose answer fails. -/
theorem slot_stop {v : Bool} {s : State} {o : LineOutcome} {c : StatusCode} (h : s.answersTo [slotAsk v] = [o])
    (ho : o.failure = some c) : slot v s = .stop c (s.afterFrames [slotAsk v]) := by
  rw [slotAsk_eq] at h ⊢
  have hf : (sendFrame .normal (slotByte v) s).1 = o := by rw [sendFrame_normal, h]; rfl
  have h2 : (sendFrame .normal (slotByte v) s).2 = s.afterFrames [(115200, slotByte v)] := by rw [sendFrame_normal]
  unfold slot
  cases o with
  | writeFail => rw [frame_of_writeFail hf, h2]; simp [LineOutcome.failure] at ho; simp [ho]
  | readFail => rw [frame_of_readFail hf, h2]; simp [LineOutcome.failure] at ho; simp [ho]
  | timeout => simp [LineOutcome.failure] at ho
  | echo r => simp [LineOutcome.failure] at ho

/-- A run of slots, with the bits they return: what TouchByte and the byte loops amount to. -/
def slots : List Bool → State → Run (List Bool)
  | [], s => .ok [] s
  | v :: vs, s => (slot v s).andThen fun b s1 => (slots vs s1).andThen fun bs s2 => .ok (b :: bs) s2

theorem slots_append (vs ws : List Bool) (s : State) :
    slots (vs ++ ws) s = (slots vs s).andThen fun bs s1 => (slots ws s1).andThen fun cs s2 => .ok (bs ++ cs) s2 := by
  induction vs generalizing s with
  | nil => simp only [slots, List.nil_append, Run.andThen_ok]; cases slots ws s <;> rfl
  | cons v vs ih =>
    simp only [slots, List.cons_append, Run.andThen_assoc]
    congr 1; funext b s1
    rw [ih, Run.andThen_assoc]
    congr 1; funext bs s2
    simp [Run.andThen_assoc]

/-- The answer to the first of several frames, and the answers to the rest. -/
theorem State.answersTo_cons (s : State) (f : FrameAsk) (fs : List FrameAsk) :
    ∃ o, s.answersTo [f] = [o] ∧ s.answersTo (f :: fs) = o :: (s.afterFrames [f]).answersTo fs := by
  refine ⟨_, rfl, ?_⟩
  exact s.answersTo_append [f] fs

theorem State.afterFrames_cons (s : State) (f : FrameAsk) (fs : List FrameAsk) :
    s.afterFrames (f :: fs) = (s.afterFrames [f]).afterFrames fs := (s.afterFrames_append [f] fs).symm

/-- A run of slots none of which fails. -/
theorem slots_ok {vs : List Bool} {s : State} (hb : s.baudSel = .normal ∨ vs ≠ [])
    (h : NoFailure (s.answersTo (vs.map slotAsk))) :
    slots vs s = .ok ((s.answersTo (vs.map slotAsk)).map LineOutcome.bit) (s.afterFrames (vs.map slotAsk)) := by
  induction vs generalizing s with
  | nil => simp_all [slots, State.afterFrames_nil]
  | cons v vs ih =>
    obtain ⟨o, h1, h2⟩ := s.answersTo_cons (slotAsk v) (vs.map slotAsk)
    rw [List.map_cons, h2] at h
    rw [List.map_cons, h2, State.afterFrames_cons s (slotAsk v) (vs.map slotAsk)]
    have ho : o.failure = none := h o (by simp)
    simp only [slots, slot_ok h1 ho, Run.andThen_ok]
    rw [ih (.inl rfl) fun p hp => h p (by simp [hp])]
    simp

/-- A run of slots the first failure of which is at index `k`. -/
theorem slots_stop {vs : List Bool} {s : State} {k : Nat} {c : StatusCode}
    (h : FirstFailure (s.answersTo (vs.map slotAsk)) k c) :
    slots vs s = .stop c (s.afterFrames ((vs.map slotAsk).take (k + 1))) := by
  induction vs generalizing s k with
  | nil => simp [FirstFailure] at h
  | cons v vs ih =>
    obtain ⟨o, h1, h2⟩ := s.answersTo_cons (slotAsk v) (vs.map slotAsk)
    rw [List.map_cons, h2] at h
    rw [List.map_cons, List.take_succ_cons]
    cases k with
    | zero => simp only [slots, slot_stop h1 (by simpa [FirstFailure] using h.1), Run.andThen_stop]; rfl
    | succ k =>
      have ho : o.failure = none := by simpa using h.2 0 (by omega)
      have h3 : FirstFailure ((s.afterFrames [slotAsk v]).answersTo (vs.map slotAsk)) k c :=
        ⟨by simpa using h.1, fun j hj => by simpa using h.2 (j + 1) (by omega)⟩
      rw [State.afterFrames_cons]
      simp only [slots, slot_ok h1 ho, Run.andThen_ok, ih h3, Run.andThen_stop]

/-- The bits of a byte, bit 0 first. -/
def bitsOf (d : Byte) : List Bool :=
  [d.getLsbD 0, d.getLsbD 1, d.getLsbD 2, d.getLsbD 3, d.getLsbD 4, d.getLsbD 5, d.getLsbD 6, d.getLsbD 7]

@[simp] theorem bitsOf_length (d : Byte) : (bitsOf d).length = 8 := rfl
theorem byteAsks_eq (d : Byte) : byteAsks d = (bitsOf d).map slotAsk := rfl
@[simp] theorem byteAsks_length (d : Byte) : (byteAsks d).length = 8 := rfl

/-- The byte the loop of TouchByte assembles from eight bits. -/
def assembled (bs : List Bool) : Byte :=
  ((List.range 8).zip bs).foldl (fun res p => res ||| (zext8 p.2 <<< p.1)) 0x00

/-- TouchByte is a run of eight slots. -/
theorem touchByte_eq (d : Byte) (s : State) :
    touchByte d s = (slots (bitsOf d) s).andThen fun bs s1 => .ok (assembled bs) s1 := by
  simp only [touchByte, touchBits, bitsOf, slots, Run.andThen_assoc, Run.andThen_ok]
  rfl

theorem zext8_getLsbD (b : Bool) (j : Nat) : (zext8 b).getLsbD j = (b && decide (j = 0)) := by
  cases b
  · simp [zext8]
  · rcases j with _ | j
    · simp [zext8]
    · simp [zext8, BitVec.getLsbD_one]

theorem zext8_getElem (b : Bool) (j : Nat) (h : j < 8) : (zext8 b)[j] = (b && decide (j = 0)) := by
  rw [← BitVec.getLsbD_eq_getElem, zext8_getLsbD]

/-- Bit `i` of the assembled byte is bit `i` of the list. -/
theorem assembled_getLsbD {bs : List Bool} (h : bs.length = 8) (i : Nat) :
    (assembled bs).getLsbD i = (decide (i < 8) && bs.getD i false) := by
  match bs, h with
  | [b0, b1, b2, b3, b4, b5, b6, b7], _ =>
    by_cases hi : i < 8
    · have : i = 0 ∨ i = 1 ∨ i = 2 ∨ i = 3 ∨ i = 4 ∨ i = 5 ∨ i = 6 ∨ i = 7 := by omega
      rcases this with rfl | rfl | rfl | rfl | rfl | rfl | rfl | rfl <;>
        simp [assembled, List.range, List.range.loop, zext8_getElem]
    · simp [hi, BitVec.getLsbD_of_ge _ i (by omega : 8 ≤ i)]

end Sys2Proof.Machine
end

