-- ==== Sys2Proof/Laws/Rom.lean ====
section
/-! SUPPORT. The reset frame, the byte reads and the positions of the ROM search in terms of what the environment answers; bits of
the path register. -/

namespace Sys2Proof.Machine

/-- A reset frame that finds a presence. -/
theorem busReset_presence {s : State} {r : Byte} (h : s.answersTo [resetAsk] = [.echo r]) (hp : presence r) :
    busReset s = .ok (classify r, r) { s.afterFrames [resetAsk] with rstcls := presenceClass r, busReady := true } := by
  have hf : (sendFrame .reset resetByte s).1 = .echo r := by rw [(sendFrame_reset s).1, h]; rfl
  unfold busReset
  rw [frame_of_echo hf, Run.andThen_ok]
  show resetClassified r ((sendFrame .reset resetByte s).2.setBaudSel .normal) = _
  rw [(sendFrame_reset s).2]
  obtain ⟨h1, h2⟩ := hp
  by_cases h3 : r = 0xE0
  · rw [resetClassified_single (by simp [classify, h3])]
    simp [presenceClass, classify, h3, State.setRstcls, State.setBusReady]
  · have hc : classify r = .multipleDevicesPresent := by
      unfold classify; rw [if_neg h1, if_neg h2, if_neg h3]
    rw [resetClassified_multiple hc, hc, presenceClass, if_neg h3]
    rfl

/-- A reset frame that ends the command. -/
theorem busReset_failure {s : State} {o : LineOutcome} {c : StatusCode} {cls : Option RstCls}
    (h : s.answersTo [resetAsk] = [o]) (hf : resetFailure o = some (c, cls)) :
    ∃ u, busReset s = .stop c u ∧
      u.setBaudSel .normal = { s.afterFrames [resetAsk] with rstcls := cls.getD s.rstcls } ∧ c.clearsBusReady = true := by
  have h0 : (sendFrame .reset resetByte s).1 = o := by rw [(sendFrame_reset s).1, h]; rfl
  unfold busReset
  cases o with
  | writeFail =>
    cases hf
    exact ⟨_, by rw [frame_of_writeFail h0]; rfl, (sendFrame_reset s).2, rfl⟩
  | readFail =>
    cases hf
    exact ⟨_, by rw [frame_of_readFail h0]; rfl, (sendFrame_reset s).2, rfl⟩
  | timeout =>
    cases hf
    exact ⟨_, by rw [frame_of_timeout h0]; rfl, by rw [(sendFrame_reset s).2]; rfl, rfl⟩
  | echo r =>
    rw [frame_of_echo h0, Run.andThen_ok]
    simp only [resetFailure] at hf
    split at hf
    · next h1 =>
      cases hf
      exact ⟨_, resetClassified_none (by simp [classify, h1]), by rw [(sendFrame_reset s).2]; rfl, rfl⟩
    · split at hf
      · next h1 =>
        cases hf
        exact ⟨_, resetClassified_short (by simp [classify, h1]), by rw [(sendFrame_reset s).2]; rfl, rfl⟩
      · cases hf

/-- Put the bytes of a list of bits, eight bits each, where the read loop puts them. -/
def fillBytes : List Nat → Bytes8 → List Bool → Bytes8
  | [], b, _ => b
  | j :: js, b, bs => fillBytes js (setByteAt b j (assembled (bs.take 8))) (bs.drop 8)

theorem slots_length {vs : List Bool} {s u : State} {bs : List Bool} (h : slots vs s = .ok bs u) : bs.length = vs.length := by
  induction vs generalizing s bs with
  | nil => cases h; rfl
  | cons v vs ih =>
    simp only [slots] at h
    cases h1 : slot v s with
    | stop c t => simp [h1] at h
    | ok b t =>
      rw [h1, Run.andThen_ok] at h
      cases h2 : slots vs t with
      | stop c t' => simp [h2] at h
      | ok cs t' =>
        rw [h2, Run.andThen_ok] at h
        cases h
        simp [ih h2]

/-- Two runs of slots, the bits of the first discarded, are one run of slots. -/
theorem slots_then_slots {α : Type} (vs ws : List Bool) (s : State) (k : List Bool → State → Run α) :
    ((slots vs s).andThen fun _ s1 => (slots ws s1).andThen k) =
      (slots (vs ++ ws) s).andThen fun bs s1 => k (bs.drop vs.length) s1 := by
  rw [slots_append, Run.andThen_assoc]
  cases h : slots vs s with
  | stop c t => rfl
  | ok bs t =>
    have hl := slots_length h
    simp only [Run.andThen_ok, Run.andThen_assoc]
    congr 1; funext cs u
    rw [← hl, List.drop_left]

/-- The read loop is a run of slots, eight 1s for each byte. -/
theorem readBytes_eq (js : List Nat) (b : Bytes8) (s : State) :
    readBytes js b s = (slots (js.flatMap fun _ => bitsOf 0xFF) s).andThen fun bs s1 => .ok (fillBytes js b bs) s1 := by
  induction js generalizing b s with
  | nil => rfl
  | cons j js ih =>
    simp only [readBytes, touchByte_eq, List.flatMap_cons, slots_append, Run.andThen_assoc, Run.andThen_ok]
    cases h : slots (bitsOf 0xFF) s with
    | stop c t => rfl
    | ok bs t =>
      have hl := slots_length h
      simp only [bitsOf_length] at hl
      simp only [Run.andThen_ok, ih, fillBytes]
      congr 1; funext cs u
      rw [List.take_left' hl, List.drop_left' hl]

theorem getD_eq (v : Bytes8) (j : Nat) (d : Byte) : v.getD j d = (v[j]?).getD d := by
  by_cases h : j < 8 <;> simp [Vector.getD, h]

theorem byteAt_setByteAt (v : Bytes8) (i j : Nat) (x : Byte) :
    byteAt (setByteAt v i x) j = if i = j ∧ i < 8 then x else byteAt v j := by
  unfold byteAt setByteAt
  rw [getD_eq, getD_eq, Vector.getElem?_setIfInBounds]
  by_cases h : i = j
  · subst h
    by_cases h2 : i < 8 <;> simp [h2]
  · simp [h]

theorem byteAt_romFromReception (b : Bytes8) (i : Nat) (h : i < 8) : byteAt (romFromReception b) i = byteAt b (7 - i) := by
  unfold romFromReception
  rw [byteAt, getD_eq]
  simp [h]

theorem setBitAt_getLsbD (x : Byte) (i j : Nat) (b : Bool) (hi : i < 8) :
    (setBitAt x i b).getLsbD j = if i = j then b else x.getLsbD j := by
  unfold setBitAt
  by_cases hj : j < 8
  · rw [BitVec.getLsbD_or, BitVec.getLsbD_and, BitVec.getLsbD_not, BitVec.getLsbD_shiftLeft, BitVec.getLsbD_shiftLeft,
      zext8_getLsbD]
    rcases Nat.lt_trichotomy i j with h | h | h
    · have h3 : (1#8).getLsbD (j - i) = false := by simp [BitVec.getLsbD_one]; omega
      have h4 : ¬ j - i = 0 := by omega
      simp [hj, h3, h4, Nat.ne_of_lt h, Nat.not_lt.mpr (Nat.le_of_lt h)]
    · subst h; simp [hj]
    · simp [hj, h, Nat.ne_of_gt h]
  · have h1 : i ≠ j := by omega
    rw [if_neg h1, BitVec.getLsbD_of_ge _ _ (by omega), BitVec.getLsbD_of_ge _ _ (by omega)]

theorem and_seven (n : Nat) : n &&& 7 = n % 8 := Nat.and_two_pow_sub_one_eq_mod n 3

/-- One bit of the path written: that bit has the value, every other bit is as it was. -/
theorem sbit_setSbit (v : Bytes8) (n k : Nat) (b : Bool) (hn : 1 ≤ n) (hn' : n ≤ 64) (hk : 1 ≤ k) :
    sbit (setSbit v n b) k = if n = k then b else sbit v k := by
  unfold sbit setSbit
  rw [byteAt_setByteAt]
  simp only [and_seven, Nat.shiftRight_eq_div_pow]
  by_cases h : (n - 1) / 2 ^ 3 = (k - 1) / 2 ^ 3
  · rw [if_pos ⟨h, by omega⟩, setBitAt_getLsbD _ _ _ _ (by omega), h]
    by_cases h2 : (n - 1) % 8 = (k - 1) % 8
    · rw [if_pos h2, if_pos (by omega)]
    · rw [if_neg h2, if_neg (by omega)]
  · rw [if_neg (fun hc => h hc.1), if_neg (fun hc => h (by rw [hc]))]

/-- Byte `j` of the path is made of the path bits 8j+1 .. 8j+8. -/
theorem byteAt_getLsbD (v : Bytes8) (j i : Nat) (hi : i < 8) : (byteAt v j).getLsbD i = sbit v (8 * j + i + 1) := by
  unfold sbit
  simp only [and_seven, Nat.shiftRight_eq_div_pow]
  rw [show (8 * j + i + 1 - 1) / 2 ^ 3 = j by omega, show (8 * j + i + 1 - 1) % 8 = i by omega]

/-- Two path registers with the same 64 bits are the same. -/
theorem bytes8_ext {v w : Bytes8} (h : ∀ n, 1 ≤ n → n ≤ 64 → sbit v n = sbit w n) : v = w := by
  apply Vector.ext
  intro j hj
  have h1 : byteAt v j = byteAt w j := by
    apply BitVec.eq_of_getLsbD_eq
    intro i hi
    rw [byteAt_getLsbD _ _ _ hi, byteAt_getLsbD _ _ _ hi]
    exact h _ (by omega) (by omega)
  simpa [byteAt, getD_eq, hj] using h1

theorem searchDirection_eq (s : State) (n : Nat) : searchDirection s.lastDisc s.srom n = directionRule s n := by
  unfold searchDirection directionRule
  split
  · rfl
  · split <;> simp_all

/-- One search position at which no frame fails and a device answers. -/
theorem searchPosition_ok {n lz : Nat} {s : State} {a b c : LineOutcome} {dir : Bool}
    (h : s.answersTo (positionAsks dir) = [a, b, c]) (ha : a.failure = none) (hb : b.failure = none) (hc : c.failure = none)
    (hab : ¬(a.bit = true ∧ b.bit = true)) (hd : dir = searchTake a.bit b.bit s.lastDisc s.srom n) :
    searchPosition n lz s =
      .ok (searchLastZero a.bit b.bit dir n lz) ((s.afterFrames (positionAsks dir)).setSrom (setSbit s.srom n dir)) := by
  obtain ⟨a', h1, h2⟩ := s.answersTo_cons (slotAsk true) [slotAsk true, slotAsk dir]
  obtain ⟨b', h3, h4⟩ := (s.afterFrames [slotAsk true]).answersTo_cons (slotAsk true) [slotAsk dir]
  obtain ⟨c', h5, h6⟩ := ((s.afterFrames [slotAsk true]).afterFrames [slotAsk true]).answersTo_cons (slotAsk dir) []
  rw [positionAsks, h2, h4, h6] at h
  simp only [List.cons.injEq, State.answersTo_nil, and_true] at h
  obtain ⟨rfl, rfl, rfl⟩ := h
  have h7 : (((s.afterFrames [slotAsk true]).afterFrames [slotAsk true]).setSrom
      (setSbit s.srom n dir)).answersTo [slotAsk dir] = [c'] := h5
  unfold searchPosition
  rw [slot_ok h1 ha, Run.andThen_ok, slot_ok h3 hb, Run.andThen_ok, if_neg hab]
  show (slot (searchTake a'.bit b'.bit s.lastDisc s.srom n) _).andThen _ = _
  simp only [State.afterFrames_srom, State.afterFrames_lastDisc, ← hd]
  rw [slot_ok h7 hc, Run.andThen_ok, positionAsks, State.afterFrames_cons s (slotAsk true) [slotAsk true, slotAsk dir],
    State.afterFrames_cons (s.afterFrames [slotAsk true]) (slotAsk true) [slotAsk dir]]
  rfl

end Sys2Proof.Machine
end

