-- ==== Sys2Proof/Laws/Search.lean ====
section
/-! SUPPORT. A search position that ends the command, and the loop over search positions as a whole. -/

namespace Sys2Proof.Machine

/-- A search position whose frame `k` (0, 1 or 2) is the first to fail: the path bit is written only if the direction slot was
reached. -/
theorem searchPosition_stop {n lz k : Nat} {s : State} {dir : Bool} {c : StatusCode}
    (h : FirstFailure (s.answersTo (positionAsks dir)) k c)
    (hab : k = 2 → ¬(bitOf (s.answersTo (positionAsks dir)) 0 = true ∧ bitOf (s.answersTo (positionAsks dir)) 1 = true))
    (hd : k = 2 → dir =
      searchTake (bitOf (s.answersTo (positionAsks dir)) 0) (bitOf (s.answersTo (positionAsks dir)) 1) s.lastDisc s.srom n) :
    searchPosition n lz s =
      .stop c ((s.afterFrames ((positionAsks dir).take (k + 1))).setSrom (if k = 2 then setSbit s.srom n dir else s.srom)) := by
  obtain ⟨a, h1, h2⟩ := s.answersTo_cons (slotAsk true) [slotAsk true, slotAsk dir]
  obtain ⟨b, h3, h4⟩ := (s.afterFrames [slotAsk true]).answersTo_cons (slotAsk true) [slotAsk dir]
  obtain ⟨d, h5, -⟩ := ((s.afterFrames [slotAsk true]).afterFrames [slotAsk true]).answersTo_cons (slotAsk dir) []
  have hall : s.answersTo (positionAsks dir) = [a, b, d] := by rw [positionAsks, h2, h4, h5]
  have e0 : bitOf [a, b, d] 0 = a.bit := rfl
  have e1 : bitOf [a, b, d] 1 = b.bit := rfl
  rw [hall] at h hab hd
  rw [e0, e1] at hab hd
  unfold searchPosition
  rcases k with _ | _ | _ | k
  · have hf : a.failure = some c := by simpa [FirstFailure] using h.1
    rw [slot_stop h1 hf]; rfl
  · have h0 : a.failure = none := by simpa using h.2 0 (by omega)
    have hf : b.failure = some c := by simpa [FirstFailure] using h.1
    rw [slot_ok h1 h0, Run.andThen_ok, slot_stop h3 hf, State.afterFrames_append]; rfl
  · have h0 : a.failure = none := by simpa using h.2 0 (by omega)
    have h01 : b.failure = none := by simpa using h.2 1 (by omega)
    have hf : d.failure = some c := by simpa [FirstFailure] using h.1
    have h7 : (((s.afterFrames [slotAsk true]).afterFrames [slotAsk true]).setSrom
        (setSbit s.srom n dir)).answersTo [slotAsk dir] = [d] := h5
    rw [slot_ok h1 h0, Run.andThen_ok, slot_ok h3 h01, Run.andThen_ok, if_neg (hab rfl)]
    show (slot (searchTake a.bit b.bit s.lastDisc s.srom n) _).andThen _ = _
    simp only [State.afterFrames_srom, State.afterFrames_lastDisc, ← hd rfl]
    rw [slot_stop h7 hf, Run.andThen_stop, if_pos trivial]
    have : s.afterFrames ((positionAsks dir).take (0 + 1 + 1 + 1)) =
        ((s.afterFrames [slotAsk true]).afterFrames [slotAsk true]).afterFrames [slotAsk dir] := by
      rw [State.afterFrames_append, State.afterFrames_append]; rfl
    rw [this]; rfl
  · simp [FirstFailure] at h

/-- A search position at which no device answers. -/
theorem searchPosition_noResponse {n lz : Nat} {s : State} {a b : LineOutcome}
    (h : s.answersTo [slotAsk true, slotAsk true] = [a, b]) (ha : a.failure = none) (hb : b.failure = none)
    (hab : a.bit = true ∧ b.bit = true) :
    searchPosition n lz s = .stop .searchNoResponse (s.afterFrames [slotAsk true, slotAsk true]) := by
  obtain ⟨a', h1, h2⟩ := s.answersTo_cons (slotAsk true) [slotAsk true]
  obtain ⟨b', h3, h4⟩ := (s.afterFrames [slotAsk true]).answersTo_cons (slotAsk true) []
  rw [h2, h3] at h
  simp only [List.cons.injEq, and_true] at h
  obtain ⟨rfl, rfl⟩ := h
  unfold searchPosition
  rw [slot_ok h1 ha, Run.andThen_ok, slot_ok h3 hb, Run.andThen_ok, if_pos hab, State.afterFrames_append]; rfl

theorem searchLoop_append (ms ns : List Nat) (lz : Nat) (s : State) :
    searchLoop (ms ++ ns) lz s = (searchLoop ms lz s).andThen fun lz s => searchLoop ns lz s := by
  induction ms generalizing lz s with
  | nil => rfl
  | cons m ms ih =>
    simp only [List.cons_append, searchLoop, Run.andThen_assoc]
    congr 1; funext lz s; exact ih lz s

theorem bitOf_append_left {os ps : List LineOutcome} {i : Nat} (h : i < os.length) : bitOf (os ++ ps) i = bitOf os i := by
  simp [bitOf, List.getElem?_append_left h]

theorem bitOf_append_right {os ps : List LineOutcome} (i : Nat) : bitOf (os ++ ps) (os.length + i) = bitOf ps i := by
  rw [bitOf, bitOf, List.getElem?_append_right (by omega), Nat.add_sub_cancel_left]

/-- The directions `dirs` are those the positions `p + 1, p + 2, ...` take from the answers `os` (three for each position). -/
def Takes (lastDisc : Byte) (srom : Bytes8) (p : Nat) (os : List LineOutcome) (dirs : List Bool) : Prop :=
  ∀ j, j < dirs.length → ¬(bitOf os (3 * j) = true ∧ bitOf os (3 * j + 1) = true) ∧
    dirs.getD j false = searchTake (bitOf os (3 * j)) (bitOf os (3 * j + 1)) lastDisc srom (p + 1 + j)

/-- Everything the loop does over positions none of which fails: the frames, the path, and `last_zero`. -/
theorem searchLoop_ok (dirs : List Bool) (p lz : Nat) (s : State) (hb : s.baudSel = .normal) (hp : p + dirs.length ≤ 64)
    (hn : NoFailure (s.answersTo (dirs.flatMap positionAsks)))
    (ht : Takes s.lastDisc s.srom p (s.answersTo (dirs.flatMap positionAsks)) dirs) :
    ∃ (path : Bytes8) (lz' : Nat),
      searchLoop (List.range' (p + 1) dirs.length) lz s =
        .ok lz' ((s.afterFrames (dirs.flatMap positionAsks)).setSrom path) ∧
      (∀ n, 1 ≤ n → n ≤ 64 →
        sbit path n = if p < n ∧ n ≤ p + dirs.length then dirs.getD (n - p - 1) false else sbit s.srom n) ∧
      ((lz' = lz ∧ ∀ j, j < dirs.length →
          ¬(bitOf (s.answersTo (dirs.flatMap positionAsks)) (3 * j) =
            bitOf (s.answersTo (dirs.flatMap positionAsks)) (3 * j + 1) ∧ dirs.getD j false = false)) ∨
        ∃ j, j < dirs.length ∧ lz' = p + 1 + j ∧
          (bitOf (s.answersTo (dirs.flatMap positionAsks)) (3 * j) =
            bitOf (s.answersTo (dirs.flatMap positionAsks)) (3 * j + 1) ∧ dirs.getD j false = false) ∧
          ∀ i, j < i → i < dirs.length →
            ¬(bitOf (s.answersTo (dirs.flatMap positionAsks)) (3 * i) =
              bitOf (s.answersTo (dirs.flatMap positionAsks)) (3 * i + 1) ∧ dirs.getD i false = false)) := by
  induction dirs generalizing p lz s with
  | nil =>
    refine ⟨s.srom, lz, ?_, ?_, .inl ⟨rfl, ?_⟩⟩
    · simp [searchLoop, State.afterFrames_nil s hb]; rfl
    · intro n h1 h2
      rw [if_neg (by simp only [List.length_nil]; omega)]
    · intro j hj; simp at hj
  | cons d dirs ih =>
    rw [List.flatMap_cons, State.answersTo_append] at *
    have hlen : (s.answersTo (positionAsks d)).length = 3 := by simp [positionAsks]
    obtain ⟨a, b, c, habc⟩ : ∃ a b c, s.answersTo (positionAsks d) = [a, b, c] := by
      match h : s.answersTo (positionAsks d), hlen with
      | [a, b, c], _ => exact ⟨a, b, c, rfl⟩
    rw [habc] at hn ht ⊢
    have hj0 (i : Nat) : bitOf ([a, b, c] ++ (s.afterFrames (positionAsks d)).answersTo (dirs.flatMap positionAsks)) (3 * (i + 1)) =
        bitOf ((s.afterFrames (positionAsks d)).answersTo (dirs.flatMap positionAsks)) (3 * i) := by
      rw [show 3 * (i + 1) = [a, b, c].length + 3 * i by simp; omega, bitOf_append_right]
    have hj1 (i : Nat) : bitOf ([a, b, c] ++ (s.afterFrames (positionAsks d)).answersTo (dirs.flatMap positionAsks)) (3 * (i + 1) + 1) =
        bitOf ((s.afterFrames (positionAsks d)).answersTo (dirs.flatMap positionAsks)) (3 * i + 1) := by
      rw [show 3 * (i + 1) + 1 = [a, b, c].length + (3 * i + 1) by simp; omega, bitOf_append_right]
    have h00 : bitOf ([a, b, c] ++ (s.afterFrames (positionAsks d)).answersTo (dirs.flatMap positionAsks)) (3 * 0) = a.bit := rfl
    have h01 : bitOf ([a, b, c] ++ (s.afterFrames (positionAsks d)).answersTo (dirs.flatMap positionAsks)) (3 * 0 + 1) = b.bit := rfl
    have ht0 := ht 0 (by simp)
    rw [h00, h01] at ht0
    have hpos := searchPosition_ok (lz := lz) (n := p + 1) habc (hn a (by simp)) (hn b (by simp)) (hn c (by simp)) ht0.1
      (by simpa using ht0.2)
    simp only [List.length_cons] at hp
    obtain ⟨path, lz', hr, hpath, hz⟩ := ih (p + 1) (searchLastZero a.bit b.bit d (p + 1) lz)
      ((s.afterFrames (positionAsks d)).setSrom (setSbit s.srom (p + 1) d)) rfl (by omega)
      (fun o ho => hn o (by
        rw [List.mem_append]; exact .inr ho))
      (by
        intro j hj
        have := ht (j + 1) (by simpa using hj)
        rw [hj0, hj1] at this
        refine ⟨this.1, ?_⟩
        rw [show p + 1 + 1 + j = p + 1 + (j + 1) by omega]
        have h2 := this.2
        simp only [List.getD_cons_succ] at h2
        rw [h2]
        have hq : sbit (setSbit s.srom (p + 1) d) (p + 1 + (j + 1)) = sbit s.srom (p + 1 + (j + 1)) := by
          rw [sbit_setSbit _ _ _ _ (by omega) (by omega) (by omega), if_neg (by omega)]
        have hdir : searchDirection s.lastDisc (setSbit s.srom (p + 1) d) (p + 1 + (j + 1)) =
            searchDirection s.lastDisc s.srom (p + 1 + (j + 1)) := by
          simp only [searchDirection, hq]
        show _ = searchTake (bitOf ((s.afterFrames (positionAsks d)).answersTo (dirs.flatMap positionAsks)) (3 * j))
          (bitOf ((s.afterFrames (positionAsks d)).answersTo (dirs.flatMap positionAsks)) (3 * j + 1)) s.lastDisc
          (setSbit s.srom (p + 1) d) (p + 1 + (j + 1))
        simp only [searchTake, hdir])
    refine ⟨path, lz', ?_, ?_, ?_⟩
    · rw [List.length_cons, List.range'_succ]
      simp only [searchLoop]
      rw [hpos, Run.andThen_ok, hr]
      rw [← State.afterFrames_append s (positionAsks d)]
      rfl
    · intro n h1 h2
      rw [hpath n h1 h2]
      simp only [List.length_cons, State.setSrom_srom]
      by_cases hn1 : n = p + 1
      · subst hn1
        rw [if_neg (by omega), if_pos (by omega), sbit_setSbit _ _ _ _ (by omega) (by omega) (by omega), if_pos rfl]
        simp
      · by_cases hn2 : p + 1 < n ∧ n ≤ p + 1 + dirs.length
        · rw [if_pos hn2, if_pos (by omega), show n - p - 1 = (n - (p + 1) - 1) + 1 by omega, List.getD_cons_succ]
        · rw [if_neg hn2, if_neg (by omega), sbit_setSbit _ _ _ _ (by omega) (by omega) (by omega), if_neg (by omega)]
    · have hs1 : ((s.afterFrames (positionAsks d)).setSrom (setSbit s.srom (p + 1) d)).answersTo (dirs.flatMap positionAsks) =
          (s.afterFrames (positionAsks d)).answersTo (dirs.flatMap positionAsks) := rfl
      rw [hs1] at hz
      rcases hz with ⟨hz1, hz2⟩ | ⟨j, hj, hz1, hz2, hz3⟩
      · by_cases h0 : a.bit = b.bit ∧ d = false
        · refine .inr ⟨0, by simp, ?_, ?_, ?_⟩
          · rw [hz1]; unfold searchLastZero; rw [if_pos h0]
          · rw [h00, h01]; exact ⟨h0.1, by simpa using h0.2⟩
          · intro i hi hi2
            obtain ⟨i, rfl⟩ : ∃ i', i = i' + 1 := ⟨i - 1, by omega⟩
            rw [hj0, hj1, List.getD_cons_succ]
            exact hz2 i (by simpa using hi2)
        · refine .inl ⟨?_, ?_⟩
          · rw [hz1]; unfold searchLastZero; rw [if_neg h0]
          · intro i hi
            rcases i with _ | i
            · rw [h00, h01]; simpa using h0
            · rw [hj0, hj1, List.getD_cons_succ]
              exact hz2 i (by simpa using hi)
      · refine .inr ⟨j + 1, by simpa using hj, by omega, ?_, ?_⟩
        · rw [hj0, hj1, List.getD_cons_succ]; exact hz2
        · intro i hi hi2
          obtain ⟨i, rfl⟩ : ∃ i', i = i' + 1 := ⟨i - 1, by omega⟩
          rw [hj0, hj1, List.getD_cons_succ]
          exact hz3 i (by omega) (by simpa using hi2)

/-- Everything the loop does over positions when frame `k` of them is the first to fail. -/
theorem searchLoop_stop (dirs : List Bool) (p lz k : Nat) (c : StatusCode) (s : State) (hp : p + dirs.length ≤ 64)
    (hf : FirstFailure (s.answersTo (dirs.flatMap positionAsks)) k c)
    (ht : ∀ j, 3 * j + 1 < k →
      ¬(bitOf (s.answersTo (dirs.flatMap positionAsks)) (3 * j) = true ∧
        bitOf (s.answersTo (dirs.flatMap positionAsks)) (3 * j + 1) = true) ∧
      dirs.getD j false =
        searchTake (bitOf (s.answersTo (dirs.flatMap positionAsks)) (3 * j))
          (bitOf (s.answersTo (dirs.flatMap positionAsks)) (3 * j + 1)) s.lastDisc s.srom (p + 1 + j)) :
    ∃ path : Bytes8,
      searchLoop (List.range' (p + 1) dirs.length) lz s =
        .stop c ((s.afterFrames ((dirs.flatMap positionAsks).take (k + 1))).setSrom path) ∧
      ∀ n, 1 ≤ n → n ≤ 64 →
        sbit path n = if p < n ∧ n ≤ p + (k + 1) / 3 then dirs.getD (n - p - 1) false else sbit s.srom n := by
  induction dirs generalizing p lz s k with
  | nil => simp [FirstFailure] at hf
  | cons d dirs ih =>
    rw [List.flatMap_cons, State.answersTo_append] at *
    have hlen : (s.answersTo (positionAsks d)).length = 3 := by simp [positionAsks]
    obtain ⟨a, b, e, habc⟩ : ∃ a b e, s.answersTo (positionAsks d) = [a, b, e] := by
      match h : s.answersTo (positionAsks d), hlen with
      | [a, b, e], _ => exact ⟨a, b, e, rfl⟩
    rw [habc] at hf ht
    rw [List.length_cons, List.range'_succ]
    simp only [List.length_cons] at hp
    simp only [searchLoop]
    have h00 : bitOf ([a, b, e] ++ (s.afterFrames (positionAsks d)).answersTo (dirs.flatMap positionAsks)) (3 * 0) = a.bit := rfl
    have h01 : bitOf ([a, b, e] ++ (s.afterFrames (positionAsks d)).answersTo (dirs.flatMap positionAsks)) (3 * 0 + 1) = b.bit := rfl
    by_cases hk : k < 3
    · have hf' : FirstFailure (s.answersTo (positionAsks d)) k c := by
        rw [habc]
        refine ⟨?_, fun j hj => ?_⟩
        · have := hf.1; rwa [List.getElem?_append_left (by simpa using hk)] at this
        · have := hf.2 j hj; rwa [List.getElem?_append_left (by simp; omega)] at this
      have hst := searchPosition_stop (n := p + 1) (lz := lz) hf'
        (fun h2 => by rw [habc]; have := (ht 0 (by omega)).1; rw [h00, h01] at this; exact this)
        (fun h2 => by rw [habc]; have := (ht 0 (by omega)).2; rw [h00, h01] at this; exact this)
      have htk : (positionAsks d ++ dirs.flatMap positionAsks).take (k + 1) = (positionAsks d).take (k + 1) := by
        rw [List.take_append_of_le_length (by simp [positionAsks]; omega)]
      refine ⟨_, by rw [hst, Run.andThen_stop, htk], fun n h1 h2 => ?_⟩
      by_cases hk2 : k = 2
      · rw [if_pos hk2, sbit_setSbit _ _ _ _ (by omega) (by omega) (by omega)]
        by_cases hn : p + 1 = n
        · rw [if_pos hn, if_pos (by omega), show n - p - 1 = 0 by omega]; rfl
        · rw [if_neg hn, if_neg (by omega)]
      · rw [if_neg hk2, if_neg (by omega)]
    · obtain ⟨k, rfl⟩ : ∃ k', k = k' + 3 := ⟨k - 3, by omega⟩
      have hj0 (i : Nat) : bitOf ([a, b, e] ++ (s.afterFrames (positionAsks d)).answersTo (dirs.flatMap positionAsks)) (3 * (i + 1)) =
          bitOf ((s.afterFrames (positionAsks d)).answersTo (dirs.flatMap positionAsks)) (3 * i) := by
        rw [show 3 * (i + 1) = [a, b, e].length + 3 * i by simp; omega, bitOf_append_right]
      have hj1 (i : Nat) : bitOf ([a, b, e] ++ (s.afterFrames (positionAsks d)).answersTo (dirs.flatMap positionAsks)) (3 * (i + 1) + 1) =
          bitOf ((s.afterFrames (positionAsks d)).answersTo (dirs.flatMap positionAsks)) (3 * i + 1) := by
        rw [show 3 * (i + 1) + 1 = [a, b, e].length + (3 * i + 1) by simp; omega, bitOf_append_right]
      have hf' : FirstFailure ((s.afterFrames (positionAsks d)).answersTo (dirs.flatMap positionAsks)) k c := by
        refine ⟨?_, fun j hj => ?_⟩
        · have := hf.1
          rwa [List.getElem?_append_right (by simp), show k + 3 - [a, b, e].length = k by simp] at this
        · have := hf.2 (j + 3) (by omega)
          rwa [List.getElem?_append_right (by simp), show j + 3 - [a, b, e].length = j by simp] at this
      have ht0 := ht 0 (by omega)
      rw [h00, h01] at ht0
      have hpos := searchPosition_ok (lz := lz) (n := p + 1) habc (by simpa using hf.2 0 (by omega)) (by simpa using hf.2 1 (by omega))
        (by simpa using hf.2 2 (by omega)) ht0.1 (by simpa using ht0.2)
      obtain ⟨path, hr, hpath⟩ := ih (p + 1) (searchLastZero a.bit b.bit d (p + 1) lz) k
        ((s.afterFrames (positionAsks d)).setSrom (setSbit s.srom (p + 1) d)) (by omega) hf' (by
          intro j hj
          have := ht (j + 1) (by omega)
          rw [hj0, hj1] at this
          refine ⟨this.1, ?_⟩
          rw [show p + 1 + 1 + j = p + 1 + (j + 1) by omega]
          have h2 := this.2
          simp only [List.getD_cons_succ] at h2
          rw [h2]
          have hj64 : 3 * j + 1 < 3 * dirs.length := by
            have h3 : k < ((s.afterFrames (positionAsks d)).answersTo (dirs.flatMap positionAsks)).length := by
              by_contra hc
              have h4 := hf'.1
              rw [List.getElem?_eq_none (by omega)] at h4
              cases h4
            have h5 : (dirs.flatMap positionAsks).length = 3 * dirs.length := by
              rw [List.length_flatMap]; simp [positionAsks]; omega
            rw [State.answersTo_length, h5] at h3
            omega
          have hq : sbit (setSbit s.srom (p + 1) d) (p + 1 + (j + 1)) = sbit s.srom (p + 1 + (j + 1)) := by
            rw [sbit_setSbit _ _ _ _ (by omega) (by omega) (by omega), if_neg (by omega)]
          have hdir : searchDirection s.lastDisc (setSbit s.srom (p + 1) d) (p + 1 + (j + 1)) =
              searchDirection s.lastDisc s.srom (p + 1 + (j + 1)) := by
            simp only [searchDirection, hq]
          show _ = searchTake (bitOf ((s.afterFrames (positionAsks d)).answersTo (dirs.flatMap positionAsks)) (3 * j))
            (bitOf ((s.afterFrames (positionAsks d)).answersTo (dirs.flatMap positionAsks)) (3 * j + 1)) s.lastDisc
            (setSbit s.srom (p + 1) d) (p + 1 + (j + 1))
          simp only [searchTake, hdir])
      have htk : (positionAsks d ++ dirs.flatMap positionAsks).take (k + 3 + 1) =
          positionAsks d ++ (dirs.flatMap positionAsks).take (k + 1) := by
        rw [List.take_append, List.take_of_length_le (by simp [positionAsks]), show k + 3 + 1 - (positionAsks d).length = k + 1 by simp [positionAsks]]
      refine ⟨path, ?_, fun n h1 h2 => ?_⟩
      · rw [hpos, Run.andThen_ok, hr, htk, ← State.afterFrames_append s (positionAsks d)]
        rfl
      · rw [hpath n h1 h2]
        simp only [State.setSrom_srom]
        by_cases hn1 : n = p + 1
        · subst hn1
          rw [if_neg (by omega), if_pos (by omega), sbit_setSbit _ _ _ _ (by omega) (by omega) (by omega), if_pos rfl]
          simp
        · by_cases hn2 : p + 1 < n ∧ n ≤ p + 1 + (k + 1) / 3
          · rw [if_pos hn2, if_pos (by omega), show n - p - 1 = (n - (p + 1) - 1) + 1 by omega, List.getD_cons_succ]
          · rw [if_neg hn2, if_neg (by omega), sbit_setSbit _ _ _ _ (by omega) (by omega) (by omega), if_neg (by omega)]

end Sys2Proof.Machine
end

