-- ==== Sys2Proof/Laws/Commands.lean ====
section
/-! SUPPORT. The parts that several commands share: the link and bus checks, a reset frame followed by frames, the end of a command
by a failure on the line, and the bytes assembled from answers. -/

namespace Sys2Proof.Machine

theorem requireLink_open {s : State} (h : s.linkOpen = true) : requireLink s = .ok () s := by simp [requireLink, h]
theorem requireLink_closed {s : State} (h : s.linkOpen = false) : requireLink s = .stop .portClosed s := by simp [requireLink, h]
theorem requireBus_ready {s : State} (h : s.busReady = true) : requireBus s = .ok () s := by simp [requireBus, h]
theorem requireBus_notReady {s : State} (h : s.busReady = false) : requireBus s = .stop .busNotReady s := by simp [requireBus, h]

/-- The end of a command by a failure on the line (60_exceptions.md R152). -/
theorem abort_lineFailure {u v : State} {c : StatusCode} (h : u.setBaudSel .normal = v) (hc : c.clearsBusReady = true) :
    abort c u = { v with status := c, busReady := false } := by
  subst h
  unfold abort
  rw [if_pos hc]; rfl

/-- A command that sends the reset frame first and leaves a failed reset as it is fails fast (41_onewire_bus.md R98). -/
theorem failsFast_of_busReset (i : Instr) (k : ResetClass × Byte → State → Run Unit)
    (hi : ∀ s, s.linkOpen = true → exec i s = .next (endCommand ((busReset s).andThen k))) : FailsFast i id := by
  intro s o c cls hl h hf
  obtain ⟨u, hu, h3, hc⟩ := busReset_failure h hf
  rw [hi s hl, hu, Run.andThen_stop, endCommand_stop, abort_lineFailure h3 hc]
  rfl

/-- The status of a failed frame is one whose abort clears BUS_READY. -/
theorem firstFailure_clears {os : List LineOutcome} {k : Nat} {c : StatusCode} (h : FirstFailure os k c) :
    c.clearsBusReady = true := by
  have := h.1
  cases h1 : os[k]? with
  | none => simp [h1] at this
  | some o => rw [h1] at this; cases o <;> simp [LineOutcome.failure] at this <;> subst this <;> rfl

theorem noFailure_tail {o : LineOutcome} {os : List LineOutcome} (h : NoFailure (o :: os)) : NoFailure os :=
  fun p hp => h p (by simp [hp])

theorem firstFailure_tail {r0 : Byte} {os : List LineOutcome} {k : Nat} {c : StatusCode}
    (h : FirstFailure (.echo r0 :: os) k c) : ∃ k', k = k' + 1 ∧ FirstFailure os k' c := by
  cases k with
  | zero => simp [FirstFailure, LineOutcome.failure] at h
  | succ k => exact ⟨k, rfl, by simpa [FirstFailure] using h.1, fun j hj => by simpa using h.2 (j + 1) (by omega)⟩

/-- The byte assembled from eight answers is their touched byte. -/
theorem touched_assembled {os : List LineOutcome} {k : Nat} (hk : k + 8 ≤ os.length) :
    Touched (assembled (((os.map LineOutcome.bit).drop k).take 8)) os k := by
  intro i hi
  rw [assembled_getLsbD (by simp; omega)]
  simp [hi, bitOf, List.getD_eq_getElem?_getD, List.getElem?_drop]

/-- A reset frame that finds a presence, followed by the frames `fs`. -/
theorem busReset_then {s : State} {r0 : Byte} {fs : List FrameAsk}
    (h0 : (s.answersTo (resetAsk :: fs))[0]? = some (.echo r0)) (hp : presence r0) :
    ∃ s1 : State, busReset s = .ok (classify r0, r0) s1 ∧ s1.baudSel = .normal ∧
      s1 = { s.afterFrames [resetAsk] with rstcls := presenceClass r0, busReady := true } ∧
      (∀ gs, s.answersTo (resetAsk :: gs) = .echo r0 :: s1.answersTo gs) ∧
      ∀ gs, s1.afterFrames gs = { s.afterFrames (resetAsk :: gs) with rstcls := presenceClass r0, busReady := true } := by
  obtain ⟨o, h1, h2⟩ := s.answersTo_cons resetAsk fs
  rw [h2] at h0
  simp only [List.getElem?_cons_zero, Option.some.injEq] at h0
  subst h0
  refine ⟨_, busReset_presence h1 hp, rfl, rfl, fun gs => ?_, fun gs => ?_⟩
  · obtain ⟨o, h3, h4⟩ := s.answersTo_cons resetAsk gs
    rw [h1] at h3
    simp only [List.cons.injEq, and_true] at h3
    rw [h4, ← h3]
    rfl
  · rw [State.afterFrames_cons s resetAsk gs]
    rfl

/-- Byte `j` of the eight bytes the read loop fills. -/
theorem byteAt_fillBytes (bs : List Bool) (j : Nat) (hj : j < 8) :
    byteAt (fillBytes [0, 1, 2, 3, 4, 5, 6, 7] zeroBytes bs) j = assembled ((bs.drop (8 * j)).take 8) := by
  have : j = 0 ∨ j = 1 ∨ j = 2 ∨ j = 3 ∨ j = 4 ∨ j = 5 ∨ j = 6 ∨ j = 7 := by omega
  rcases this with rfl | rfl | rfl | rfl | rfl | rfl | rfl | rfl <;> simp [fillBytes, byteAt_setByteAt]

end Sys2Proof.Machine
end

