-- ==== Sys2Proof/Laws/CommandEnds.lean ====
section
/-! SUPPORT. Everything each command can do, said once: how it ends, with which frames sent and which registers written. -/

namespace Sys2Proof.Machine

/-- The reset frame found a presence. -/
structure Presence (s u : State) : Prop where
  sent : ResetSent s u
  baud : u.baudSel = .normal
  ready : u.busReady = true
  cls : u.rstcls = .classified .singleDevicePresent ∨ u.rstcls = .classified .multipleDevicesPresent

/-- The reset frame found a presence, and exactly `n` slots were sent after it. -/
def PresenceThen (n : Nat) (s u : State) : Prop := ∃ v, Presence s v ∧ SlotsExactly n v u

/-- The reset frame ended the command. -/
def ResetStopped (s : State) (c : StatusCode) (u : State) : Prop :=
  ResetSent s u ∧ u.busReady = s.busReady ∧
    (c = .noDevicesPresent ∧ u.rstcls = .classified .noDevicesPresent ∨
      c = .shortCircuit ∧ u.rstcls = .classified .shortCircuit ∨
      c = .noEcho ∧ u.rstcls = .noEcho ∨
      SlotFailure c ∧ u.rstcls = s.rstcls)

/-- A slot after a presence ended the command. -/
def SlotStopped (s : State) (c : StatusCode) (u : State) : Prop := SlotFailure c ∧ ∃ v, Presence s v ∧ SlotsSent v u

/-- How a command that starts with the reset frame can fail. -/
def BusStopped (s : State) (c : StatusCode) (u : State) : Prop :=
  (u = s ∧ c = .portClosed ∧ s.linkOpen = false) ∨ (s.linkOpen = true ∧ (ResetStopped s c u ∨ SlotStopped s c u))

/-- How a command that needs BUS_READY can fail. -/
def BitStopped (s : State) (c : StatusCode) (u : State) : Prop :=
  (u = s ∧ (c = .portClosed ∧ s.linkOpen = false ∨ c = .busNotReady ∧ s.linkOpen = true ∧ s.busReady = false)) ∨
    (s.linkOpen = true ∧ s.busReady = true ∧ SlotsSent s u ∧ SlotFailure c)

theorem busReset_ends' (s : State) :
    (busReset s).Ends (fun _ u => Presence s u) (fun c u => ResetStopped s c u) := by
  refine (busReset_ends s).imp ?_ (fun _ _ h => h)
  rintro ⟨cl, r⟩ u ⟨h1, h2, h3, h4, -, h5⟩
  refine ⟨h1, h2, h3, ?_⟩
  rcases h5 with h5 | h5
  · left; rw [h4]; exact congrArg _ h5
  · right; rw [h4]; exact congrArg _ h5

/-- A command that checks the link. -/
theorem requireLink_then {α : Type} {P : α → State → Prop} {Q : StatusCode → State → Prop} {s : State}
    {k : Unit → State → Run α} (hc : s.linkOpen = false → Q .portClosed s) (hk : s.linkOpen = true → (k () s).Ends P Q) :
    ((requireLink s).andThen k).Ends P Q := by
  cases h : s.linkOpen with
  | true => rw [requireLink_open h]; exact hk h
  | false => rw [requireLink_closed h]; exact hc h

/-- A command that checks BUS_READY. -/
theorem requireBus_then {α : Type} {P : α → State → Prop} {Q : StatusCode → State → Prop} {s : State}
    {k : Unit → State → Run α} (hc : s.busReady = false → Q .busNotReady s) (hk : s.busReady = true → (k () s).Ends P Q) :
    ((requireBus s).andThen k).Ends P Q := by
  cases h : s.busReady with
  | true => rw [requireBus_ready h]; exact hk h
  | false => rw [requireBus_notReady h]; exact hc h

/-- Everything UART.OPEN can do. -/
theorem openPort_ends (s : State) :
    (openPort s).Ends
      (fun _ u => (s.linkOpen = true ∧ u = s) ∨
        (s.linkOpen = false ∧ (drawOpen s).1 = .ok ∧ u = openLink ((s.setEnv (drawOpen s).2).record (.opened .ok))))
      (fun c u => s.linkOpen = false ∧ ∃ a, u = (s.setEnv (drawOpen s).2).record (.opened a) ∧
        (c = .portUnavailable ∧ a = .unavailable ∨ c = .portOpenFailed ∧ a = .openFailed)) := by
  unfold openPort
  cases h : s.linkOpen with
  | true => simp
  | false =>
    cases ho : (drawOpen s).1 <;> simp [ho]

/-- Everything OW.BIT can do. -/
theorem bitCommand_ends (v : Bool) (s : State) :
    (bitCommand v s).Ends
      (fun _ u => s.linkOpen = true ∧ s.busReady = true ∧ ∃ w x, SlotsExactly 1 s w ∧ u = w.setResult x)
      (BitStopped s) := by
  refine requireLink_then (fun h => .inl ⟨rfl, .inl ⟨rfl, h⟩⟩) fun hl => ?_
  refine requireBus_then (fun h => .inl ⟨rfl, .inr ⟨rfl, hl, h⟩⟩) fun hb => ?_
  refine Run.Ends.andThen (P := fun _ w => SlotsExactly 1 s w)
    ((slot_ends v s).imp (fun _ _ h => h) fun c u h => .inr ⟨hl, hb, h.1, h.2⟩) fun b w hw => ?_
  exact ⟨hl, hb, w, _, hw, rfl⟩

/-- Everything OW.BYTE can do. -/
theorem byteCommand_ends (d : Byte) (s : State) :
    (byteCommand d s).Ends
      (fun _ u => s.linkOpen = true ∧ s.busReady = true ∧ ∃ w x, SlotsExactly 8 s w ∧ u = w.setResult x)
      (BitStopped s) := by
  refine requireLink_then (fun h => .inl ⟨rfl, .inl ⟨rfl, h⟩⟩) fun hl => ?_
  refine requireBus_then (fun h => .inl ⟨rfl, .inr ⟨rfl, hl, h⟩⟩) fun hb => ?_
  refine Run.Ends.andThen (P := fun _ w => SlotsExactly 8 s w)
    ((touchByte_ends d s).imp (fun _ _ h => h) fun c u h => .inr ⟨hl, hb, h.1, h.2⟩) fun b w hw => ?_
  exact ⟨hl, hb, w, _, hw, rfl⟩

/-- Everything OW.TRIPLET can do. -/
theorem tripletCommand_ends (v : Bool) (s : State) :
    (tripletCommand v s).Ends
      (fun _ u => s.linkOpen = true ∧ s.busReady = true ∧ ∃ w x, SlotsExactly 3 s w ∧ u = w.setResult x)
      (BitStopped s) := by
  refine requireLink_then (fun h => .inl ⟨rfl, .inl ⟨rfl, h⟩⟩) fun hl => ?_
  refine requireBus_then (fun h => .inl ⟨rfl, .inr ⟨rfl, hl, h⟩⟩) fun hb => ?_
  refine Run.Ends.andThen (P := fun _ w => SlotsExactly 1 s w)
    ((slot_ends true s).imp (fun _ _ h => h) fun c u h => .inr ⟨hl, hb, h.1, h.2⟩) fun id w1 h1 => ?_
  refine Run.Ends.andThen (P := fun _ w => SlotsExactly 2 s w)
    ((slot_ends true w1).imp (fun _ _ h => h1.trans h) fun c u h => .inr ⟨hl, hb, h1.1.trans h.1, h.2⟩) fun cmp w2 h2 => ?_
  refine Run.Ends.andThen (P := fun _ w => SlotsExactly 3 s w)
    ((slot_ends (tripletDirection id cmp v) w2).imp (fun _ _ h => h2.trans h)
      fun c u h => .inr ⟨hl, hb, h2.1.trans h.1, h.2⟩) fun _ w3 h3 => ?_
  exact ⟨hl, hb, w3, _, h3, rfl⟩

/-- Everything OW.RESET can do. -/
theorem resetCommand_ends (s : State) :
    (resetCommand s).Ends (fun _ u => s.linkOpen = true ∧ ∃ w x, PresenceThen 0 s w ∧ u = w.setResult x) (BusStopped s) := by
  refine requireLink_then (fun h => .inl ⟨rfl, rfl, h⟩) fun hl => ?_
  refine Run.Ends.andThen (P := fun _ u => Presence s u)
    ((busReset_ends' s).imp (fun _ _ h => h) fun c u h => .inr ⟨hl, .inl h⟩) fun e w hw => ?_
  exact ⟨hl, w, _, ⟨w, hw, .refl w⟩, rfl⟩

/-- Everything OW.COMMAND can do. -/
theorem commandCommand_ends (target cmd : Byte) (s : State) :
    (commandCommand target cmd s).Ends
      (fun _ u => s.linkOpen = true ∧ ∃ w x, PresenceThen 16 s w ∧ u = w.setResult x) (BusStopped s) := by
  refine requireLink_then (fun h => .inl ⟨rfl, rfl, h⟩) fun hl => ?_
  refine Run.Ends.andThen (P := fun _ u => Presence s u)
    ((busReset_ends' s).imp (fun _ _ h => h) fun c u h => .inr ⟨hl, .inl h⟩) fun e w hw => ?_
  refine Run.Ends.andThen (P := fun _ u => SlotsExactly 8 w u)
    ((touchByte_ends target w).imp (fun _ _ h => h) fun c u h => .inr ⟨hl, .inr ⟨h.2, w, hw, h.1⟩⟩) fun _ w2 h2 => ?_
  refine Run.Ends.andThen (P := fun _ u => SlotsExactly 16 w u)
    ((touchByte_ends cmd w2).imp (fun _ _ h => h2.trans h) fun c u h => .inr ⟨hl, .inr ⟨h.2, w, hw, h2.1.trans h.1⟩⟩)
    fun _ w3 h3 => ?_
  exact ⟨hl, w3, _, ⟨w, hw, h3⟩, rfl⟩

/-- Everything OW.READROM can do. -/
theorem readRomCommand_ends (s : State) :
    (readRomCommand s).Ends
      (fun _ u => s.linkOpen = true ∧ ∃ w x, PresenceThen 72 s w ∧ u = w.setRom x) (BusStopped s) := by
  refine requireLink_then (fun h => .inl ⟨rfl, rfl, h⟩) fun hl => ?_
  refine Run.Ends.andThen (P := fun _ u => Presence s u)
    ((busReset_ends' s).imp (fun _ _ h => h) fun c u h => .inr ⟨hl, .inl h⟩) fun e w hw => ?_
  refine Run.Ends.andThen (P := fun _ u => SlotsExactly 8 w u)
    ((touchByte_ends byteReadRom w).imp (fun _ _ h => h) fun c u h => .inr ⟨hl, .inr ⟨h.2, w, hw, h.1⟩⟩) fun _ w2 h2 => ?_
  refine Run.Ends.andThen (P := fun _ u => SlotsExactly 72 w u)
    ((readBytes_ends _ _ w2).imp (fun _ _ h => h2.trans h) fun c u h => .inr ⟨hl, .inr ⟨h.2, w, hw, h2.1.trans h.1⟩⟩)
    fun _ w3 h3 => ?_
  exact ⟨hl, w3, _, ⟨w, hw, h3⟩, rfl⟩

/-- Everything OW.SEARCHRST can do. -/
theorem searchResetCommand_ends (s : State) :
    (searchResetCommand s).Ends (fun _ u => s.linkOpen = true ∧ u = (searchFirst s).setSrom zeroBytes)
      (fun c u => u = s ∧ c = .portClosed ∧ s.linkOpen = false) :=
  requireLink_then (fun h => ⟨rfl, rfl, h⟩) fun hl => ⟨hl, rfl⟩

/-- Slots were sent from `s` to `u` and the path was written in between: `u` with the path of `s` is reached by slots alone. -/
theorem SlotsSent.setSrom {s u : State} (h : SlotsSent s (u.setSrom s.srom)) (p : Bytes8) :
    SlotsSent (s.setSrom p) (u.setSrom p) := by
  obtain ⟨h1, h2⟩ := h
  exact ⟨⟨h1.status, h1.result, h1.rstcls, h1.linkOpen, h1.busReady, h1.lastDev, h1.lastDisc, h1.rom, rfl, h1.host,
    h1.wiredAnd, h1.portPath, h1.trace⟩, h2⟩

theorem SlotsExactly.setSrom {n : Nat} {s u : State} (h : SlotsExactly n s (u.setSrom s.srom)) (p : Bytes8) :
    SlotsExactly n (s.setSrom p) (u.setSrom p) := ⟨h.1.setSrom p, h.2⟩

/-- A slot leaves the path. -/
theorem SlotsSent.setSrom_self {s u : State} (h : SlotsSent s u) : SlotsSent s (u.setSrom s.srom) := by
  rw [← h.1.srom]; exact h

theorem SlotsExactly.setSrom_self {n : Nat} {s u : State} (h : SlotsExactly n s u) : SlotsExactly n s (u.setSrom s.srom) :=
  ⟨h.1.setSrom_self, h.2⟩

/-- The failures a search position can end a pass with. -/
def PositionFailure (c : StatusCode) : Prop := SlotFailure c ∨ c = .searchNoResponse

/-- Everything one search position can do: three slots are sent and a path bit is written. -/
theorem searchPosition_ends (n lz : Nat) (s : State) :
    (searchPosition n lz s).Ends (fun x u => SlotsExactly 3 s (u.setSrom s.srom) ∧ (x = lz ∨ x = n))
      (fun c u => SlotsSent s (u.setSrom s.srom) ∧ PositionFailure c) := by
  unfold searchPosition
  refine Run.Ends.andThen (P := fun _ w => SlotsExactly 1 s w)
    ((slot_ends true s).imp (fun _ _ h => h) fun c u h => ⟨h.1.setSrom_self, .inl h.2⟩) fun id w1 h1 => ?_
  refine Run.Ends.andThen (P := fun _ w => SlotsExactly 2 s w)
    ((slot_ends true w1).imp (fun _ _ h => h1.trans h) fun c u h => ⟨(h1.1.trans h.1).setSrom_self, .inl h.2⟩)
    fun cmp w2 h2 => ?_
  split
  · exact ⟨h2.1.setSrom_self, .inr rfl⟩
  · have h2' : SlotsExactly 2 s (w2.setSrom s.srom) := h2.setSrom_self
    refine Run.Ends.andThen (P := fun _ w => SlotsExactly 3 s (w.setSrom s.srom)) ((slot_ends _ _).imp ?_ ?_) ?_
    · intro _ u h
      exact h2'.trans (SlotsExactly.setSrom h.setSrom_self s.srom)
    · intro c u h
      exact ⟨h2'.1.trans (SlotsSent.setSrom h.1.setSrom_self s.srom), .inl h.2⟩
    · intro _ u h
      refine ⟨h, ?_⟩
      unfold searchLastZero
      split
      · exact .inr rfl
      · exact .inl rfl

/-- Everything the search loop can do. -/
theorem searchLoop_ends (ns : List Nat) (lz : Nat) (s : State) :
    (searchLoop ns lz s).Ends (fun x u => SlotsExactly (3 * ns.length) s (u.setSrom s.srom) ∧ (x = lz ∨ x ∈ ns))
      (fun c u => SlotsSent s (u.setSrom s.srom) ∧ PositionFailure c) := by
  induction ns generalizing lz s with
  | nil => exact ⟨SlotsExactly.refl s, .inl rfl⟩
  | cons n ns ih =>
    refine Run.Ends.andThen (searchPosition_ends n lz s) fun x u hu => ?_
    refine (ih x u).imp (fun y v h => ⟨?_, ?_⟩) fun c v h => ⟨hu.1.1.trans (SlotsSent.setSrom h.1 s.srom), h.2⟩
    · rw [List.length_cons, Nat.mul_add, Nat.add_comm]
      exact hu.1.trans (SlotsExactly.setSrom h.1 s.srom)
    · rcases h.2 with h2 | h2
      · rcases hu.2 with h3 | h3
        · exact .inl (h2.trans h3)
        · exact .inr (by rw [h2, h3]; exact List.mem_cons_self)
      · exact .inr (List.mem_cons_of_mem n h2)

/-- What a successful pass writes: the path, LAST_DISC, LAST_DEV and ROM. -/
def searchDone (path rom : Bytes8) (last : Nat) (s : State) : State :=
  ((((s.setSrom path).setLastDisc (BitVec.ofNat 8 last)).setLastDev (if last = 0 then true else s.lastDev))).setRom rom

/-- A pass that ended after a presence: the path may hold new bits. -/
def PassStopped (s : State) (c : StatusCode) (u : State) : Prop :=
  (PositionFailure c ∨ c = .searchZeroFamily) ∧ ∃ v, Presence s v ∧ SlotsSent v (u.setSrom v.srom)

/-- Everything a pass can do. -/
theorem searchPass_ends (m : SearchMode) (s : State) :
    (searchPass m s).Ends
      (fun _ u => ∃ w path rom last, PresenceThen 200 s w ∧ last ≤ 64 ∧ u = searchDone path rom last w)
      (fun c u => ResetStopped s c u ∨ PassStopped s c u) := by
  refine Run.Ends.andThen (P := fun _ u => Presence s u)
    ((busReset_ends' s).imp (fun _ _ h => h) fun c u h => .inl h) fun e w hw => ?_
  refine Run.Ends.andThen (P := fun _ u => SlotsExactly 8 w u)
    ((touchByte_ends _ w).imp (fun _ _ h => h)
      fun c u h => .inr ⟨.inl (.inl h.2), w, hw, h.1.setSrom_self⟩) fun _ w2 h2 => ?_
  have h2' := h2.setSrom_self
  refine Run.Ends.andThen (P := fun x u => SlotsExactly 200 w (u.setSrom w.srom) ∧ x ≤ 64)
    ((searchLoop_ends searchPositions 0 w2).imp (fun x u h => ⟨?_, ?_⟩) fun c u h => .inr ⟨.inl h.2, w, hw, ?_⟩)
    fun last w3 h3 => ?_
  · exact h2'.trans (SlotsExactly.setSrom h.1 w.srom)
  · rcases h.2 with h4 | h4
    · omega
    · unfold searchPositions at h4
      rw [List.mem_range'] at h4
      omega
  · exact h2'.1.trans (SlotsSent.setSrom h.1 w.srom)
  · unfold searchFound
    split
    · exact .inr ⟨.inr rfl, w, hw, h3.1.1⟩
    · refine ⟨w3.setSrom w.srom, w3.srom, romFromReception w3.srom, last, ⟨w, hw, h3.1⟩, h3.2, ?_⟩
      by_cases hl : last = 0
      · simp only [searchDone, if_pos hl]; rfl
      · simp only [searchDone, if_neg hl]; rfl

/-- Everything OW.SEARCH can do. -/
theorem searchCommand_ends (m : SearchMode) (s : State) :
    (searchCommand m s).Ends
      (fun _ u => s.linkOpen = true ∧ s.lastDev = false ∧
        ∃ w path rom last, PresenceThen 200 s w ∧ last ≤ 64 ∧ u = searchDone path rom last w)
      (fun c u => (u = s ∧ c = .portClosed ∧ s.linkOpen = false) ∨
        (s.linkOpen = true ∧ ((c = .searchExhausted ∧ s.lastDev = true ∧ u = searchFirst s) ∨
          (s.lastDev = false ∧ ∃ v, (ResetStopped s c v ∨ PassStopped s c v) ∧ u = searchFirst v)))) := by
  refine requireLink_then (fun h => .inl ⟨rfl, rfl, h⟩) fun hl => ?_
  cases hd : s.lastDev with
  | true => exact .inr ⟨hl, .inl ⟨rfl, rfl, rfl⟩⟩
  | false =>
    exact ((searchPass_ends m s).imp (P' := fun _ u => s.linkOpen = true ∧ false = false ∧
      ∃ w path rom last, PresenceThen 200 s w ∧ last ≤ 64 ∧ u = searchDone path rom last w) (fun _ _ h => ⟨hl, rfl, h⟩)
      (fun _ _ h => h)).onAbort fun c v h => .inr ⟨hl, .inr ⟨rfl, v, h, rfl⟩⟩

end Sys2Proof.Machine
end

