-- ==== Sys2Proof/Laws/Decode.lean ====
section
/-! SUPPORT. The fields of a command word and its opcode byte: taking a word apart and putting it together. -/

namespace Sys2Proof

theorem byte_of_fields {w : Word} {k : Nat} {x : Byte} (h : ∀ i, i < 8 → w.getLsbD (k + i) = x.getLsbD i) :
    w.extractLsb' k 8 = x := by
  apply BitVec.eq_of_getLsbD_eq
  intro i hi
  rw [BitVec.getLsbD_extractLsb', h i hi]
  simp [hi]

theorem Word.ofFields_getLsbD (opc rsv a b : Byte) (i : Nat) :
    (Word.ofFields opc rsv a b).getLsbD i =
      if i < 8 then b.getLsbD i else if i < 16 then a.getLsbD (i - 8) else if i < 24 then rsv.getLsbD (i - 16)
      else if i < 32 then opc.getLsbD (i - 24) else false := by
  have hz (x : Byte) (j : Nat) (h : 8 ≤ j) : x.getLsbD j = false := BitVec.getLsbD_of_ge x j h
  simp only [Word.ofFields, BitVec.getLsbD_or, BitVec.getLsbD_shiftLeft, BitVec.getLsbD_setWidth]
  by_cases h1 : i < 8
  · simp [h1, show i < 16 by omega, show i < 24 by omega, show i < 32 by omega]
  · by_cases h2 : i < 16
    · simp [h1, h2, show i < 24 by omega, show i < 32 by omega, hz b i (by omega)]
      intro; omega
    · by_cases h3 : i < 24
      · simp [h1, h2, h3, show i < 32 by omega, hz b i (by omega), hz a (i - 8) (by omega)]
        intro; omega
      · by_cases h4 : i < 32
        · simp [h1, h2, h3, h4, hz b i (by omega), hz a (i - 8) (by omega), hz rsv (i - 16) (by omega)]
          intro; omega
        · simp [h1, h2, h3, h4]

section fields
variable (opc rsv a b : Byte)
theorem Word.ofFields_opc : (Word.ofFields opc rsv a b).opc = opc :=
  byte_of_fields fun i hi => by
    rw [Word.ofFields_getLsbD, if_neg (by omega), if_neg (by omega), if_neg (by omega), if_pos (by omega),
      show 24 + i - 24 = i by omega]
theorem Word.ofFields_rsv : (Word.ofFields opc rsv a b).rsv = rsv :=
  byte_of_fields fun i hi => by
    rw [Word.ofFields_getLsbD, if_neg (by omega), if_neg (by omega), if_pos (by omega), show 16 + i - 16 = i by omega]
theorem Word.ofFields_opA : (Word.ofFields opc rsv a b).opA = a :=
  byte_of_fields fun i hi => by
    rw [Word.ofFields_getLsbD, if_neg (by omega), if_pos (by omega), show 8 + i - 8 = i by omega]
theorem Word.ofFields_opB : (Word.ofFields opc rsv a b).opB = b :=
  byte_of_fields fun i hi => by
    rw [Word.ofFields_getLsbD, if_pos (by omega), show 0 + i = i by omega]
end fields

/-- A word is its four fields. -/
theorem Word.ofFields_eta (w : Word) : Word.ofFields w.opc w.rsv w.opA w.opB = w := by
  apply BitVec.eq_of_getLsbD_eq
  intro i hi
  rw [Word.ofFields_getLsbD]
  simp only [Word.opc, Word.rsv, Word.opA, Word.opB, BitVec.getLsbD_extractLsb']
  split
  · simp [*]
  · split
    · rw [show 8 + (i - 8) = i by omega]; simp; omega
    · split
      · rw [show 16 + (i - 16) = i by omega]; simp; omega
      · rw [show 24 + (i - 24) = i by omega]; simp; omega

theorem Opcode.ofByte_byte (op : Opcode) : Opcode.ofByte op.byte = some op := by cases op <;> rfl

theorem Opcode.byte_of_ofByte {b : Byte} {op : Opcode} (h : Opcode.ofByte b = some op) : b = op.byte := by
  unfold Opcode.ofByte at h
  repeat' (split at h; · cases h; assumption)
  cases h

/-- Bits 7..1 of an operand byte are zero exactly when it is a bit operand. -/
theorem bitOperand_iff (b : Byte) : b.extractLsb' 1 7 = 0 ↔ bitOperand b[0] = b := by
  revert b; decide +kernel

theorem bitOperand_high (v : Bool) : (bitOperand v).extractLsb' 1 7 = 0 := by cases v <;> rfl
theorem bitOperand_low (v : Bool) : (bitOperand v)[0] = v := by cases v <;> rfl
theorem SearchMode.ofBit_bit (m : SearchMode) : SearchMode.ofBit m.bit = m := by cases m <;> rfl
theorem SearchMode.bit_ofBit (v : Bool) : (SearchMode.ofBit v).bit = v := by cases v <;> rfl

/-- When a command with fixed-zero operand bits is decoded. -/
theorem fixedZero_ok {p : Bool} {i j : Instr} : fixedZero p i = .ok j ↔ p = true ∧ i = j := by
  cases p <;> simp [fixedZero]

end Sys2Proof
end

