-- ==== Sys2Proof/Laws/HostProgram.lean ====
section
/-! SUPPORT. What one command of a host program does, how the parts of a host program follow one another, and the ports of
several instances. -/

namespace Sys2Proof.Machine

@[simp] theorem HostRun.andThen_done {α β : Type} (a : α) (s : State) (k : α → State → HostRun β) :
    (HostRun.done a s).andThen k = k a s := rfl
@[simp] theorem HostRun.andThen_failed {α β : Type} (f : HostFailure) (s : State) (k : α → State → HostRun β) :
    (HostRun.failed f s : HostRun α).andThen k = .failed f s := rfl
@[simp] theorem HostRun.andThen_cancelled {α β : Type} (s : State) (k : α → State → HostRun β) :
    (HostRun.cancelled s : HostRun α).andThen k = .cancelled s := rfl
@[simp] theorem HostRun.andThen_refused {α β : Type} (r : Refusal) (s : State) (k : α → State → HostRun β) :
    (HostRun.refused r s : HostRun α).andThen k = .refused r s := rfl

/-- OK is the only status with code 0x00. -/
theorem StatusCode.code_eq_zero {c : StatusCode} : c.code = 0x00 ↔ c = .ok := by cases c <;> decide

/-- A command whose word decodes to it goes to `exec`. -/
theorem commandPort_of_decode {w : Word} {i : Instr} (h : decode w = .ok i) (s : State) : commandPort w s = exec i s := by
  unfold commandPort; rw [h]

/-- A refused word. -/
theorem commandPort_of_error {w : Word} {e : Illegal} (h : decode w = .error e) (s : State) :
    commandPort w s = .next (illegalCommand s) := by
  unfold commandPort; rw [h]

section advance
variable (s : State)
@[simp] theorem advanceHost_status : (advanceHost s).status = s.status := rfl
@[simp] theorem advanceHost_result : (advanceHost s).result = s.result := rfl
@[simp] theorem advanceHost_rstcls : (advanceHost s).rstcls = s.rstcls := rfl
@[simp] theorem advanceHost_linkOpen : (advanceHost s).linkOpen = s.linkOpen := rfl
@[simp] theorem advanceHost_busReady : (advanceHost s).busReady = s.busReady := rfl
@[simp] theorem advanceHost_baudSel : (advanceHost s).baudSel = s.baudSel := rfl
@[simp] theorem advanceHost_lastDev : (advanceHost s).lastDev = s.lastDev := rfl
@[simp] theorem advanceHost_lastDisc : (advanceHost s).lastDisc = s.lastDisc := rfl
@[simp] theorem advanceHost_rom : (advanceHost s).rom = s.rom := rfl
@[simp] theorem advanceHost_srom : (advanceHost s).srom = s.srom := rfl
@[simp] theorem advanceHost_trace : (advanceHost s).trace = s.trace := rfl
@[simp] theorem advanceHost_env : (advanceHost s).env = s.env := rfl
@[simp] theorem advanceHost_answersTo (fs : List FrameAsk) : (advanceHost s).answersTo fs = s.answersTo fs := rfl
end advance

/-- An answered event changes neither of the parameters P_WIRED_AND and P_PORT_PATH. -/
@[simp] theorem Env.afterEvent_portPath (e : Env) (v : Event) : (e.afterEvent v).portPath = e.portPath := by
  cases v with
  | frame baud t o => exact Env.nextEcho_portPath _ _ _ _
  | opened a => simp only [Env.afterEvent]; split <;> rfl
  | closed => rfl
@[simp] theorem Env.afterEvent_wiredAnd (e : Env) (v : Event) : (e.afterEvent v).wiredAnd = e.wiredAnd := by
  cases v with
  | frame baud t o => exact Env.nextEcho_wiredAnd _ _ _ _
  | opened a => simp only [Env.afterEvent]; split <;> rfl
  | closed => rfl

@[simp] theorem resetOn_portPath (path : String) : (resetOn path).env.portPath = path := rfl

/-- Instances right after reset serve distinct ports exactly when their paths are distinct (00_scope.md R8). -/
theorem distinctPorts_instancesOn (paths : List String) : DistinctPorts (instancesOn paths) ↔ paths.Nodup := by
  unfold DistinctPorts instancesOn
  rw [List.map_map, show ((fun s : State => s.env.portPath) ∘ resetOn) = id from rfl, List.map_id]

end Sys2Proof.Machine
end

