-- ==== Sys2Proof/Laws/PerInstr.lean ====
section
/-! SUPPORT. The family `LegalWord`: the encoder gives every command a word that exactly the opcode table's rows admit
(30_encoding.md R61). -/

namespace Sys2Proof.Laws

/-- The word of the command is legal by the match and mask table. -/
def LegalWord.Statement (i : Instr) : Prop := (encode i).legal = true

theorem LegalWord.uartOpen : LegalWord.Statement .uartOpen := by unfold LegalWord.Statement; decide
theorem LegalWord.uartClose : LegalWord.Statement .uartClose := by unfold LegalWord.Statement; decide
theorem LegalWord.owReset : LegalWord.Statement .owReset := by unfold LegalWord.Statement; decide
theorem LegalWord.owBit (v : Bool) : LegalWord.Statement (.owBit v) := by
  unfold LegalWord.Statement; revert v; decide

/-- A row that fixes the bits of its mask selects every word that has them, whatever the other bits are. -/
theorem legal_of_row {w : Word} (r : OpcodeRow) (hr : r ∈ opcodeRows)
    (h : ∀ i, i < 32 → (w.getLsbD i && r.mask.getLsbD i) = r.matchBits.getLsbD i) : w.legal = true := by
  refine List.any_eq_true.2 ⟨r, hr, ?_⟩
  refine decide_eq_true (BitVec.eq_of_getLsbD_eq fun i hi => ?_)
  rw [BitVec.getLsbD_and]; exact h i hi

theorem LegalWord.owByte (d : Byte) : LegalWord.Statement (.owByte d) := by
  refine legal_of_row ⟨.owByte, 0x12000000, 0xFFFFFF00⟩ (by decide) fun i hi => ?_
  simp only [encode, Word.ofFields_getLsbD]
  by_cases h : i < 8
  · have : (0xFFFFFF00 : Word).getLsbD i = false := (by decide : ∀ i, i < 8 → (0xFFFFFF00 : Word).getLsbD i = false) i h
    rw [this, Bool.and_false]
    exact (by decide : ∀ i, i < 8 → false = (0x12000000 : Word).getLsbD i) i h
  · rw [if_neg h]
    exact (by decide : ∀ i, i < 32 → ¬i < 8 →
      ((if i < 16 then (0 : Byte).getLsbD (i - 8) else if i < 24 then (0 : Byte).getLsbD (i - 16)
        else if i < 32 then (Opcode.byte .owByte).getLsbD (i - 24) else false) && (0xFFFFFF00 : Word).getLsbD i) =
          (0x12000000 : Word).getLsbD i) i hi h

theorem LegalWord.owCommand (target cmd : Byte) : LegalWord.Statement (.owCommand target cmd) := by
  refine legal_of_row ⟨.owCommand, 0x13000000, 0xFFFF0000⟩ (by decide) fun i hi => ?_
  simp only [encode, Word.ofFields_getLsbD]
  by_cases h : i < 16
  · have : (0xFFFF0000 : Word).getLsbD i = false := (by decide : ∀ i, i < 16 → (0xFFFF0000 : Word).getLsbD i = false) i h
    rw [this, Bool.and_false]
    exact (by decide : ∀ i, i < 16 → false = (0x13000000 : Word).getLsbD i) i h
  · rw [if_neg (by omega), if_neg h]
    exact (by decide : ∀ i, i < 32 → ¬i < 16 →
      ((if i < 24 then (0 : Byte).getLsbD (i - 16)
        else if i < 32 then (Opcode.byte .owCommand).getLsbD (i - 24) else false) && (0xFFFF0000 : Word).getLsbD i) =
          (0x13000000 : Word).getLsbD i) i hi h

theorem LegalWord.owReadrom : LegalWord.Statement .owReadrom := by unfold LegalWord.Statement; decide
theorem LegalWord.owTriplet (v : Bool) : LegalWord.Statement (.owTriplet v) := by
  unfold LegalWord.Statement; revert v; decide
theorem LegalWord.owSearch (m : SearchMode) : LegalWord.Statement (.owSearch m) := by
  unfold LegalWord.Statement; cases m <;> decide
theorem LegalWord.owSearchrst : LegalWord.Statement .owSearchrst := by unfold LegalWord.Statement; decide

end Sys2Proof.Laws
end

