-- ==== Sys2Proof/Tests/Slice0.lean ====
section
/-! SUPPORT. Tests of one step or one operation each, with results from the spec (most from 95_test_vectors.md, named by vector),
and a witness for the hypotheses of each statement. -/

namespace Sys2Proof.Tests

open Sys2Proof.Machine

/-! ### Helpers -/

/-- The outcome is a next state with the property. -/
def goes (o : Host.Outcome State Fault Refusal) (p : State → Bool) : Bool :=
  match o with
  | .next t => p t
  | .fault _ => false
  | .refused _ => false

/-- The host program part ended in the given way. -/
def hostDone {α : Type} (r : HostRun α) (p : α → State → Bool) : Bool :=
  match r with
  | .done a s => p a s
  | _ => false
def hostFailed {α : Type} (r : HostRun α) (p : HostFailure → State → Bool) : Bool :=
  match r with
  | .failed f s => p f s
  | _ => false

/-- S1 of 95_test_vectors.md: the link is open; the next frames are answered by the script. -/
def s1 (script : List LineOutcome) : State :=
  { State.reset with
    linkOpen := true
    trace := [.opened .ok]
    env := { State.reset.env with echoes := script, oracle := .loopback } }

/-- S2 of 95_test_vectors.md: and a reset has found one device. -/
def s2 (script : List LineOutcome) : State :=
  { s1 script with
    busReady := true
    result := 0xE0
    rstcls := .classified .singleDevicePresent
    trace := [.opened .ok, .frame 9600 0xF0 (.echo 0xE0)] }

/-- S0 with a scripted answer to opening the port. -/
def s0 (a : OpenAnswer) : State := { State.reset with env := { State.reset.env with opens := [a] } }

/-- The script `RD(x)` of 95_test_vectors.md. -/
def rd (x : Byte) : List LineOutcome :=
  [0, 1, 2, 3, 4, 5, 6, 7].map fun i => .echo (if x.getLsbD i then 0xFF else 0xFE)

/-- The script `LB` for the eight slots of a byte. -/
def lb (x : Byte) : List LineOutcome :=
  [0, 1, 2, 3, 4, 5, 6, 7].map fun i => .echo (if x.getLsbD i then 0xFF else 0x00)

def bytes (l : List Byte) : Bytes8 := Vector.ofFn fun i => l.getD i.val 0x00

/-- Devices A and B of V-SEARCH-2. -/
def deviceA : Bytes8 := bytes [0x28, 0x01, 0, 0, 0, 0, 0, 0xAA]
def deviceB : Bytes8 := bytes [0x28, 0x02, 0, 0, 0, 0, 0, 0xAA]

/-- S1 with both devices on a wired-AND line. -/
def s1AB : State :=
  { s1 [] with env := { (s1 []).env with wiredAnd := true, oracle := .devices (Population.init [deviceA, deviceB] [deviceA]) } }

/-- A state whose host is about to take one step. -/
def hosting (h : HostStep) (s : State) : State := { s with host := { s.host with program := [h], pc := 0 } }

/-! ### WellFormed: each check refuses an ill-formed command (30_encoding.md R59, R64) -/

theorem test_wellFormed_none : RawCommand.wellFormed ⟨.owReset, [0]⟩ = false := by decide
theorem test_wellFormed_bit : RawCommand.wellFormed ⟨.owBit, [2]⟩ = false := by decide
theorem test_wellFormed_mode : RawCommand.wellFormed ⟨.owSearch, [2]⟩ = false := by decide
theorem test_wellFormed_byte : RawCommand.wellFormed ⟨.owByte, [256]⟩ = false := by decide
theorem test_wellFormed_target : RawCommand.wellFormed ⟨.owCommand, [256, 0]⟩ = false := by decide
theorem test_wellFormed_cmd : RawCommand.wellFormed ⟨.owCommand, [0, 256]⟩ = false := by decide
theorem test_wellFormed_count : RawCommand.wellFormed ⟨.owCommand, [0]⟩ = false := by decide
theorem test_wellFormed_accepts : RawCommand.toInstr ⟨.owCommand, [0xCC, 0x44]⟩ = some (.owCommand 0xCC 0x44) := by decide

/-! ### Decoding: words of 95_test_vectors.md section 2.1 and of 30_encoding.md section 4 -/

theorem test_decode_uartOpen : decodeTableWord 32 0x01000000 = some .uartOpen := by decide
theorem test_decode_uartClose : decodeTableWord 32 0x02000000 = some .uartClose := by decide
theorem test_decode_owReset : decodeTableWord 32 0x10000000 = some .owReset := by decide
theorem test_decode_owBit : decodeTableWord 32 0x11000001 = some (.owBit true) := by decide
theorem test_decode_owByte : decodeTableWord 32 0x120000A5 = some (.owByte 0xA5) := by decide
theorem test_decode_owCommand : decodeTableWord 32 0x1300CC44 = some (.owCommand 0xCC 0x44) := by decide
theorem test_decode_owReadrom : decodeTableWord 32 0x20000000 = some .owReadrom := by decide
theorem test_decode_owTriplet : decodeTableWord 32 0x21000001 = some (.owTriplet true) := by decide
theorem test_decode_owSearch : decodeTableWord 32 0x22000001 = some (.owSearch .alarm) := by decide
theorem test_decode_owSearchrst : decodeTableWord 32 0x23000000 = some .owSearchrst := by decide
theorem test_decode_illegal :
    ([0x01000001, 0x10010000, 0x11000002, 0x11FF0001, 0x11000101, 0x1201FF00, 0x12000100, 0x13100000].all
      fun w => (decodeTableWord 32 w).isNone) = true ∧
    ([0x21000080, 0x22000003, 0x00000000, 0x03000000, 0x24000000, 0xFFFFFFFF].all
      fun w => (decodeTableWord 32 w).isNone) = true := by decide
theorem test_encode_owSearch : encode (.owSearch .alarm) = 0x22000001 := by decide
theorem test_encode_owCommand : encode (.owCommand 0xCC 0x4E) = 0x1300CC4E := by decide

/-! ### The assembler (30_encoding.md R64, R65) and timing (70_reset_and_hazards.md R179, R180) -/

theorem test_assemble_line :
    asmLine "poll: OW.COMMAND SKIP_ROM, CONVERT_T ; start".toList =
      .ok (some "poll".toList, some (.owCommand 0xCC 0x44)) := by decide +kernel
theorem test_assemble_number : asmLine "OW.BYTE 0xA5".toList = .ok (none, some (.owByte 0xA5)) := by decide +kernel
theorem test_assemble_range : asmLine "OW.BYTE 256".toList = .error .badOperand := by decide +kernel
theorem test_pseudo_readbit : asmLine "OW.READBIT".toList = .ok (none, some (.owBit true)) := by decide +kernel
theorem test_pseudo_skip : asmLine "OW.SKIP 0xBE".toList = .ok (none, some (.owCommand 0xCC 0xBE)) := by decide +kernel
theorem test_assemble_labels :
    assemble ["OW.RESET".toList, "next: OW.SEARCH ROM".toList] =
      .ok ⟨[("next".toList, 1)], [0x10000000, 0x22000000]⟩ := by decide +kernel
/-- Lines that R64 leaves open, log entry 15: a blank line and a comment alone are no command, a second label is rejected. -/
theorem test_assemble_open_lines :
    asmLine " \t".toList = .ok (none, none) ∧ asmLine "; start".toList = .ok (none, none) ∧
      asmLine "a : b: OW.RESET".toList = .error .unknownMnemonic ∧ asmLine "OW.BYTE 1,".toList = .error .wrongOperandCount ∧
      asmLine "OW.COMMAND ,1".toList = .error .badOperand ∧
      assemble ["OW.RESET".toList, "a : ; end".toList] = .ok ⟨[("a".toList, 1)], [0x10000000]⟩ := by decide +kernel
theorem test_timing_reset_low : leadingLowBits 0xF0 = 5 ∧ leadingLowBits 0xFF = 1 ∧ leadingLowBits 0x00 = 9 := by decide
theorem test_timing_frame : minDuration [.frame 9600 0xF0 .timeout, .frame 115200 0xFF .timeout] = 120 + 10 := by decide

/-- 20_memory.md R48: the idle line is at 1, the start bit at 0, the last data bit of 0xF0 at 1, and after the stop bit it is idle. -/
theorem test_lineLevel :
    lineLevel none = true ∧ lineLevel (some (0xF0, 0)) = false ∧ lineLevel (some (0xF0, 4)) = false ∧
      lineLevel (some (0xF0, 5)) = true ∧ lineLevel (some (0x00, 9)) = true ∧ lineLevel (some (0x00, 10)) = true := by decide

/-! ### The UART channel -/

/-- V-OPEN-5. -/
theorem test_uartOpen_ok :
    goes (step (loadCommand 0x01000000 { s0 .ok with
        result := 0x44, rstcls := .classified .singleDevicePresent, lastDisc := 9, rom := deviceA, srom := deviceB }))
      (fun t => t.status = .ok && readReg 0x03 t = some 0x01 && t.result = 0x44 && t.rom = deviceA &&
        readReg 0x02 t = some 0xFF && t.lastDisc = 0 && t.srom = zeroBytes && t.trace = [.opened .ok] && t.host.pc = 1) =
      true := by decide +kernel
/-- V-OPEN-3. -/
theorem test_uartOpen_fails :
    goes (exec .uartOpen (s0 .openFailed))
      (fun t => t.status.code = 0x07 && readReg 0x03 t = some 0x00 && t.trace = [.opened .openFailed]) = true := by
  decide +kernel
/-- V-CLOSE-1. -/
theorem test_uartClose_open :
    goes (exec .uartClose (s2 [])) (fun t => t.status = .ok && readReg 0x03 t = some 0x00 && t.result = 0xE0 &&
      readReg 0x02 t = some 0x02 && t.trace.getLast? = some .closed) = true := by decide +kernel
/-- V-CLOSE-2. -/
theorem test_uartClose_closed :
    goes (exec .uartClose State.reset) (fun t => t.status = .ok && t.trace = []) = true := by decide +kernel

/-! ### The 1-Wire bus -/

/-- W2. -/
theorem test_classify :
    ([0xF0, 0x00, 0xE0, 0xE1, 0x01].map fun r => (classify r).code) = [0x00, 0x01, 0x02, 0x03, 0x03] := by decide
/-- V-RST-3. -/
theorem test_owReset_timeout :
    goes (exec .owReset (s1 [.timeout])) (fun t => t.status.code = 0x03 && readReg 0x02 t = some 0xFE && t.result = 0x00 &&
      readReg 0x03 t = some 0x01 && t.trace.getLast? = some (.frame 9600 0xF0 .timeout)) = true := by decide +kernel
/-- V-RST-7. -/
theorem test_owReset_multiple :
    goes (exec .owReset (s2 [.echo 0xC0])) (fun t => t.status = .ok && readReg 0x02 t = some 0x03 && t.result = 0xC0 &&
      readReg 0x03 t = some 0x03 && t.trace.length = 3) = true := by decide +kernel
/-- V-BIT-3. -/
theorem test_owBit_low :
    goes (exec (.owBit true) (s2 [.echo 0x7F])) (fun t => t.status = .ok && t.result = 0x00 && readReg 0x03 t = some 0x03) =
      true := by decide +kernel
/-- V-BIT-10. -/
theorem test_owBit_readError :
    goes (exec (.owBit false) (s2 [.readFail])) (fun t => t.status.code = 0x05 && t.result = 0xE0 &&
      readReg 0x03 t = some 0x01 && t.trace.getLast? = some (.frame 115200 0x00 .readFail)) = true := by decide +kernel
/-- V-BYTE-1. -/
theorem test_owByte_read :
    goes (exec (.owByte 0xFF)
        (s2 [.echo 0xFF, .echo 0xFE, .echo 0xFF, .echo 0xFF, .echo 0x00, .echo 0xFF, .echo 0xFF, .echo 0xFF]))
      (fun t => t.status = .ok && t.result = 0xED && t.trace.length = 10) = true := by decide +kernel
/-- V-BYTE-6. -/
theorem test_owByte_readError :
    goes (exec (.owByte 0xFF) (s2 [.echo 0xFF, .echo 0xFF, .echo 0xFF, .readFail]))
      (fun t => t.status.code = 0x05 && t.result = 0xE0 && readReg 0x03 t = some 0x01 && t.trace.length = 6) = true := by
  decide +kernel
/-- V-CMD-1. -/
theorem test_owCommand_slots :
    goes (exec (.owCommand 0xCC 0x44) (s1 [.echo 0xE0]))
      (fun t => t.status = .ok && t.result = 0x44 && readReg 0x02 t = some 0x02 && readReg 0x03 t = some 0x03 &&
        (t.trace.drop 1).map (fun e => match e with | .frame b x _ => (b, x) | _ => (0, 0)) =
          [(9600, 0xF0), (115200, 0x00), (115200, 0x00), (115200, 0xFF), (115200, 0xFF), (115200, 0x00), (115200, 0x00),
            (115200, 0xFF), (115200, 0xFF)] ++
          [(115200, 0x00), (115200, 0x00), (115200, 0xFF), (115200, 0x00), (115200, 0x00), (115200, 0x00), (115200, 0xFF),
            (115200, 0x00)]) = true := by decide +kernel
/-- V-CMD-5. -/
theorem test_owCommand_writeError :
    goes (exec (.owCommand 0xCC 0x44)
        (s1 ([.echo 0xE0] ++ lb 0xCC ++ [.echo 0x00, .echo 0x00, .writeFail])))
      (fun t => t.status.code = 0x04 && t.result = 0x00 && readReg 0x02 t = some 0x02 && readReg 0x03 t = some 0x01 &&
        t.trace.length = 1 + 12) = true := by decide +kernel

/-! ### ROM commands and search -/

/-- V-RR-1. -/
theorem test_owReadrom_order :
    goes (exec .owReadrom (s1 ([.echo 0xE0] ++ lb 0x33 ++ rd 0x28 ++ rd 0xFF ++ rd 0x4C ++ rd 0x92 ++ rd 0x16 ++ rd 0x04 ++
        rd 0x00 ++ rd 0x5B)))
      (fun t => t.status = .ok && t.rom = bytes [0x5B, 0x00, 0x04, 0x16, 0x92, 0x4C, 0xFF, 0x28] && t.result = 0x00 &&
        t.srom = zeroBytes && readReg 0x03 t = some 0x03 && t.trace.length = 1 + 73) = true := by decide +kernel
/-- V-RR-4. -/
theorem test_owReadrom_readError :
    goes (exec .owReadrom { s1 ([.echo 0xE0] ++ lb 0x33 ++ rd 0x28 ++ rd 0xFF ++ rd 0x4C ++ rd 0x92 ++ [.readFail]) with
        rom := deviceA })
      (fun t => t.status.code = 0x05 && t.rom = deviceA && readReg 0x03 t = some 0x01 && t.trace.length = 1 + 42) = true := by
  decide +kernel
/-- V-SR-2. -/
theorem test_owSearchrst :
    goes (exec .owSearchrst { s2 [] with lastDev := true, srom := deviceA, rom := deviceB, result := 0x05 })
      (fun t => t.status = .ok && readReg 0x03 t = some 0x03 && t.lastDisc = 0 && t.srom = zeroBytes && t.rom = deviceB &&
        t.result = 0x05 && t.trace.length = 2) = true := by decide +kernel
/-- V-PC-2. -/
theorem test_owSearchrst_closed :
    goes (exec .owSearchrst { State.reset with lastDisc := 9, srom := deviceA })
      (fun t => t.status.code = 0x08 && t.lastDisc = 9 && t.srom = deviceA) = true := by decide +kernel
/-- V-TRI-6. -/
theorem test_owTriplet_discrepancy :
    goes (exec (.owTriplet true) (s2 [.echo 0xFE, .echo 0xFE]))
      (fun t => t.status = .ok && t.result = 0x04 && t.trace.getLast? = some (.frame 115200 0xFF (.echo 0xFF)) &&
        t.srom = zeroBytes) = true := by decide +kernel
/-- V-TRI-4. -/
theorem test_owTriplet_one :
    goes (exec (.owTriplet true) (s2 [.echo 0xFF, .echo 0xFE])) (fun t => t.status = .ok && t.result = 0x05) = true := by
  decide +kernel
/-- V-SEARCH-2, pass 1. -/
theorem test_owSearch_first :
    goes (exec (.owSearch .rom) s1AB)
      (fun t => t.status = .ok && t.srom = deviceB && t.rom = bytes [0xAA, 0, 0, 0, 0, 0, 0x02, 0x28] && t.lastDisc = 9 &&
        readReg 0x03 t = some 0x03 && readReg 0x02 t = some 0x03 && t.trace.length = 1 + 201) = true := by decide +kernel
/-- V-SEARCH-2, pass 2. -/
theorem test_owSearch_next :
    goes (exec (.owSearch .rom) { s1AB with lastDisc := 9, srom := deviceB })
      (fun t => t.status = .ok && t.srom = deviceA && t.rom = bytes [0xAA, 0, 0, 0, 0, 0, 0x01, 0x28] && t.lastDisc = 0 &&
        readReg 0x03 t = some 0x0B && t.trace.length = 1 + 201) = true := by decide +kernel

/-! ### The ports, reset and illegal words -/

/-- V-ILL-2. -/
theorem test_illegal_closed :
    goes (step (loadCommand 0x11000002 State.reset)) (fun t => t.status.code = 0x0A && t.host.pc = 1) = true := by
  decide +kernel
/-- 10_state.md R22, R26. -/
theorem test_read_flags :
    goes (step (hosting (.readReg 0x03) { s2 [] with lastDev := true })) (fun t => t.host.readData = some 0x0B) = true := by
  decide +kernel
/-- 70_reset_and_hazards.md R167, R37: reset in the middle of a command. -/
theorem test_reset_during :
    goes (step (hosting (.resetDuring 0x120000FF 3) (s2 [.timeout, .timeout, .timeout, .readFail])))
      (fun t => t.status = .ok && readReg 0x03 t = some 0x00 && t.trace = [] && t.env.echoes = [.readFail]) = true := by
  decide +kernel

/-! ### Host programs -/

/-- W3 and 95_test_vectors.md section 2.11. -/
theorem test_resolution :
    ([0x00, 0x20, 0x40, 0x60, 0x80, 0x9F, 0xFF].map fun c => resolutionBits c) = [9, 10, 11, 12, 9, 9, 12] := by decide
/-- W9. -/
theorem test_resolutionConfig :
    ([9, 10, 11, 12].map fun b => resolutionConfig 0x7F b) = [0x1F, 0x3F, 0x5F, 0x7F] ∧ resolutionConfig 0x00 12 = 0x60 ∧
      resolutionConfig 0xFF 9 = 0x9F := by decide
/-- W4 and the temperature table of 95_test_vectors.md section 2.11, in sixteenths. -/
theorem test_temperature :
    temperatureSixteenths 0x50 0x05 = 85 * 16 ∧ temperatureSixteenths 0x5E 0xFF = -162 ∧
      temperatureSixteenths 0xF8 0xFF = -8 ∧ temperatureSixteenths 0x00 0x80 = -2048 * 16 := by decide
/-- V-H-9. -/
theorem test_hPower :
    hostDone (hPower (s1 ([.echo 0xE0] ++ lb 0xCC ++ lb 0xB4 ++ rd 0xFF)))
      (fun m t => m = .externallyPowered && t.trace.length = 1 + 25 && t.host.pc = 2) = true := by decide +kernel
/-- V-H-4. -/
theorem test_hConvert :
    hostDone (hConvert 8 none (s1 ([.echo 0xE0] ++ lb 0xCC ++ lb 0x44 ++ List.replicate 8 .timeout ++ rd 0x01)))
      (fun _ t => t.trace.length = 1 + 33) = true := by decide +kernel
/-- 45_host_transactions.md R144: stopped in the wait after the first poll, so one poll has been made. -/
theorem test_hConvert_cancelled :
    (match hConvert 8 (some 0) (s1 ([.echo 0xE0] ++ lb 0xCC ++ lb 0x44 ++ List.replicate 16 .timeout)) with
      | .cancelled t => t.trace.length = 1 + 17 + 8 && t.status = .ok
      | _ => false) = true := by decide +kernel
/-- V-H-12. -/
theorem test_hReadScratchpad_fails :
    hostFailed (hReadScratchpad (s1 ([.echo 0xE0] ++ lb 0xCC ++ lb 0xBE ++ rd 0x50 ++ rd 0x05 ++ [.writeFail])))
      (fun f t => f.code = 0x04 && t.trace.length = 1 + 34) = true := by decide +kernel
/-- V-H-11. -/
theorem test_hReadScratchpad :
    hostDone (hReadScratchpad (s1 ([.echo 0xE0] ++ lb 0xCC ++ lb 0xBE ++
        ([0x50, 0x05, 0x4B, 0x46, 0x7F, 0xFF, 0x0C, 0x10, 0x1C] : List Byte).flatMap rd)))
      (fun sp t => sp = ⟨0x50, 0x05, 0x4B, 0x46, 0x7F, 0xFF, 0x0C, 0x10, 0x1C, 12⟩ && t.trace.length = 1 + 89) = true := by
  decide +kernel
/-- V-H-8: the last byte written is 0x3F, and 130 frames are sent. -/
theorem test_hSetResolution :
    hostDone (hSetResolution 10 (s1 ([.echo 0xE0] ++ lb 0xCC ++ lb 0xBE ++
        ([0x50, 0x05, 0x4B, 0x46, 0x7F, 0xFF, 0x0C, 0x10, 0x1C] : List Byte).flatMap rd ++ [.echo 0xE0])))
      (fun _ t => t.result = 0x3F && t.trace.length = 1 + 130 && t.host.pc = 14) = true := by decide +kernel
/-- V-H-2. -/
theorem test_hReadTemperature :
    hostDone (hReadTemperature 8 none (s1 ([.echo 0xE0] ++ lb 0xCC ++ lb 0x44 ++ rd 0x00 ++ rd 0xFF ++ [.echo 0xE0] ++
        lb 0xCC ++ lb 0xBE ++ rd 0x5E ++ rd 0xFF)))
      (fun x t => x * 16 = -162 && t.trace.length = 1 + 66 && t.host.pc = 5) = true := by decide +kernel
/-- V-H-13. -/
theorem test_hReadRom :
    hostDone (hReadRom (s1 ([.echo 0xE0] ++ lb 0x33 ++ rd 0x28 ++ rd 0xFF ++ rd 0x4C ++ rd 0x92 ++ rd 0x16 ++ rd 0x04 ++
        rd 0x00 ++ rd 0x5B)))
      (fun c t => c = ⟨0x5B, [0x00, 0x04, 0x16, 0x92, 0x4C, 0xFF], 0x28⟩ && t.trace.length = 1 + 73) = true := by
  decide +kernel
/-- V-H-6 and V-H-7. -/
theorem test_hSetResolution_range :
    hostFailed (hSetResolution 13 (s2 [])) (fun f t => f.code = 0x80 && t = s2 []) = true ∧
      hostFailed (hSetResolution 8 (s2 [])) (fun f t => f.code = 0x80 && t = s2 []) = true := by decide +kernel

/-! ### Witnesses: for each statement with hypotheses, a concrete state and operands that meet them together -/

theorem witness_BlockReset :
    (hosting .assertReset (s2 [])).host.program[(hosting .assertReset (s2 [])).host.pc]? = some .assertReset ∧
      (hosting (.resetDuring 0x120000FF 3) (s2 [])).host.program[(hosting (.resetDuring 0x120000FF 3) (s2 [])).host.pc]? =
        some (.resetDuring 0x120000FF 3) := by decide
theorem witness_StateAfterReset : (0x00 : Byte).toNat ≤ 0x14 ∧ (0x14 : Byte).toNat ≤ 0x14 := by decide
theorem witness_ReadPort :
    ((hosting (.readReg 0x14) (s2 [])).host.program[0]? = some (.readReg 0x14) ∧ (0x14 : Byte).toNat ≤ 0x14) ∧
      (hosting (.readReg 0x15) (s2 [])).host.program[0]? = some (.readReg 0x15) ∧ 0x14 < (0x15 : Byte).toNat := by decide
theorem witness_StepRunsDecodedCommand :
    (loadCommand 0x11000001 (s2 [])).host.program[(loadCommand 0x11000001 (s2 [])).host.pc]? = some (.command 0x11000001) ∧
      decode 0x11000001 = .ok (.owBit true) := by decide
theorem witness_StepIllegalWord :
    (loadCommand 0x24000000 (s2 [])).host.program[(loadCommand 0x24000000 (s2 [])).host.pc]? = some (.command 0x24000000) ∧
      Word.legal 0x24000000 = false := by decide
theorem witness_StepWaitsWithoutCommand : State.reset.host.program[State.reset.host.pc]? = none := by decide
/-- Two instances on two ports: the second closes its link, which is closed already. -/
theorem witness_InstancesShareNoState :
    stepInstance step 1 [resetOn "a", loadCommand 0x02000000 (resetOn "b")] =
        .next [resetOn "a", { loadCommand 0x02000000 (resetOn "b") with
          host := { program := [.command 0x02000000], pc := 1, readData := none } }] ∧
      DistinctPorts [resetOn "a", loadCommand 0x02000000 (resetOn "b")] ∧ DistinctPorts (instancesOn ["a", "b"]) := by
  refine ⟨rfl, ?_⟩
  unfold DistinctPorts; decide +kernel
theorem witness_EncodeDecodeRoundTrip : decode 0x1300CC44 = .ok (.owCommand 0xCC 0x44) := by decide
theorem witness_LegalWordsDecode :
    (⟨.owBit, 0x11000000, 0xFFFFFFFE⟩ : OpcodeRow) ∈ opcodeRows ∧
      OpcodeRow.selects ⟨.owBit, 0x11000000, 0xFFFFFFFE⟩ 0x11000001 = true := by decide
theorem witness_WrittenCommandsInRange : RawCommand.toInstr ⟨.owByte, [255]⟩ = some (.owByte 0xFF) := by decide
theorem witness_UartOpenEffect :
    (s2 []).linkOpen = true ∧ (s0 .unavailable).linkOpen = false ∧ (drawOpen (s0 .unavailable)).1 = .unavailable ∧
      (drawOpen (s0 .openFailed)).1 = .openFailed ∧ (drawOpen (s0 .ok)).1 = .ok := by decide +kernel
theorem witness_ClosedLinkEndsLineCommands :
    Instr.owReset ≠ .uartOpen ∧ Instr.owReset ≠ .uartClose ∧ State.reset.linkOpen = false := by decide
theorem witness_FramePrimitive :
    (drawEcho ((s1 [.writeFail]).setBaudSel .reset) 9600 0xF0).1 = .writeFail ∧
      (drawEcho ((s1 [.readFail]).setBaudSel .normal) 115200 0xFF).1 = .readFail ∧
      (drawEcho ((s1 [.timeout]).setBaudSel .normal) 115200 0x00).1 = .timeout ∧
      (drawEcho ((s1 [.echo 0xE0]).setBaudSel .reset) 9600 0xF0).1 = .echo 0xE0 := by decide +kernel
theorem witness_WiredAndConstraint :
    (s1AB.env.wiredAnd = true ∧ (drawEcho s1AB 9600 0xF0).1 = .echo 0xC0) ∧
      (s1 [.echo 0xFF]).env.wiredAnd = false ∧ (s1 [.echo 0xFF]).env.echoes = [.echo 0xFF] := by decide +kernel
theorem witness_ResetClassification : (0xE1 : Byte) ≠ 0xF0 ∧ (0xE1 : Byte) ≠ 0x00 ∧ (0xE1 : Byte) ≠ 0xE0 := by decide
theorem witness_FailsFast :
    ((s1 [.writeFail]).answersTo [resetAsk] = [.writeFail] ∧ resetFailure .writeFail = some (.writeError, none)) ∧
      ((s1 [.timeout]).answersTo [resetAsk] = [.timeout] ∧ resetFailure .timeout = some (.noEcho, some .noEcho)) ∧
      ((s1 [.echo 0xF0]).answersTo [resetAsk] = [.echo 0xF0] ∧
        resetFailure (.echo 0xF0) = some (.noDevicesPresent, some (.classified .noDevicesPresent))) ∧
      (s1 [.echo 0x00]).answersTo [resetAsk] = [.echo 0x00] ∧
        resetFailure (.echo 0x00) = some (.shortCircuit, some (.classified .shortCircuit)) := by decide +kernel
theorem witness_OwResetEffect :
    (s1 [.echo 0xE1]).linkOpen = true ∧ (s1 [.echo 0xE1]).answersTo [resetAsk] = [.echo 0xE1] ∧ presence 0xE1 := by
  unfold presence; decide +kernel
theorem witness_OwBitEffect :
    (s2 [.echo 0xFF]).linkOpen = true ∧ (s2 [.echo 0xFF]).busReady = true ∧
      (s2 [.echo 0xFF]).answersTo [slotAsk true] = [.echo 0xFF] ∧ LineOutcome.failure (.echo 0xFF) = none ∧
      (s2 [.readFail]).answersTo [slotAsk false] = [.readFail] ∧ LineOutcome.failure .readFail = some .readError := by
  decide +kernel
theorem witness_OwByteEffect_ok :
    (s2 []).linkOpen = true ∧ (s2 []).busReady = true ∧ NoFailure ((s2 []).answersTo (byteAsks 0xA5)) := by
  unfold NoFailure; decide +kernel
theorem witness_OwByteEffect_stop :
    FirstFailure ((s2 ((rd 0x7F).take 7 ++ [.readFail])).answersTo (byteAsks 0xFF)) 7 .readError ∧
      FirstFailure ((s2 [.writeFail]).answersTo (byteAsks 0xFF)) 0 .writeError := by
  unfold FirstFailure; decide +kernel
theorem witness_BusNotReady : (s1 []).linkOpen = true ∧ (s1 []).busReady = false := by decide
theorem witness_OwCommandEffect_ok :
    (s1 [.echo 0xE0]).linkOpen = true ∧
      ((s1 [.echo 0xE0]).answersTo (resetAsk :: (byteAsks 0xCC ++ byteAsks 0x44)))[0]? = some (.echo 0xE0) ∧ presence 0xE0 ∧
      NoFailure ((s1 [.echo 0xE0]).answersTo (resetAsk :: (byteAsks 0xCC ++ byteAsks 0x44))) := by
  unfold NoFailure presence; decide +kernel
theorem witness_OwCommandEffect_stop :
    ((s1 ([.echo 0xE0] ++ lb 0xCC ++ (lb 0x44).take 7 ++ [.readFail])).answersTo
        (resetAsk :: (byteAsks 0xCC ++ byteAsks 0x44)))[0]? = some (.echo 0xE0) ∧
      FirstFailure ((s1 ([.echo 0xE0] ++ lb 0xCC ++ (lb 0x44).take 7 ++ [.readFail])).answersTo
        (resetAsk :: (byteAsks 0xCC ++ byteAsks 0x44))) 16 .readError := by
  unfold FirstFailure; decide +kernel
/-- Once with the loopback double, once with the echoes in the script. -/
theorem witness_LoopbackReturnsOperand :
    ((s2 []).linkOpen = true ∧ (s2 []).busReady = true ∧
        (s2 []).answersTo (byteAsks 0xA5) = (byteAsks 0xA5).map (fun f => .echo f.2)) ∧
      (s2 (lb 0x3C)).answersTo (byteAsks 0x3C) = (byteAsks 0x3C).map (fun f => .echo f.2) := by decide +kernel
theorem witness_WiredAndNeverRaisesZero :
    { (s2 []).env with wiredAnd := true }.wiredAnd = true ∧
      goes (exec (.owByte 0xA5) { s2 [] with env := { (s2 []).env with wiredAnd := true } }) (fun t => t.status = .ok) = true := by
  decide +kernel
theorem witness_OwReadromEffect_ok :
    ((s1 [.echo 0xE0]).answersTo readRomAsks)[0]? = some (.echo 0xE0) ∧ presence 0xE0 ∧
      NoFailure ((s1 [.echo 0xE0]).answersTo readRomAsks) := by
  unfold NoFailure presence; decide +kernel
theorem witness_OwReadromEffect_stop :
    ((s1 ([.echo 0xE0] ++ List.replicate 71 .timeout ++ [.writeFail])).answersTo readRomAsks)[0]? = some (.echo 0xE0) ∧
      FirstFailure ((s1 ([.echo 0xE0] ++ List.replicate 71 .timeout ++ [.writeFail])).answersTo readRomAsks) 72 .writeError := by
  unfold FirstFailure; decide +kernel
theorem witness_OwTripletEffect :
    NoFailure ((s2 [.echo 0xFE, .echo 0xFE]).answersTo (positionAsks true)) ∧
      FirstFailure ((s2 [.echo 0xFE, .echo 0xFE, .writeFail]).answersTo (positionAsks true)) 2 .writeError := by
  unfold NoFailure FirstFailure; decide +kernel
theorem witness_SearchExhausted :
    { s1 [] with lastDev := true }.linkOpen = true ∧ { s1 [] with lastDev := true }.lastDev = true := by decide

/-- The directions of a pass that finds a device. -/
def pathOf (c : Bytes8) : List Bool := (List.range 64).map fun i => sbit c (i + 1)

/-- V-SEARCH-4: silence after the presence. -/
def silent : State := s1 ([.echo 0xE0] ++ List.replicate 200 .timeout)

theorem takes_of_all {s : State} {os : List LineOutcome} {dirs : List Bool}
    (h : ∀ n, n < dirs.length → ¬(readId os (n + 1) = true ∧ readCmp os (n + 1) = true) ∧
      dirAt dirs (n + 1) = if readId os (n + 1) ≠ readCmp os (n + 1) then readId os (n + 1) else directionRule s (n + 1)) :
    TakesDirections s os dirs := by
  intro n h1 h2
  obtain ⟨m, rfl⟩ : ∃ m, n = m + 1 := ⟨n - 1, by omega⟩
  exact h m (by omega)

theorem witness_SearchPassEffect_found :
    s1AB.linkOpen = true ∧ s1AB.lastDev = false ∧ (pathOf deviceB).length = 64 ∧
      (s1AB.answersTo (searchAsks .rom (pathOf deviceB)))[0]? = some (.echo 0xC0) ∧ presence 0xC0 ∧
      NoFailure (s1AB.answersTo (searchAsks .rom (pathOf deviceB))) ∧
      TakesDirections s1AB (s1AB.answersTo (searchAsks .rom (pathOf deviceB))) (pathOf deviceB) := by
  refine ⟨rfl, rfl, by decide +kernel, by decide +kernel, by unfold presence; decide, by unfold NoFailure; decide +kernel,
    takes_of_all ?_⟩
  decide +kernel
theorem witness_SearchPassEffect_zero :
    silent.linkOpen = true ∧ silent.lastDev = false ∧ (List.replicate 64 false).length = 64 ∧
      (silent.answersTo (searchAsks .rom (List.replicate 64 false)))[0]? = some (.echo 0xE0) ∧ presence 0xE0 ∧
      NoFailure (silent.answersTo (searchAsks .rom (List.replicate 64 false))) ∧
      TakesDirections silent (silent.answersTo (searchAsks .rom (List.replicate 64 false))) (List.replicate 64 false) := by
  refine ⟨rfl, rfl, by decide +kernel, by decide +kernel, by unfold presence; decide, by unfold NoFailure; decide +kernel,
    takes_of_all ?_⟩
  decide +kernel
theorem witness_SearchNoResponse :
    (s1 [.echo 0xE0]).linkOpen = true ∧ (s1 [.echo 0xE0]).lastDev = false ∧ ([] : List Bool).length < 64 ∧
      ((s1 [.echo 0xE0]).answersTo (searchAsks .rom [] ++ [slotAsk true, slotAsk true]))[0]? = some (.echo 0xE0) ∧
      presence 0xE0 ∧ NoFailure ((s1 [.echo 0xE0]).answersTo (searchAsks .rom [] ++ [slotAsk true, slotAsk true])) ∧
      TakesDirections (s1 [.echo 0xE0]) ((s1 [.echo 0xE0]).answersTo (searchAsks .rom [] ++ [slotAsk true, slotAsk true])) [] ∧
      readId ((s1 [.echo 0xE0]).answersTo (searchAsks .rom [] ++ [slotAsk true, slotAsk true])) 1 = true ∧
      readCmp ((s1 [.echo 0xE0]).answersTo (searchAsks .rom [] ++ [slotAsk true, slotAsk true])) 1 = true := by
  refine ⟨rfl, rfl, by decide, by decide +kernel, by unfold presence; decide, by unfold NoFailure; decide +kernel,
    takes_of_all (by decide +kernel), by decide +kernel, by decide +kernel⟩

/-- Silence after the presence, and a read failure in the direction slot of position `n + 1`. -/
def silentThenFails (n : Nat) : State := s1 ([.echo 0xE0] ++ List.replicate (8 + 3 * n + 2) .timeout ++ [.readFail])

theorem witness_SearchFrameFailure :
    (silentThenFails 63).linkOpen = true ∧ (silentThenFails 63).lastDev = false ∧ (List.replicate 64 false).length ≤ 64 ∧
      ((silentThenFails 63).answersTo (searchAsks .alarm (List.replicate 64 false)))[0]? = some (.echo 0xE0) ∧ presence 0xE0 ∧
      FirstFailure ((silentThenFails 63).answersTo (searchAsks .alarm (List.replicate 64 false))) 200 .readError ∧
      ∀ n, 1 ≤ n → 9 + 3 * (n - 1) + 1 < 200 →
        ¬(readId ((silentThenFails 63).answersTo (searchAsks .alarm (List.replicate 64 false))) n = true ∧
          readCmp ((silentThenFails 63).answersTo (searchAsks .alarm (List.replicate 64 false))) n = true) ∧
        dirAt (List.replicate 64 false) n =
          if readId ((silentThenFails 63).answersTo (searchAsks .alarm (List.replicate 64 false))) n ≠
              readCmp ((silentThenFails 63).answersTo (searchAsks .alarm (List.replicate 64 false))) n then
            readId ((silentThenFails 63).answersTo (searchAsks .alarm (List.replicate 64 false))) n
          else directionRule (silentThenFails 63) n := by
  refine ⟨rfl, rfl, by decide, by decide +kernel, by unfold presence; decide, by unfold FirstFailure; decide +kernel, ?_⟩
  intro n h1 h2
  have h := takes_of_all (s := silentThenFails 63)
    (os := (silentThenFails 63).answersTo (searchAsks .alarm (List.replicate 64 false))) (dirs := List.replicate 64 false)
    (by decide +kernel) n h1 (by simp; omega)
  exact h
theorem witness_SearchFrameFailure_reset :
    (s1 [.timeout]).linkOpen = true ∧ (s1 [.timeout]).lastDev = false ∧ (s1 [.timeout]).answersTo [resetAsk] = [.timeout] ∧
      resetFailure .timeout = some (.noEcho, some .noEcho) := by decide +kernel

theorem members_of_population (a b : Bytes8) : ∀ c, c ∈ [b, a] ↔ c ∈ (Population.init [a, b] [a]).codes ∧
    (SearchMode.rom = .alarm → c ∈ (Population.init [a, b] [a]).alarmed) := by
  intro c
  show c ∈ [b, a] ↔ c ∈ [a, b] ∧ _
  rw [List.mem_pair, List.mem_pair, or_comm]
  exact ⟨fun h => ⟨h, fun hm => nomatch hm⟩, fun h => h.1⟩

theorem deviceB_before_deviceA : LineOrder deviceB deviceA := by
  refine ⟨9, by decide, by decide, ?_, by decide +kernel, by decide +kernel⟩
  intro m h1 h2
  exact (by decide +kernel : ∀ m, m < 9 → 1 ≤ m → sbit deviceB m = sbit deviceA m) m h2 h1

theorem families_not_zero : ∀ c ∈ [deviceB, deviceA], byteAt c 0 ≠ 0x00 :=
  List.forall_mem_cons.2 ⟨by decide +kernel, List.forall_mem_cons.2 ⟨by decide +kernel, fun _ h => nomatch h⟩⟩

/-- Devices A and B on the line, nothing scripted. -/
theorem witness_SearchEnumeratesDevices :
    s1AB.linkOpen = true ∧ s1AB.searchStateFirst ∧ s1AB.env.echoes = [] ∧
      s1AB.env.oracle = .devices (Population.init [deviceA, deviceB] [deviceA]) ∧
      (∀ c, c ∈ [deviceB, deviceA] ↔ c ∈ (Population.init [deviceA, deviceB] [deviceA]).codes ∧
        (SearchMode.rom = .alarm → c ∈ (Population.init [deviceA, deviceB] [deviceA]).alarmed)) ∧
      [deviceB, deviceA] ≠ [] ∧ [deviceB, deviceA].Pairwise LineOrder ∧ ∀ c ∈ [deviceB, deviceA], byteAt c 0 ≠ 0x00 :=
  ⟨rfl, ⟨rfl, rfl⟩, rfl, rfl, members_of_population _ _, List.cons_ne_nil _ _,
    List.pairwise_pair.2 deviceB_before_deviceA, families_not_zero⟩

/-- A command that ends with OK and one that ends with a failure, for the statements about every command. -/
theorem witness_everyCommand :
    goes (exec .owReset (s1 [.echo 0xE0])) (fun t => t.status = .ok && t.result ≠ (s1 []).result) = true ∧
      goes (exec .owReset (s1 [.timeout])) (fun t => t.status ≠ .ok) = true ∧
      goes (exec (.owSearch .rom) (s1 [.echo 0xE0])) (fun t => t.status = .searchNoResponse) = true := by decide +kernel
/-- One command for each clause of RegisterWriters: LINK_OPEN changes both ways, RESULT, RSTCLS and ROM change, the search state changes
in each of its three commands, and BUS_READY becomes 1. -/
theorem witness_RegisterWriters :
    goes (exec .uartOpen (s0 .ok)) (fun t => t.linkOpen ≠ (s0 .ok).linkOpen) = true ∧
      goes (exec .uartClose (s2 [])) (fun t => t.linkOpen ≠ (s2 []).linkOpen) = true ∧
      goes (exec (.owByte 0xA5) (s2 [])) (fun t => t.result ≠ (s2 []).result) = true ∧
      goes (exec .owReset (s2 [.timeout])) (fun t => t.rstcls ≠ (s2 []).rstcls) = true ∧
      goes (exec (.owSearch .rom) s1AB) (fun t => t.rom ≠ s1AB.rom && t.lastDisc ≠ s1AB.lastDisc && t.srom ≠ s1AB.srom &&
        !s1AB.busReady && t.busReady) = true ∧
      goes (exec .owSearchrst { s2 [] with lastDev := true }) (fun t => t.lastDev ≠ true) = true ∧
      goes (exec .uartOpen { s0 .ok with lastDisc := 9 }) (fun t => t.lastDisc ≠ 9) = true := by decide +kernel
/-- A state with both invariants from which a command runs. -/
theorem witness_StepKeeps :
    (loadCommand 0x10000000 (s2 [.echo 0xE0])).Inv ∧ (loadCommand 0x10000000 (s2 [.echo 0xE0])).Framed ∧
      goes (step (loadCommand 0x10000000 (s2 [.echo 0xE0]))) (fun t => t.status = .ok) = true := by
  refine ⟨⟨rfl, by decide, by decide, by decide, fun _ => .inl rfl⟩, ?_, by decide +kernel⟩
  intro e he
  have : e = .opened .ok ∨ e = .frame 9600 0xF0 (.echo 0xE0) := by simpa [loadCommand, s2, State.setHost] using he
  rcases this with rfl | rfl
  · trivial
  · exact .inl ⟨rfl, rfl⟩

theorem witness_OnlyUnmappedReadsStop : step (hosting (.readReg 0x15) (s2 [])) = .refused (.unmappedRegister 0x15) := rfl
theorem witness_ReadScratchpadProgram :
    let s := s1 [.echo 0xE0]
    let fs : List FrameAsk := resetAsk :: (byteAsks 0xCC ++ byteAsks 0xBE) ++ (List.replicate 9 (byteAsks 0xFF)).flatten
    s.linkOpen = true ∧ (s.answersTo fs)[0]? = some (.echo 0xE0) ∧ presence 0xE0 ∧ NoFailure (s.answersTo fs) := by
  refine ⟨rfl, by decide +kernel, by unfold presence; decide, by unfold NoFailure; decide +kernel⟩
theorem witness_WriteScratchpadProgram :
    let s := s1 [.echo 0xE0]
    let fs : List FrameAsk := resetAsk :: (byteAsks 0xCC ++ byteAsks 0x4E) ++ (byteAsks 0x4B ++ byteAsks 0x46 ++ byteAsks 0x7F)
    s.linkOpen = true ∧ (s.answersTo fs)[0]? = some (.echo 0xE0) ∧ presence 0xE0 ∧ NoFailure (s.answersTo fs) := by
  refine ⟨rfl, by decide +kernel, by unfold presence; decide, by unfold NoFailure; decide +kernel⟩
/-- Both programs of H.SETRES run on a line whose reads are 0xFF. -/
theorem witness_SetResolutionProgram :
    let s := s1 ([.echo 0xE0] ++ lb 0xCC ++ lb 0xBE ++ (List.replicate 9 (rd 0xFF)).flatten ++ [.echo 0xE0])
    let fs : List FrameAsk :=
      (resetAsk :: (byteAsks 0xCC ++ byteAsks 0xBE) ++ (List.replicate 9 (byteAsks 0xFF)).flatten) ++
        (resetAsk :: (byteAsks 0xCC ++ byteAsks 0x4E) ++
          (byteAsks 0xFF ++ byteAsks 0xFF ++ byteAsks ((0xFF &&& 0x9F) ||| (BitVec.ofNat 8 (12 - 9) <<< 5))))
    9 ≤ 12 ∧ 12 ≤ 12 ∧ s.linkOpen = true ∧ (s.answersTo fs)[0]? = some (.echo 0xE0) ∧ presence 0xE0 ∧
      (s.answersTo fs)[89]? = some (.echo 0xE0) ∧ NoFailure (s.answersTo fs) ∧ Touched 0xFF (s.answersTo fs) 33 ∧
      Touched 0xFF (s.answersTo fs) 41 ∧ Touched 0xFF (s.answersTo fs) 49 := by
  refine ⟨by decide, by decide, rfl, by decide +kernel, by unfold presence; decide, by decide +kernel,
    by unfold NoFailure; decide +kernel, by unfold Touched; decide +kernel, by unfold Touched; decide +kernel,
    by unfold Touched; decide +kernel⟩
/-- The start of a conversion whose first poll reads 0x00 and whose second reads `poll`. -/
def secondPoll (poll : Byte) : List LineOutcome := [.echo 0xE0] ++ lb 0xCC ++ lb 0x44 ++ rd 0x00 ++ rd poll

theorem firstNonzero_secondPoll {os : List LineOutcome} (h : ∀ k, k < 25 → 17 ≤ k → bitOf os k = false)
    (h' : bitOf os 32 = true) : FirstNonzeroPoll os 2 :=
  ⟨fun k h1 h2 => h k h2 h1, 32, by decide, by decide, h'⟩

/-- The second of two polls is the first that does not read 0x00: its last bit is 1. -/
theorem witness_ConversionEnds :
    let s := s1 (secondPoll 0x80)
    let fs : List FrameAsk := resetAsk :: (byteAsks 0xCC ++ byteAsks 0x44) ++ (List.replicate 2 (byteAsks 0xFF)).flatten
    1 ≤ 2 ∧ 2 ≤ 2 ∧ s.linkOpen = true ∧ (s.answersTo fs)[0]? = some (.echo 0xE0) ∧ presence 0xE0 ∧ NoFailure (s.answersTo fs) ∧
      FirstNonzeroPoll (s.answersTo fs) 2 := by
  refine ⟨by decide, by decide, rfl, by decide +kernel, by unfold presence; decide, by unfold NoFailure; decide +kernel,
    firstNonzero_secondPoll (by decide +kernel) (by decide +kernel)⟩
/-- The same, and then a scratchpad that begins 0x5E, 0xFF. -/
theorem witness_ReadTemperatureProgram :
    let s := s1 (secondPoll 0x80 ++ [.echo 0xE1] ++ lb 0xCC ++ lb 0xBE ++ rd 0x5E ++ rd 0xFF)
    let fs : List FrameAsk :=
      (resetAsk :: (byteAsks 0xCC ++ byteAsks 0x44) ++ (List.replicate 2 (byteAsks 0xFF)).flatten) ++
        (resetAsk :: (byteAsks 0xCC ++ byteAsks 0xBE) ++ (byteAsks 0xFF ++ byteAsks 0xFF))
    1 ≤ 2 ∧ 2 ≤ 8 ∧ s.linkOpen = true ∧ (s.answersTo fs)[0]? = some (.echo 0xE0) ∧ presence 0xE0 ∧
      (s.answersTo fs)[17 + 8 * 2]? = some (.echo 0xE1) ∧ presence 0xE1 ∧ NoFailure (s.answersTo fs) ∧
      FirstNonzeroPoll (s.answersTo fs) 2 ∧ Touched 0x5E (s.answersTo fs) (34 + 8 * 2) ∧
      Touched 0xFF (s.answersTo fs) (42 + 8 * 2) := by
  refine ⟨by decide, by decide, rfl, by decide +kernel, by unfold presence; decide, by decide +kernel, by unfold presence; decide,
    by unfold NoFailure; decide +kernel, firstNonzero_secondPoll (by decide +kernel) (by decide +kernel),
    by unfold Touched; decide +kernel, by unfold Touched; decide +kernel⟩
theorem witness_ResolutionRoundTrip : (9 ≤ 9 ∧ 9 ≤ 12) ∧ 9 ≤ 12 ∧ (12 : Nat) ≤ 12 := by decide
theorem witness_InvalidResolution : (8 : Int) < 9 ∧ (12 : Int) < 13 := by decide

/-- The polls read 0x00 by timing out: for a run of all its polls, and for one that is stopped. -/
theorem witness_ConversionPolls :
    let s := s1 ([.echo 0xE0] ++ lb 0xCC ++ lb 0x44 ++ List.replicate 16 .timeout)
    let fs : List FrameAsk := resetAsk :: (byteAsks 0xCC ++ byteAsks 0x44) ++ (List.replicate 2 (byteAsks 0xFF)).flatten
    1 ≤ 2 ∧ 2 < 8 ∧ s.linkOpen = true ∧ (s.answersTo fs)[0]? = some (.echo 0xE0) ∧ presence 0xE0 ∧ NoFailure (s.answersTo fs) ∧
      ∀ j, 17 ≤ j → bitOf (s.answersTo fs) j = false := by
  refine ⟨by decide, by decide, rfl, by decide +kernel, by unfold presence; decide, by unfold NoFailure; decide +kernel, ?_⟩
  intro j hj
  by_cases h : j < 33
  · exact (by decide +kernel : ∀ j, j < 33 → 17 ≤ j →
      bitOf ((s1 ([.echo 0xE0] ++ lb 0xCC ++ lb 0x44 ++ List.replicate 16 .timeout)).answersTo
        (resetAsk :: (byteAsks 0xCC ++ byteAsks 0x44) ++ (List.replicate 2 (byteAsks 0xFF)).flatten)) j = false) j h hj
  · have hl : ((s1 ([.echo 0xE0] ++ lb 0xCC ++ lb 0x44 ++ List.replicate 16 .timeout)).answersTo
        (resetAsk :: (byteAsks 0xCC ++ byteAsks 0x44) ++ (List.replicate 2 (byteAsks 0xFF)).flatten)).length = 33 := by
      decide +kernel
    unfold bitOf
    rw [List.getElem?_eq_none (by omega)]
    rfl
theorem witness_PowerMode :
    let s := s1 [.echo 0xE0]
    let fs : List FrameAsk := resetAsk :: (byteAsks 0xCC ++ byteAsks 0xB4) ++ byteAsks 0xFF
    s.linkOpen = true ∧ (s.answersTo fs)[0]? = some (.echo 0xE0) ∧ presence 0xE0 ∧ NoFailure (s.answersTo fs) := by
  refine ⟨rfl, by decide +kernel, by unfold presence; decide, by unfold NoFailure; decide +kernel⟩

end Sys2Proof.Tests
end

section
/-! The register map: what the host reads at each register number (10_state.md R18), the bits of FLAGS (R22), and the codes of STATUS
(60_exceptions.md R147) and RSTCLS (10_state.md R21). -/

namespace Sys2Proof.Machine

/-- A flag widened to a byte and shifted to bit `k` is that bit alone. -/
theorem zext8_shiftLeft_getLsbD (b : Bool) {k : Nat} (hk : k < 8) (i : Nat) :
    (zext8 b <<< k).getLsbD i = (b && decide (i = k)) := by
  have hbit : (i < 8 ∧ ¬i < k) ∧ i - k = 0 ↔ i = k := by omega
  rw [BitVec.getLsbD_shiftLeft, zext8_getLsbD, Bool.eq_iff_iff]
  simp only [Bool.and_eq_true, Bool.not_eq_true', decide_eq_true_eq, decide_eq_false_iff_not, ← hbit]
  exact and_left_comm

theorem baudSelBit_eq_decide (b : BaudSel) : baudSelBit b = decide (b = .reset) := by cases b <;> rfl

/-- R22: FLAGS bit by bit. -/
theorem flagsByte_getLsbD (s : State) (i : Nat) :
    (flagsByte s).getLsbD i =
      (s.linkOpen && decide (i = 0) || s.busReady && decide (i = 1) || decide (s.baudSel = .reset) && decide (i = 2) ||
        s.lastDev && decide (i = 3)) := by
  simp only [flagsByte, BitVec.getLsbD_or, zext8_getLsbD, baudSelBit_eq_decide,
    zext8_shiftLeft_getLsbD _ (show 1 < 8 by decide), zext8_shiftLeft_getLsbD _ (show 2 < 8 by decide),
    zext8_shiftLeft_getLsbD _ (show 3 < 8 by decide)]

theorem flagsByte_getLsbD_of_ge {s : State} {i : Nat} (hi : 4 ≤ i) : (flagsByte s).getLsbD i = false := by
  simp [flagsByte_getLsbD, show i ≠ 0 by omega, show i ≠ 1 by omega, show i ≠ 2 by omega, show i ≠ 3 by omega]

/-- The numbers 0x05 to 0x0C read ROM. -/
theorem readReg_rom (s : State) {i : Nat} (hi : i < 8) : readReg (BitVec.ofNat 8 (0x05 + i)) s = some (byteAt s.rom i) := by
  interval_cases i <;> rfl

/-- The numbers 0x0D to 0x14 read SROM. -/
theorem readReg_srom (s : State) {i : Nat} (hi : i < 8) :
    readReg (BitVec.ofNat 8 (0x0D + i)) s = some (byteAt s.srom i) := by
  interval_cases i <;> rfl

/-- Settles O5: FLAGS bit by bit, ROM and SROM by the number's offset, and every code by its constructor. -/
theorem registerMapContents : Obligations.RegisterMapContents := by
  intro s
  refine ⟨rfl, rfl, rfl, ⟨flagsByte s, rfl, ?bit0, ?bit1, ?bit2, ?bit3, fun _ => flagsByte_getLsbD_of_ge⟩, rfl,
    fun _ => readReg_rom s, fun _ => readReg_srom s, ?statusCodes, ?rstclsCodes⟩
  case bit0 => rw [flagsByte_getLsbD]; simp
  case bit1 => rw [flagsByte_getLsbD]; simp
  case bit2 => rw [flagsByte_getLsbD]; simp
  case bit3 => rw [flagsByte_getLsbD]; simp
  case statusCodes => cases s.status <;> rfl
  case rstclsCodes =>
    cases s.rstcls with
    | classified c => cases c <;> rfl
    | noEcho => rfl
    | unclassified => rfl

end Sys2Proof.Machine
end

section
/-! Legality of a command word (30_encoding.md R61): the match and mask rows read field by field, the fixed-zero fields of each operand
form, and the words that decode. -/

namespace Sys2Proof

/-- R61 (c): the operand bytes are zero where the operand form fixes them to zero. -/
def OperandForm.FixedZero (f : OperandForm) (a b : Byte) : Prop :=
  (f ≠ .twoBytes → a = 0x00) ∧ (f = .none → b = 0x00) ∧ (f = .bit ∨ f = .mode → b.extractLsb' 1 7 = 0)

/-- The bits of A that a form fixes. -/
def OperandForm.maskA : OperandForm → Byte
  | .twoBytes => 0x00
  | _ => 0xFF

/-- The bits of B that a form fixes. -/
def OperandForm.maskB : OperandForm → Byte
  | .none => 0xFF
  | .bit | .mode => 0xFE
  | .byte | .twoBytes => 0x00

/-- The row of an opcode, put together from its byte and its operand form. -/
def Opcode.row (op : Opcode) : OpcodeRow :=
  ⟨op, Word.ofFields op.byte 0 0 0, Word.ofFields 0xFF 0xFF op.form.maskA op.form.maskB⟩

/-- The table of R61 holds the row of each opcode and nothing else. -/
theorem mem_opcodeRows {r : OpcodeRow} : r ∈ opcodeRows ↔ ∃ op : Opcode, r = op.row := by
  constructor
  · intro hr
    exact ⟨r.op, (by decide : ∀ r ∈ opcodeRows, r = r.op.row) r hr⟩
  · rintro ⟨op, rfl⟩
    cases op <;> decide

theorem Opcode.ofByte_eq_some {b : Byte} {op : Opcode} : Opcode.ofByte b = some op ↔ b = op.byte :=
  ⟨Opcode.byte_of_ofByte, fun h => h ▸ Opcode.ofByte_byte op⟩

theorem Opcode.byte_injective {op op' : Opcode} (h : op.byte = op'.byte) : op = op' :=
  Option.some.inj ((Opcode.ofByte_byte op).symm.trans (Opcode.ofByte_eq_some.2 h))

/-- Two words are equal when their four fields are. -/
theorem Word.eq_iff_fields {w v : Word} :
    w = v ↔ w.opc = v.opc ∧ w.rsv = v.rsv ∧ w.opA = v.opA ∧ w.opB = v.opB := by
  constructor
  · rintro rfl
    exact ⟨rfl, rfl, rfl, rfl⟩
  · rintro ⟨hopc, hrsv, hA, hB⟩
    rw [← Word.ofFields_eta w, hopc, hrsv, hA, hB, Word.ofFields_eta]

section masks
variable (w m : Word)
theorem Word.opc_and : (w &&& m).opc = w.opc &&& m.opc := BitVec.extractLsb'_and
theorem Word.rsv_and : (w &&& m).rsv = w.rsv &&& m.rsv := BitVec.extractLsb'_and
theorem Word.opA_and : (w &&& m).opA = w.opA &&& m.opA := BitVec.extractLsb'_and
theorem Word.opB_and : (w &&& m).opB = w.opB &&& m.opB := BitVec.extractLsb'_and
end masks

theorem Word.opB_high (w : Word) : w.opB.extractLsb' 1 7 = w.extractLsb' 1 7 := by
  apply BitVec.eq_of_getLsbD_eq
  intro i hi
  simp only [Word.opB, BitVec.getLsbD_extractLsb']
  simp [show 1 + i < 8 by omega]

theorem byte_and_allOnes (b : Byte) : b &&& 0xFF = b := BitVec.and_allOnes

theorem byte_and_high_eq_zero (b : Byte) : b &&& 0xFE = 0 ↔ b.extractLsb' 1 7 = 0 := by
  revert b; decide +kernel

/-- The masks of a form leave zero exactly when the fields it fixes are zero. -/
theorem OperandForm.masked_eq_zero (f : OperandForm) (a b : Byte) :
    a &&& f.maskA = 0 ∧ b &&& f.maskB = 0 ↔ f.FixedZero a b := by
  unfold OperandForm.FixedZero
  cases f <;> simp only [OperandForm.maskA, OperandForm.maskB, byte_and_allOnes, byte_and_high_eq_zero] <;> simp

/-- A row selects the words with its opcode byte, RSV zero and the fixed-zero fields of its form. -/
theorem Opcode.row_selects (op : Opcode) (w : Word) :
    op.row.selects w = true ↔ w.opc = op.byte ∧ w.rsv = 0x00 ∧ op.form.FixedZero w.opA w.opB := by
  rw [OpcodeRow.selects, decide_eq_true_iff, Word.eq_iff_fields, ← OperandForm.masked_eq_zero]
  simp only [Opcode.row, Word.opc_and, Word.rsv_and, Word.opA_and, Word.opB_and, Word.ofFields_opc, Word.ofFields_rsv,
    Word.ofFields_opA, Word.ofFields_opB, byte_and_allOnes]

/-- R61: the match and mask table says clauses (a), (b) and (c). -/
theorem Word.legal_iff (w : Word) :
    w.legal = true ↔ ∃ op : Opcode, w.opc = op.byte ∧ w.rsv = 0x00 ∧ op.form.FixedZero w.opA w.opB := by
  simp only [Word.legal, List.any_eq_true, mem_opcodeRows, ← Opcode.row_selects]
  exact ⟨fun ⟨_, ⟨op, hr⟩, h⟩ => ⟨op, hr ▸ h⟩, fun ⟨op, h⟩ => ⟨op.row, ⟨op, rfl⟩, h⟩⟩

/-- The rows do not overlap: a word's OPC byte determines the row. -/
theorem opcodeRow_unique {w : Word} {r q : OpcodeRow} (hr : r ∈ opcodeRows) (hq : q ∈ opcodeRows)
    (hrw : r.selects w = true) (hqw : q.selects w = true) : r = q := by
  obtain ⟨op, rfl⟩ := mem_opcodeRows.1 hr
  obtain ⟨op', rfl⟩ := mem_opcodeRows.1 hq
  have hop : w.opc = op.byte := ((Opcode.row_selects op w).1 hrw).1
  have hop' : w.opc = op'.byte := ((Opcode.row_selects op' w).1 hqw).1
  rw [Opcode.byte_injective (hop.symm.trans hop')]

theorem decode_of_rsv {w : Word} (h : w.rsv ≠ 0) : decode w = .error .reservedField := by
  unfold decode; exact if_pos h

theorem decode_of_unknown {w : Word} (hrsv : w.rsv = 0) (h : Opcode.ofByte w.opc = none) :
    decode w = .error .unknownOpcode := by
  simp [decode, hrsv, h]

/-- A word with a listed OPC and RSV zero decodes exactly when the fixed-zero fields of its form are zero. -/
theorem decodes_iff_fixedZero {w : Word} {op : Opcode} (hrsv : w.rsv = 0) (h : w.opc = op.byte) :
    (∃ i, decode w = .ok i) ↔ op.form.FixedZero w.opA w.opB := by
  rw [← Opcode.ofByte_eq_some] at h
  cases op <;> simp [decode, hrsv, h, fixedZero_ok, Opcode.form, OperandForm.FixedZero]

/-- A word decodes exactly when clauses (a), (b) and (c) of R61 hold. -/
theorem decodes_iff (w : Word) :
    (∃ i, decode w = .ok i) ↔ ∃ op : Opcode, w.opc = op.byte ∧ w.rsv = 0x00 ∧ op.form.FixedZero w.opA w.opB := by
  constructor
  · intro hi
    have hrsv : w.rsv = 0 := by
      by_contra h
      simp [decode_of_rsv h] at hi
    cases h : Opcode.ofByte w.opc with
    | none => simp [decode_of_unknown hrsv h] at hi
    | some op =>
      have hopc : w.opc = op.byte := Opcode.byte_of_ofByte h
      exact ⟨op, hopc, hrsv, (decodes_iff_fixedZero hrsv hopc).1 hi⟩
  · rintro ⟨op, hopc, hrsv, hfix⟩
    exact (decodes_iff_fixedZero hrsv hopc).2 hfix

namespace Machine

/-- Settles O15: the table and the decoder both say clauses (a), (b) and (c), and the OPC byte separates the rows. -/
theorem legalWordsDecode : Obligations.LegalWordsDecode := by
  refine ⟨fun w => ?clauses, fun w => (Word.legal_iff w).trans (decodes_iff w).symm, fun _ _ _ => opcodeRow_unique⟩
  rw [Word.legal_iff]
  simp only [OperandForm.FixedZero, Word.opB_high]
  rfl

end Machine

end Sys2Proof
end

section
/-! The serial channel (40_serial_channel.md): UART.OPEN and UART.CLOSE as whole next states (R83, R85), and the frame primitive (R78). -/

namespace Sys2Proof.Machine

/-! What the port's opening does, one equation for an open link and for each answer of the open oracle (R83, R84). -/
section openPort
variable {s : State}
theorem openPort_of_open (h : s.linkOpen = true) : openPort s = .ok () s := by simp [openPort, h]
theorem openPort_of_unavailable (h : s.linkOpen = false) (ha : (drawOpen s).1 = .unavailable) :
    openPort s = .stop .portUnavailable ((s.setEnv (drawOpen s).2).record (.opened .unavailable)) := by simp [openPort, h, ha]
theorem openPort_of_openFailed (h : s.linkOpen = false) (ha : (drawOpen s).1 = .openFailed) :
    openPort s = .stop .portOpenFailed ((s.setEnv (drawOpen s).2).record (.opened .openFailed)) := by simp [openPort, h, ha]
theorem openPort_of_ok (h : s.linkOpen = false) (ha : (drawOpen s).1 = .ok) :
    openPort s = .ok () (openLink ((s.setEnv (drawOpen s).2).record (.opened .ok))) := by simp [openPort, h, ha]
end openPort

/-- R83: what a successful open writes. -/
theorem openLink_eq (s : State) :
    openLink s = { s with
      linkOpen := true
      busReady := false
      baudSel := .normal
      lastDev := false
      lastDisc := 0x00
      rstcls := .unclassified
      srom := Vector.replicate 8 0x00 } := rfl

theorem exec_uartOpen (s : State) : exec .uartOpen s = .next (endCommand (openPort s)) := rfl

theorem exec_uartClose (s : State) : exec .uartClose s = .next (complete .ok (closeLink s)) := rfl

/-- An abort whose code is no failure on the line keeps BUS_READY: it writes what `complete` writes. -/
theorem abort_eq_complete {c : StatusCode} (h : c.clearsBusReady = false) (s : State) : abort c s = complete c s := by
  simp [abort, complete, h]

/-- Settles O17: the opening's own equation for each case, then the end of the command; neither failure of an open clears BUS_READY. -/
theorem uartOpenEffect : Obligations.UartOpenEffect := by
  refine ⟨by decide, fun s => ⟨fun h => ?linkOpen, fun h ha => ?unavailable, fun h ha => ?openFailed, fun h ha => ?opened⟩⟩
  case linkOpen => rw [exec_uartOpen, openPort_of_open h]; rfl
  case unavailable => rw [exec_uartOpen, openPort_of_unavailable h ha, endCommand_stop, abort_eq_complete rfl]; rfl
  case openFailed => rw [exec_uartOpen, openPort_of_openFailed h ha, endCommand_stop, abort_eq_complete rfl]; rfl
  case opened => rw [exec_uartOpen, openPort_of_ok h ha, endCommand_ok, openLink_eq]; rfl

/-- R85: a close records its event on an open link only, and writes the same three registers either way. -/
theorem closeLink_eq (s : State) :
    closeLink s = { s with
      linkOpen := false
      busReady := false
      baudSel := .normal
      trace := if s.linkOpen = true then s.trace ++ [.closed] else s.trace } := by
  unfold closeLink
  by_cases h : s.linkOpen = true
  · rw [if_pos h, if_pos h]; rfl
  · rw [if_neg h, if_neg h]; rfl

/-- Settles O18: closing the link, then `complete(OK)`. -/
theorem uartCloseEffect : Obligations.UartCloseEffect := by
  refine ⟨by decide, fun s => ?_⟩
  rw [exec_uartClose, closeLink_eq]; rfl

/-- Settles O20: for each selection, which fixes the rate, the rule of `frame` for each answer. -/
theorem framePrimitive : Obligations.FramePrimitive := by
  intro sel t s
  cases sel <;> exact ⟨frame_of_writeFail, frame_of_readFail, frame_of_timeout, fun _ => frame_of_echo⟩

end Sys2Proof.Machine
end

section
/-! The 1-Wire bus (41_onewire_bus.md): the reset classification (R90), and OW.RESET, OW.BIT, OW.BYTE and OW.COMMAND as whole next
states (R92, R94, R96, R97). -/

namespace Sys2Proof.Machine

/-! The words of the commands with byte operands decode to them (30_encoding.md R60, R63). -/

theorem decode_encode_owByte (d : Byte) : decode (encode (.owByte d)) = .ok (.owByte d) := by
  simp [decode, encode, Word.ofFields_opc, Word.ofFields_rsv, Word.ofFields_opA, Word.ofFields_opB, Opcode.ofByte_byte, fixedZero]

theorem decode_encode_owCommand (target cmd : Byte) :
    decode (encode (.owCommand target cmd)) = .ok (.owCommand target cmd) := by
  simp [decode, encode, Word.ofFields_opc, Word.ofFields_rsv, Word.ofFields_opA, Word.ofFields_opB, Opcode.ofByte_byte]

/-! What each bus command runs. -/

theorem exec_owReset (s : State) : exec .owReset s = .next (endCommand (resetCommand s)) := rfl
theorem exec_owBit (v : Bool) (s : State) : exec (.owBit v) s = .next (endCommand (bitCommand v s)) := rfl
theorem exec_owByte (d : Byte) (s : State) : exec (.owByte d) s = .next (endCommand (byteCommand d s)) := rfl
theorem exec_owCommand (target cmd : Byte) (s : State) :
    exec (.owCommand target cmd) s = .next (endCommand (commandCommand target cmd s)) := rfl

/-! The checks before any frame (40_serial_channel.md R86, 10_state.md R24). -/

/-- A command that checks the link first, whatever it does then, needs the link. -/
theorem needsLink_of_requireLink (i : Instr) (k : Unit → State → Run Unit)
    (hi : ∀ s, exec i s = .next (endCommand ((requireLink s).andThen k))) : NeedsLink i := by
  intro s h
  rw [hi, requireLink_closed h, Run.andThen_stop, endCommand_stop, abort_eq_complete rfl]; rfl

/-- A command that checks the link and then BUS_READY needs BUS_READY. -/
theorem needsBus_of_requireBus (i : Instr) (k : Unit → State → Run Unit)
    (hi : ∀ s, exec i s = .next (endCommand ((requireLink s).andThen fun _ s1 => (requireBus s1).andThen k))) :
    NeedsBus i := by
  intro s hl hb
  rw [hi, requireLink_open hl, Run.andThen_ok, requireBus_notReady hb, Run.andThen_stop, endCommand_stop,
    abort_eq_complete rfl]; rfl

/-! The commands past their checks. -/

theorem exec_owReset_of_open {s : State} (hl : s.linkOpen = true) :
    exec .owReset s = .next (endCommand ((busReset s).andThen fun e s1 => .ok () (s1.setResult e.2))) := by
  rw [exec_owReset, resetCommand, requireLink_open hl, Run.andThen_ok]

theorem exec_owBit_of_ready (v : Bool) {s : State} (hl : s.linkOpen = true) (hb : s.busReady = true) :
    exec (.owBit v) s = .next (endCommand ((slot v s).andThen fun b s1 => .ok () (s1.setResult (zext8 b)))) := by
  rw [exec_owBit, bitCommand, requireLink_open hl, Run.andThen_ok, requireBus_ready hb, Run.andThen_ok]

theorem exec_owByte_of_ready (d : Byte) {s : State} (hl : s.linkOpen = true) (hb : s.busReady = true) :
    exec (.owByte d) s = .next (endCommand ((touchByte d s).andThen fun r s1 => .ok () (s1.setResult r))) := by
  rw [exec_owByte, byteCommand, requireLink_open hl, Run.andThen_ok, requireBus_ready hb, Run.andThen_ok]

/-- Two bytes touched in turn, the first one's value dropped, are one run of sixteen slots. -/
theorem touchByte_then_touchByte {α : Type} (d e : Byte) (s : State) (k : Byte → State → Run α) :
    ((touchByte d s).andThen fun _ s1 => (touchByte e s1).andThen k) =
      (slots (bitsOf d ++ bitsOf e) s).andThen fun bs s1 => k (assembled (bs.drop 8)) s1 := by
  simp only [touchByte_eq, Run.andThen_assoc, Run.andThen_ok, slots_then_slots, bitsOf_length]

theorem exec_owCommand_of_open (target cmd : Byte) {s : State} (hl : s.linkOpen = true) :
    exec (.owCommand target cmd) s = .next (endCommand ((busReset s).andThen fun _ s1 =>
      (slots (bitsOf target ++ bitsOf cmd) s1).andThen fun bs s2 => .ok () (s2.setResult (assembled (bs.drop 8))))) := by
  rw [exec_owCommand, commandCommand, requireLink_open hl, Run.andThen_ok]
  simp only [touchByte_then_touchByte]

/-! The bytes and bits that answers give. -/

theorem zext8_bit (o : LineOutcome) : zext8 o.bit = if o = .echo 0xFF then 0x01 else 0x00 := by
  simp only [zext8, LineOutcome.bit, decide_eq_true_eq]

/-- The status of a failed answer is one whose abort clears BUS_READY. -/
theorem LineOutcome.clearsBusReady_of_failure {o : LineOutcome} {c : StatusCode} (h : o.failure = some c) :
    c.clearsBusReady = true :=
  firstFailure_clears (os := [o]) (k := 0) ⟨h, fun _ hj => absurd hj (Nat.not_lt_zero _)⟩

/-- The last eight answers assemble to their touched byte. -/
theorem touched_last {os : List LineOutcome} {k : Nat} (hk : os.length = k + 8) :
    Touched (assembled ((os.map LineOutcome.bit).drop k)) os k := by
  have h := touched_assembled (os := os) (k := k) (by omega)
  rwa [List.take_of_length_le (by simp [hk])] at h

/-- An answer put in front moves a touched byte's index by one. -/
theorem touched_cons {r : Byte} {os : List LineOutcome} {k : Nat} (o : LineOutcome) (h : Touched r os k) :
    Touched r (o :: os) (k + 1) := by
  intro i hi
  rw [h i hi, Nat.add_right_comm]; rfl

/-- A byte none of whose slots fails. -/
theorem touchByte_ok {d : Byte} {s : State} (h : NoFailure (s.answersTo (byteAsks d))) :
    ∃ r, Touched r (s.answersTo (byteAsks d)) 0 ∧ touchByte d s = .ok r (s.afterFrames (byteAsks d)) := by
  refine ⟨_, touched_last (by simp), ?_⟩
  rw [touchByte_eq, slots_ok (.inr (by simp [bitsOf])) h, Run.andThen_ok]; rfl

/-- A byte whose slot `k` is the first to fail. -/
theorem touchByte_stop {d : Byte} {s : State} {k : Nat} {c : StatusCode}
    (h : FirstFailure (s.answersTo (byteAsks d)) k c) :
    touchByte d s = .stop c (s.afterFrames ((byteAsks d).take (k + 1))) := by
  rw [touchByte_eq, slots_stop h, Run.andThen_stop]; rfl

theorem twoByteAsks_eq (d e : Byte) : byteAsks d ++ byteAsks e = (bitsOf d ++ bitsOf e).map slotAsk := rfl

/-! The reset classification (R90). -/

theorem classify_of_other {r : Byte} (hnone : r ≠ 0xF0) (hshort : r ≠ 0x00) (hsingle : r ≠ 0xE0) :
    classify r = .multipleDevicesPresent := by
  rw [classify, if_neg hnone, if_neg hshort, if_neg hsingle]

/-- Settles O22: the three named echoes each by evaluation, every other byte by the last branch. -/
theorem resetClassification : Obligations.ResetClassification := by
  intro r
  refine ⟨?none, ?short, ?single, classify_of_other⟩
  case none => rintro rfl; rfl
  case short => rintro rfl; rfl
  case single => rintro rfl; rfl

/-- Settles O23: the rule of the reset frame for a presence; its failures fail fast. -/
theorem owResetEffect : Obligations.OwResetEffect := by
  refine ⟨by decide, needsLink_of_requireLink _ _ exec_owReset, failsFast_of_busReset _ _ fun _ => exec_owReset_of_open,
    fun s r hl hr hp => ?_⟩
  rw [exec_owReset_of_open hl, busReset_presence hr hp]; rfl

/-- Settles O24: past the checks the command is one slot, whose answer fails or gives the bit. -/
theorem owBitEffect : Obligations.OwBitEffect := by
  refine ⟨fun v => by cases v <;> decide,
    fun v => ⟨needsLink_of_requireLink _ _ (exec_owBit v), needsBus_of_requireBus _ _ (exec_owBit v)⟩,
    fun v s o hl hb ho => ⟨fun hok => ?ok, fun c hc => ?failed⟩⟩
  case ok =>
    rw [exec_owBit_of_ready v hl hb, slot_ok ho hok, Run.andThen_ok, endCommand_ok, zext8_bit]; rfl
  case failed =>
    rw [exec_owBit_of_ready v hl hb, slot_stop ho hc, Run.andThen_stop, endCommand_stop,
      abort_lineFailure rfl (LineOutcome.clearsBusReady_of_failure hc)]; rfl

/-- Settles O25: past the checks the command is one touched byte; the abort at slot `k` keeps the frames sent (R100). -/
theorem owByteEffect : Obligations.OwByteEffect := by
  refine ⟨fun d => ⟨decode_encode_owByte d, needsLink_of_requireLink _ _ (exec_owByte d),
      needsBus_of_requireBus _ _ (exec_owByte d)⟩,
    fun d s hl hb => ⟨fun hok => ?ok, fun k c hc => ?failed⟩⟩
  case ok =>
    obtain ⟨r, hr, htouch⟩ := touchByte_ok hok
    refine ⟨r, hr, ?_⟩
    rw [exec_owByte_of_ready d hl hb, htouch]; rfl
  case failed =>
    rw [exec_owByte_of_ready d hl hb, touchByte_stop hc, Run.andThen_stop, endCommand_stop,
      abort_lineFailure rfl (firstFailure_clears hc)]; rfl

/-- Settles O27: on an open link the command is the reset frame, then one run of sixteen slots, of which the last eight give RESULT. -/
theorem owCommandEffect : Obligations.OwCommandEffect := by
  refine ⟨decode_encode_owCommand,
    fun target cmd => ⟨needsLink_of_requireLink _ _ (exec_owCommand target cmd),
      failsFast_of_busReset _ _ fun _ => exec_owCommand_of_open target cmd⟩,
    fun target cmd s r0 hl h0 hp => ?_⟩
  obtain ⟨s1, hreset, -, -, hanswers, hafter⟩ := busReset_then h0 hp
  rw [exec_owCommand_of_open target cmd hl, hreset, Run.andThen_ok, hanswers, twoByteAsks_eq]
  refine ⟨fun hok => ?ok, fun k c hc => ?failedSlot⟩
  case ok =>
    refine ⟨_, touched_cons _ (touched_last (k := 8) (by simp)), ?_⟩
    rw [slots_ok (.inr (by simp [bitsOf])) (noFailure_tail hok), Run.andThen_ok, hafter]; rfl
  case failedSlot =>
    obtain ⟨k, rfl, hslot⟩ := firstFailure_tail hc
    rw [slots_stop hslot, Run.andThen_stop, endCommand_stop, hafter, List.take_succ_cons,
      abort_lineFailure rfl (firstFailure_clears hslot)]; rfl

end Sys2Proof.Machine
end

section
/-! The ROM commands (42_rom_commands.md): OW.SEARCHRST, OW.READROM, OW.TRIPLET and a pass of OW.SEARCH as whole next states
(R107, R110, R111, R112). -/

namespace Sys2Proof.Machine

/-! What each ROM command runs. -/

theorem exec_owReadrom (s : State) : exec .owReadrom s = .next (endCommand (readRomCommand s)) := rfl
theorem exec_owSearchrst (s : State) : exec .owSearchrst s = .next (endCommand (searchResetCommand s)) := rfl
theorem exec_owTriplet (v : Bool) (s : State) : exec (.owTriplet v) s = .next (endCommand (tripletCommand v s)) := rfl
theorem exec_owSearch (m : SearchMode) (s : State) : exec (.owSearch m) s = .next (endCommand (searchCommand m s)) := rfl

/-- Settles O31: past the link check the command writes state FIRST and the zero path, then completes. -/
theorem owSearchrstEffect : Obligations.OwSearchrstEffect := by
  refine ⟨by decide, needsLink_of_requireLink _ _ exec_owSearchrst, fun s hl => ?_⟩
  rw [exec_owSearchrst, searchResetCommand, requireLink_open hl, Run.andThen_ok]; rfl

/-! OW.READROM (R107): the reset frame, then one run of 72 slots. -/

/-- The bits OW.READROM sends after the reset frame: those of READ_ROM, then eight read bytes. -/
def readRomBits : List Bool := bitsOf byteReadRom ++ [0, 1, 2, 3, 4, 5, 6, 7].flatMap fun _ => bitsOf 0xFF

theorem readRomAsks_eq : readRomAsks = resetAsk :: readRomBits.map slotAsk := rfl

@[simp] theorem readRomBits_length : readRomBits.length = 72 := rfl

/-- ROM from the bits of the 72 slots: the eight bytes after READ_ROM in reverse order of reception (R106). -/
def romOfBits (bs : List Bool) : Bytes8 := romFromReception (fillBytes [0, 1, 2, 3, 4, 5, 6, 7] zeroBytes (bs.drop 8))

theorem exec_owReadrom_of_open {s : State} (hl : s.linkOpen = true) :
    exec .owReadrom s = .next (endCommand ((busReset s).andThen fun _ s1 =>
      (slots readRomBits s1).andThen fun bs s2 => .ok () (s2.setRom (romOfBits bs)))) := by
  rw [exec_owReadrom, readRomCommand, requireLink_open hl, Run.andThen_ok]
  simp only [touchByte_eq, readBytes_eq, Run.andThen_assoc, Run.andThen_ok, slots_then_slots, bitsOf_length]
  rfl

/-- Byte `7 - j` of ROM is the touched byte of the eight slots of the `j`-th byte read. -/
theorem touched_romOfBits {os : List LineOutcome} (hos : os.length = 72) {j : Nat} (hj : j < 8) :
    Touched (byteAt (romOfBits (os.map LineOutcome.bit)) (7 - j)) os (8 + 8 * j) := by
  rw [romOfBits, byteAt_romFromReception _ _ (by omega), byteAt_fillBytes _ _ (by omega), List.drop_drop,
    show 7 - (7 - j) = j by omega]
  exact touched_assembled (by omega)

/-- Settles O30: on an open link the command is the reset frame, then one run of 72 slots; ROM is written after the last of them. -/
theorem owReadromEffect : Obligations.OwReadromEffect := by
  refine ⟨by decide, needsLink_of_requireLink _ _ exec_owReadrom, failsFast_of_busReset _ _ fun _ => exec_owReadrom_of_open,
    fun s r0 hl h0 hp => ?_⟩
  rw [readRomAsks_eq] at h0 ⊢
  obtain ⟨s1, hreset, -, -, hanswers, hafter⟩ := busReset_then h0 hp
  rw [exec_owReadrom_of_open hl, hreset, Run.andThen_ok, hanswers]
  refine ⟨fun hok => ?ok, fun k c hc => ?failedSlot⟩
  case ok =>
    refine ⟨romOfBits ((s1.answersTo (readRomBits.map slotAsk)).map LineOutcome.bit), fun j hj => ?_, ?_⟩
    · rw [show 9 + 8 * j = 8 + 8 * j + 1 by omega]
      exact touched_cons _ (touched_romOfBits (by simp) hj)
    · rw [slots_ok (.inr (by simp [readRomBits, bitsOf])) (noFailure_tail hok), Run.andThen_ok, hafter]
      -- The end of the command is the same whatever frames were sent.
      generalize resetAsk :: readRomBits.map slotAsk = fs
      rfl
  case failedSlot =>
    obtain ⟨k, rfl, hslot⟩ := firstFailure_tail hc
    rw [slots_stop hslot, Run.andThen_stop, endCommand_stop, hafter, List.take_succ_cons,
      abort_lineFailure rfl (firstFailure_clears hslot)]; rfl

/-! OW.TRIPLET (R111): a run of three slots, the third of which sends the direction the first two answers give. -/

theorem positionAsks_eq (dir : Bool) : positionAsks dir = [true, true, dir].map slotAsk := rfl

/-- The RESULT layout: dir, cmp, id from bit 2 down. -/
theorem tripletResult_eq (id cmp dir : Bool) :
    tripletResult id cmp dir = BitVec.ofNat 8 (4 * dir.toNat + 2 * cmp.toNat + id.toNat) := by
  revert id cmp dir; decide

/-- Two read slots and a slot that sends what `f` makes of their bits are one run of three slots, and the bits are those of the
answers to the reads. -/
theorem readSlots_then_slot {α : Type} (f : Bool → Bool → Bool) (s : State) (k : Bool → Bool → State → Run α) :
    ((slot true s).andThen fun id s1 => (slot true s1).andThen fun cmp s2 =>
        (slot (f id cmp) s2).andThen fun _ s3 => k id cmp s3) =
      let id := bitOf (s.answersTo [slotAsk true, slotAsk true]) 0
      let cmp := bitOf (s.answersTo [slotAsk true, slotAsk true]) 1
      (slots [true, true, f id cmp] s).andThen fun _ s3 => k id cmp s3 := by
  obtain ⟨a, ha, hab⟩ := s.answersTo_cons (slotAsk true) [slotAsk true]
  obtain ⟨b, hb, -⟩ := (s.afterFrames [slotAsk true]).answersTo_cons (slotAsk true) []
  have hid : bitOf (s.answersTo [slotAsk true, slotAsk true]) 0 = a.bit := by rw [hab]; rfl
  have hcmp : bitOf (s.answersTo [slotAsk true, slotAsk true]) 1 = b.bit := by rw [hab, hb]; rfl
  simp only [hid, hcmp, slots, Run.andThen_assoc, Run.andThen_ok]
  cases hfa : a.failure with
  | some c => rw [slot_stop ha hfa, Run.andThen_stop, Run.andThen_stop]
  | none =>
    rw [slot_ok ha hfa, Run.andThen_ok, Run.andThen_ok]
    cases hfb : b.failure with
    | some c => rw [slot_stop hb hfb, Run.andThen_stop, Run.andThen_stop]
    | none => rw [slot_ok hb hfb, Run.andThen_ok, Run.andThen_ok]

theorem exec_owTriplet_of_ready (v : Bool) {s : State} (hl : s.linkOpen = true) (hb : s.busReady = true) :
    exec (.owTriplet v) s =
      let id := bitOf (s.answersTo [slotAsk true, slotAsk true]) 0
      let cmp := bitOf (s.answersTo [slotAsk true, slotAsk true]) 1
      let dir := tripletDirection id cmp v
      .next (endCommand ((slots [true, true, dir] s).andThen fun _ s1 =>
        .ok () (s1.setResult (tripletResult id cmp dir)))) := by
  rw [exec_owTriplet, tripletCommand, requireLink_open hl, Run.andThen_ok, requireBus_ready hb, Run.andThen_ok,
    readSlots_then_slot (fun id cmp => tripletDirection id cmp v)]

/-- Settles O32: past the checks the command is one run of three slots. -/
theorem owTripletEffect : Obligations.OwTripletEffect := by
  refine ⟨fun v => by cases v <;> decide,
    fun v => ⟨needsLink_of_requireLink _ _ (exec_owTriplet v), needsBus_of_requireBus _ _ (exec_owTriplet v)⟩,
    fun v s hl hb => ?_⟩
  intro reads id cmp dir
  have hrun : exec (.owTriplet v) s = .next (endCommand ((slots [true, true, dir] s).andThen fun _ s1 =>
      .ok () (s1.setResult (tripletResult id cmp dir)))) := exec_owTriplet_of_ready v hl hb
  rw [hrun, positionAsks_eq]
  refine ⟨fun hok => ?ok, fun k c hc => ?failed⟩
  case ok =>
    rw [← tripletResult_eq, slots_ok (.inr (by simp)) hok]; rfl
  case failed =>
    rw [slots_stop hc, Run.andThen_stop, endCommand_stop, abort_lineFailure rfl (firstFailure_clears hc)]; rfl

/-! A pass of OW.SEARCH (R112, R114, R118): the reset frame, the ROM command byte, and 64 positions of three slots. -/

theorem searchCommandByte_eq (m : SearchMode) : searchCommandByte m = searchByte m := by cases m <;> rfl

/-- On an open link and not in state DONE, OW.SEARCH is the guarded pass. -/
theorem exec_owSearch_of_open (m : SearchMode) {s : State} (hl : s.linkOpen = true) (hd : s.lastDev = false) :
    exec (.owSearch m) s = .next (endCommand ((searchPass m s).onAbort searchFirst)) := by
  rw [exec_owSearch, searchCommand, requireLink_open hl, Run.andThen_ok, if_neg (by simp [hd])]

/-! The bits read at a position, when one answer to the reset frame and eight to the ROM command byte come before those of the
positions. -/
section passAnswers
variable {o : LineOutcome} {command positions : List LineOutcome}

theorem bitOf_pass (h : command.length = 8) (i : Nat) : bitOf (o :: (command ++ positions)) (9 + i) = bitOf positions i := by
  rw [← bitOf_append_right (os := o :: command) (ps := positions) i, List.length_cons, h]; rfl

theorem readId_pass (h : command.length = 8) (j : Nat) :
    readId (o :: (command ++ positions)) (j + 1) = bitOf positions (3 * j) := bitOf_pass h (3 * j)

theorem readCmp_pass (h : command.length = 8) (j : Nat) :
    readCmp (o :: (command ++ positions)) (j + 1) = bitOf positions (3 * j + 1) :=
  bitOf_pass h (3 * j + 1)

theorem zeroTaken_pass (h : command.length = 8) (dirs : List Bool) (j : Nat) :
    ZeroTaken (o :: (command ++ positions)) dirs (j + 1) ↔
      bitOf positions (3 * j) = bitOf positions (3 * j + 1) ∧ dirs.getD j false = false := by
  rw [ZeroTaken, readId_pass h, readCmp_pass h]; rfl

/-- The directions of a whole pass are those its positions take. -/
theorem takes_of_takesDirections {s : State} {dirs : List Bool} (h : command.length = 8)
    (ht : TakesDirections s (o :: (command ++ positions)) dirs) : Takes s.lastDisc s.srom 0 positions dirs := by
  intro j hj
  obtain ⟨hanswer, hdir⟩ := ht (j + 1) (by omega) hj
  rw [readId_pass h, readCmp_pass h] at hanswer hdir
  rw [Nat.zero_add, Nat.add_comm 1 j, searchTake, searchDirection_eq]
  exact ⟨hanswer, hdir⟩

end passAnswers

/-- `last_zero` as the loop leaves it over the positions 1 to 64: 0, or the last of them at which 0 was taken at a discrepancy. -/
theorem lastZero_of_loop {os : List LineOutcome} {dirs : List Bool} {last : Nat}
    (h : (last = 0 ∧ ∀ j, j < 64 → ¬ZeroTaken os dirs (j + 1)) ∨
      ∃ j, j < 64 ∧ last = j + 1 ∧ ZeroTaken os dirs (j + 1) ∧ ∀ i, j < i → i < 64 → ¬ZeroTaken os dirs (i + 1)) :
    LastZero os dirs last := by
  rcases h with ⟨rfl, hnone⟩ | ⟨j, hj, rfl, htaken, hafter⟩
  · refine ⟨by omega, fun h => absurd h (by omega), fun n hn hn' => ?_⟩
    obtain ⟨i, rfl⟩ := Nat.exists_eq_add_of_lt hn
    rw [Nat.zero_add] at hn' ⊢
    exact hnone i (by omega)
  · refine ⟨by omega, fun _ => htaken, fun n hn hn' => ?_⟩
    obtain ⟨i, rfl⟩ := Nat.exists_eq_add_of_lt hn
    exact hafter _ (by omega) (by omega)

/-- A pass none of whose frames fails and at every position of which a device answers comes to its end, with its directions on
the path. -/
theorem searchPass_ok {m : SearchMode} {s : State} {r0 : Byte} {dirs : List Bool} (hlen : dirs.length = 64)
    (h0 : (s.answersTo (searchAsks m dirs))[0]? = some (.echo r0)) (hp : presence r0)
    (hok : NoFailure (s.answersTo (searchAsks m dirs))) (ht : TakesDirections s (s.answersTo (searchAsks m dirs)) dirs) :
    ∃ (path : Bytes8) (last : Nat), PathAfter s.srom path dirs 64 ∧
      LastZero (s.answersTo (searchAsks m dirs)) dirs last ∧
      searchPass m s = searchFound last { s.afterFrames (searchAsks m dirs) with
        rstcls := presenceClass r0
        busReady := true
        srom := path } := by
  obtain ⟨s1, hreset, -, hs1, hanswers, hafter⟩ := busReset_then h0 hp
  rw [searchAsks, hanswers, State.answersTo_append] at hok ht ⊢
  have hcommand : (s1.answersTo (byteAsks (searchByte m))).length = 8 := by simp
  have hslots := noFailure_tail hok
  obtain ⟨r, -, htouch⟩ := touchByte_ok fun o ho => hslots o (List.mem_append_left _ ho)
  obtain ⟨path, last, hloop, hpath, hlast⟩ := searchLoop_ok dirs 0 0 (s1.afterFrames (byteAsks (searchByte m))) rfl (by omega)
    (fun o ho => hslots o (List.mem_append_right _ ho)) (by subst hs1; exact takes_of_takesDirections hcommand ht)
  rw [hlen, Nat.zero_add] at hloop
  refine ⟨path, last, fun n h1 h2 => ?path, lastZero_of_loop ?lastZero, ?run⟩
  case path => rw [hpath n h1 h2, if_pos (by omega), if_pos h2]; rfl
  case lastZero =>
    simp only [zeroTaken_pass hcommand]
    simpa only [hlen, Nat.zero_add, Nat.add_comm 1] using hlast
  case run =>
    rw [searchPass, hreset, Run.andThen_ok, searchCommandByte_eq, htouch, Run.andThen_ok, searchPositions, hloop,
      Run.andThen_ok, State.afterFrames_append, hafter]; rfl

/-! The end of a pass (R112, R114, R118). -/

theorem searchFound_zeroFamily {last : Nat} {s : State} (h : byteAt s.srom 0 = 0x00) :
    searchFound last s = .stop .searchZeroFamily s := if_pos h

theorem searchFound_found {last : Nat} {s : State} (h : byteAt s.srom 0 ≠ 0x00) (hd : s.lastDev = false) :
    searchFound last s = .ok () { s with
      lastDisc := BitVec.ofNat 8 last
      lastDev := decide (last = 0)
      rom := romFromReception s.srom } := by
  rw [searchFound, if_neg h]
  by_cases hlast : last = 0
  · simp only [if_pos hlast, decide_eq_true hlast]; rfl
  · simp only [if_neg hlast, decide_eq_false hlast, ← hd]; rfl

/-- Settles O34: the pass comes to its end, which accepts the path or reports SearchZeroFamily by its first byte. -/
theorem searchPassEffect : Obligations.SearchPassEffect := by
  refine ⟨fun m => by cases m <;> decide, ?_⟩
  intro m s r0 dirs fs os hl hd hlen h0 hp hok ht
  obtain ⟨path, last, hpath, hlast, hpass⟩ := searchPass_ok hlen h0 hp hok ht
  rw [exec_owSearch_of_open m hl hd, hpass]
  refine ⟨path, romFromReception path, last, hpath, hlast, byteAt_romFromReception path, fun hfam => ?found, fun hfam => ?zero⟩
  case found => rw [searchFound_found (by exact hfam) (by exact hd)]; rfl
  case zero => rw [searchFound_zeroFamily (by exact hfam), Run.onAbort_stop, endCommand_stop, abort_eq_complete rfl]; rfl

end Sys2Proof.Machine
end

section
/-! The data formats of the host programs (45_host_transactions.md R127, R128) and the programs themselves: what one command of a
program does on a ready bus, H.POWER (R129, R138), the bound on the polls of H.CONVERT (R131), and the range H.SETRES checks (R140). -/

namespace Sys2Proof.Machine

/-! The resolution of a configuration byte (R127) and the temperature of two bytes (R128). -/

theorem toNat_shiftRight_and_one (c : Byte) (i : Nat) : ((c >>> i) &&& 1).toNat = (c.getLsbD i).toNat := by
  rw [BitVec.toNat_and, BitVec.toNat_ushiftRight, BitVec.getLsbD, Nat.toNat_testBit, Nat.shiftRight_eq_div_pow]
  exact Nat.and_one_is_mod _

theorem resolutionBits_eq (c : Byte) :
    resolutionBits c = 9 + (c.getLsbD 5).toNat + 2 * (c.getLsbD 6).toNat := by
  rw [resolutionBits, toNat_shiftRight_and_one, toNat_shiftRight_and_one, Nat.shiftLeft_eq, pow_one, Nat.mul_comm]

/-- Settles O47: a bit is at most 1, so the sum is at most 9 + 1 + 2. -/
theorem resolutionOfConfiguration : Obligations.ResolutionOfConfiguration := by
  intro c
  have h5 := (c.getLsbD 5).toNat_le
  have h6 := (c.getLsbD 6).toNat_le
  rw [resolutionBits_eq]
  exact ⟨rfl, by omega, by omega⟩

theorem temperatureRaw_toNat (lsb msb : Byte) : (temperatureRaw lsb msb).toNat = 256 * msb.toNat + lsb.toNat := by
  have hlsb := lsb.isLt
  have hmsb := msb.isLt
  have hshift : (msb.setWidth 16 <<< 8).toNat = msb.toNat <<< 8 := by
    rw [BitVec.toNat_shiftLeft, BitVec.toNat_setWidth, Nat.shiftLeft_eq, Nat.shiftLeft_eq]
    omega
  rw [temperatureRaw, BitVec.toNat_or, hshift, BitVec.toNat_setWidth_of_le (by decide),
    ← Nat.shiftLeft_add_eq_or_of_lt hlsb, Nat.shiftLeft_eq, Nat.mul_comm]

theorem temperatureSixteenths_eq (lsb msb : Byte) :
    temperatureSixteenths lsb msb = (256 * msb.toNat + lsb.toNat : Nat) - if 128 ≤ msb.toNat then 65536 else 0 := by
  have hlsb := lsb.isLt
  rw [temperatureSixteenths, BitVec.toInt_eq_toNat_cond, temperatureRaw_toNat]
  split <;> split <;> omega

/-- Settles O49: the sign bit of the 16-bit value is the top bit of its high byte, whose weight counts negatively. -/
theorem temperatureIsSignedSixteenths : Obligations.TemperatureIsSignedSixteenths := by
  intro lsb msb
  rw [temperature, temperatureSixteenths_eq]
  push_cast
  rfl

/-- Settles O50: the range is checked before any command. -/
theorem invalidResolutionTouchesNothing : Obligations.InvalidResolutionTouchesNothing := by
  intro bits s hrange
  exact ⟨if_pos hrange, rfl⟩

/-! What a program has sent so far, and what its next command adds to it. -/

/-- A program that began in the state `s` stands in the state `t` ready for a bus operation, every command so far having ended with OK,
and its frames `fs` are all that has been sent since `s`. -/
structure ReadyAfter (s : State) (fs : List FrameAsk) (t : State) : Prop where
  linkOpen : t.linkOpen = true
  busReady : t.busReady = true
  status : t.status = .ok
  env : t.env = (s.afterFrames fs).env
  trace : t.trace = (s.afterFrames fs).trace

theorem ReadyAfter.advanceHost {s t : State} {fs : List FrameAsk} (h : ReadyAfter s fs t) : ReadyAfter s fs (advanceHost t) :=
  { h with }

theorem ReadyAfter.hostGoto {s t : State} {fs : List FrameAsk} (h : ReadyAfter s fs t) (pc : Nat) :
    ReadyAfter s fs (hostGoto pc t) :=
  { h with }

/-- The answers to a program's frames so far, followed by those to its next frames. -/
theorem ReadyAfter.answersTo_append {s t : State} {fs : List FrameAsk} (h : ReadyAfter s fs t) (gs : List FrameAsk) :
    s.answersTo (fs ++ gs) = s.answersTo fs ++ t.answersTo gs := by
  rw [State.answersTo_append, State.answersTo_congr h.env h.trace]

/-- `Do(c)` for a command that ends with OK (R124). -/
theorem doCommand_ok {i : Instr} {s t : State} (hdecode : decode (encode i) = .ok i) (hexec : exec i s = .next t)
    (hok : t.status = .ok) : doCommand i s = .done (advanceHost t).result (advanceHost t) := by
  rw [doCommand, commandPort_of_decode hdecode, hexec]
  exact if_pos (StatusCode.code_eq_zero.mpr hok)

theorem noFailure_append {os ps : List LineOutcome} : NoFailure (os ++ ps) ↔ NoFailure os ∧ NoFailure ps :=
  List.forall_mem_append

theorem noFailure_answersTo_left {s : State} {fs gs : List FrameAsk} (h : NoFailure (s.answersTo (fs ++ gs))) :
    NoFailure (s.answersTo fs) := by
  rw [State.answersTo_append] at h
  exact (noFailure_append.mp h).1

theorem bitOf_answersTo_left {s : State} {fs gs : List FrameAsk} {i : Nat} (h : i < fs.length) :
    bitOf (s.answersTo (fs ++ gs)) i = bitOf (s.answersTo fs) i := by
  rw [State.answersTo_append, bitOf_append_left (by simpa using h)]

/-- Answers put in front move a touched byte's index by their number. -/
theorem touched_append_right {r : Byte} {os ps : List LineOutcome} (h : Touched r ps 0) : Touched r (os ++ ps) os.length := by
  intro i hi
  rw [h i hi, bitOf_append_right, Nat.zero_add]

theorem eq_zero_of_touched {r : Byte} {os : List LineOutcome} {k : Nat} (h : Touched r os k)
    (hzero : ∀ j, k ≤ j → j < k + 8 → bitOf os j = false) : r = 0x00 := by
  refine BitVec.eq_of_getLsbD_eq fun i hi => ?_
  simp [h i hi, hzero (k + i) (by omega) (by omega)]

/-- The frames of `OW.COMMAND 0xCC, cmd`. -/
abbrev skipRomAsks (cmd : Byte) : List FrameAsk := resetAsk :: (byteAsks 0xCC ++ byteAsks cmd)

/-- `OW.COMMAND 0xCC, cmd` first in a program, on an open link, when a device answers the reset and no frame fails. -/
theorem hostSkipRom_ready {cmd : Byte} {s : State} {r0 : Byte} {gs : List FrameAsk} (hl : s.linkOpen = true)
    (h0 : (s.answersTo (skipRomAsks cmd ++ gs))[0]? = some (.echo r0)) (hp : presence r0)
    (hok : NoFailure (s.answersTo (skipRomAsks cmd ++ gs))) :
    ∃ t, hostSkipRom cmd s = .done t.result t ∧ ReadyAfter s (skipRomAsks cmd) t := by
  rw [State.answersTo_append, List.getElem?_append_left (by simp)] at h0
  obtain ⟨-, -, heffect⟩ := owCommandEffect
  obtain ⟨r, -, hexec⟩ := (heffect 0xCC cmd s r0 hl h0 hp).1 (noFailure_answersTo_left hok)
  exact ⟨_, doCommand_ok (decode_encode_owCommand _ _) hexec rfl, ReadyAfter.advanceHost ⟨hl, rfl, rfl, rfl, rfl⟩⟩

/-- `OW.BYTE d` in a program, when no frame fails: its eight frames are added, and the byte they touch is returned. -/
theorem ReadyAfter.doCommand_owByte {s t : State} {fs : List FrameAsk} {d : Byte} (h : ReadyAfter s fs t)
    (hok : NoFailure (s.answersTo (fs ++ byteAsks d))) :
    ∃ u, doCommand (.owByte d) t = .done u.result u ∧ Touched u.result (s.answersTo (fs ++ byteAsks d)) fs.length ∧
      ReadyAfter s (fs ++ byteAsks d) u := by
  rw [h.answersTo_append] at hok ⊢
  obtain ⟨-, heffect⟩ := owByteEffect
  obtain ⟨r, htouched, hexec⟩ := (heffect d t h.linkOpen h.busReady).1 (noFailure_append.mp hok).2
  refine ⟨_, doCommand_ok (decode_encode_owByte d) hexec rfl, ?touched, ReadyAfter.advanceHost ?ready⟩
  case touched => simpa using touched_append_right (os := s.answersTo fs) htouched
  case ready =>
    refine ⟨h.linkOpen, h.busReady, rfl, ?_, ?_⟩ <;> rw [← State.afterFrames_append] <;>
      simp only [State.afterFrames, h.env, h.trace]

/-- Settles O54: OW.COMMAND, then the one byte read, which decides the mode. -/
theorem powerModeProgram : Obligations.PowerModeProgram := by
  intro s r0 fs os hl h0 hp hok
  obtain ⟨t, hskip, ht⟩ := hostSkipRom_ready hl h0 hp hok
  obtain ⟨u, hread, htouched, hu⟩ := ht.doCommand_owByte hok
  refine ⟨u.result, u, htouched, hu.trace, ?_⟩
  rw [hPower, byteReadPowerSupply, hskip, HostRun.andThen_done, hread]
  rfl

/-! The polls of H.CONVERT that all read 0x00 (R131). -/

/-- A poll that reads 0x00 is followed by the next one, if any is left and no signal stops the wait. -/
theorem pollLoop_of_zero {label left : Nat} {s t : State} (h : doCommand (.owByte 0xFF) s = .done 0x00 t) :
    pollLoop label (left + 1) none s =
      if left = 0 then .failed .conversionTimeout t else pollLoop label left none (hostGoto label t) := by
  rw [pollLoop, h]
  rfl

/-- When every poll that may still be made reads 0x00, all of them are made, and then the loop fails with ConversionTimeout. -/
theorem pollLoop_allZero {s : State} (label : Nat) {left : Nat} {fs : List FrameAsk} {t : State} (ht : ReadyAfter s fs t)
    (hleft : 1 ≤ left) (hok : NoFailure (s.answersTo (fs ++ (List.replicate left (byteAsks 0xFF)).flatten)))
    (hzero : ∀ j, fs.length ≤ j → bitOf (s.answersTo (fs ++ (List.replicate left (byteAsks 0xFF)).flatten)) j = false) :
    ∃ u, pollLoop label left none t = .failed .conversionTimeout u ∧ u.result = 0x00 ∧
      ReadyAfter s (fs ++ (List.replicate left (byteAsks 0xFF)).flatten) u := by
  induction left generalizing fs t with
  | zero => omega
  | succ left ih =>
    rw [List.replicate_succ, List.flatten_cons, ← List.append_assoc] at hok hzero ⊢
    obtain ⟨u, hpoll, htouched, hu⟩ := ht.doCommand_owByte (noFailure_answersTo_left hok)
    have hresult : u.result = 0x00 := eq_zero_of_touched htouched fun j hj hj' => by
      rw [← bitOf_answersTo_left (by simpa using hj'), hzero j hj]
    rw [hresult] at hpoll
    rw [pollLoop_of_zero hpoll]
    by_cases hlast : left = 0
    · subst hlast
      exact ⟨u, rfl, hresult, by simpa using hu⟩
    · rw [if_neg hlast]
      exact ih (hu.hostGoto label) (by omega) hok fun j hj => hzero j (by simp at hj; omega)

/-- Settles O51: OW.COMMAND, then the poll loop, which makes every poll. -/
theorem conversionPollsAreBounded : Obligations.ConversionPollsAreBounded := by
  refine ⟨rfl, ?_⟩
  intro maxPolls s r0 fs os hmax hl h0 hp hok hzero
  obtain ⟨t, hskip, ht⟩ := hostSkipRom_ready hl h0 hp hok
  obtain ⟨u, hloop, hresult, hu⟩ := pollLoop_allZero t.host.pc ht hmax hok hzero
  refine ⟨u, ?_, rfl, hu.trace, hu.status, hresult⟩
  rw [hConvert, byteTemperatureRead, hskip, HostRun.andThen_done, hloop]

end Sys2Proof.Machine
end

section
/-! How a command ends (60_exceptions.md R151 to R153): the whole state `complete` and `abort` write. -/

namespace Sys2Proof.Machine

/-- R153: the causes on the line, by their codes. -/
theorem StatusCode.clearsBusReady_iff_code (c : StatusCode) :
    c.clearsBusReady = true ↔ c.code = 0x01 ∨ c.code = 0x02 ∨ c.code = 0x03 ∨ c.code = 0x04 ∨ c.code = 0x05 := by
  cases c <;> decide

/-- Settles O38: by whether the cause is on the line. If it is, the abort writes BUS_READY = 0 as well; otherwise it writes what
`complete` writes. -/
theorem endingACommand : Obligations.EndingACommand := by
  intro c s
  refine ⟨rfl, ?_⟩
  cases hline : c.clearsBusReady with
  | true => rw [abort_lineFailure rfl hline, if_pos (c.clearsBusReady_iff_code.mp hline)]; rfl
  | false =>
    have hcode := mt c.clearsBusReady_iff_code.mpr (Bool.eq_false_iff.mp hline)
    rw [abort_eq_complete hline, if_neg hcode]; rfl

end Sys2Proof.Machine
end

section
/-! The encoder and the decoder as inverse maps (30_encoding.md R57 to R63), through the opcode and the two operand bytes of a command;
and the written form of a command (R64). -/

namespace Sys2Proof

/-- The operand byte A of a command (R59). -/
def Instr.byteA : Instr → Byte
  | .owCommand target _ => target
  | _ => 0x00

/-- The operand byte B of a command (R59). -/
def Instr.byteB : Instr → Byte
  | .owBit v => bitOperand v
  | .owByte d => d
  | .owCommand _ cmd => cmd
  | .owTriplet v => bitOperand v
  | .owSearch m => bitOperand m.bit
  | _ => 0x00

/-- The command of an opcode with operand bytes `a` and `b`. -/
def Opcode.instr (op : Opcode) (a b : Byte) : Instr :=
  match op with
  | .uartOpen => .uartOpen
  | .uartClose => .uartClose
  | .owReset => .owReset
  | .owBit => .owBit (b.getLsbD 0)
  | .owByte => .owByte b
  | .owCommand => .owCommand a b
  | .owReadrom => .owReadrom
  | .owTriplet => .owTriplet (b.getLsbD 0)
  | .owSearch => .owSearch (SearchMode.ofBit (b.getLsbD 0))
  | .owSearchrst => .owSearchrst

theorem encode_eq_ofFields (i : Instr) : encode i = Word.ofFields i.opcode.byte 0 i.byteA i.byteB := by
  cases i <;> rfl

/-- What the decoder reads: a listed OPC, RSV zero, the fixed-zero fields zero, and the command of the operand bytes. -/
theorem decode_eq_ok_iff {w : Word} {i : Instr} :
    decode w = .ok i ↔ ∃ op : Opcode, w.opc = op.byte ∧ w.rsv = 0x00 ∧ op.form.FixedZero w.opA w.opB ∧
      i = op.instr w.opA w.opB := by
  have hdecode {op : Opcode} (hopc : w.opc = op.byte) (hrsv : w.rsv = 0x00) (hfix : op.form.FixedZero w.opA w.opB) :
      decode w = .ok (op.instr w.opA w.opB) := by
    obtain ⟨j, hj⟩ := (decodes_iff_fixedZero hrsv hopc).2 hfix
    rw [← Opcode.ofByte_eq_some] at hopc
    rw [hj]
    cases op <;> simp_all [decode, fixedZero_ok, Opcode.instr]
  constructor
  · intro h
    obtain ⟨op, hopc, hrsv, hfix⟩ := (decodes_iff w).1 ⟨i, h⟩
    exact ⟨op, hopc, hrsv, hfix, Except.ok.inj (h.symm.trans (hdecode hopc hrsv hfix))⟩
  · rintro ⟨op, hopc, hrsv, hfix, rfl⟩
    exact hdecode hopc hrsv hfix

/-- The operand bytes of a command are zero where its form fixes them to zero. -/
theorem Instr.fixedZero_operands (i : Instr) : i.opcode.form.FixedZero i.byteA i.byteB := by
  unfold OperandForm.FixedZero
  cases i <;> simp [Instr.opcode, Opcode.form, Instr.byteA, Instr.byteB, bitOperand_high]

/-- Taking a command apart and putting it together. -/
theorem Opcode.instr_operands (i : Instr) : i.opcode.instr i.byteA i.byteB = i := by
  cases i <;> simp [Instr.opcode, Opcode.instr, Instr.byteA, Instr.byteB, bitOperand_low, SearchMode.ofBit_bit]

/-- Putting a command together from operand bytes with the fixed-zero fields zero, and taking it apart. -/
theorem Opcode.operands_instr {op : Opcode} {a b : Byte} (h : op.form.FixedZero a b) :
    (op.instr a b).opcode = op ∧ (op.instr a b).byteA = a ∧ (op.instr a b).byteB = b := by
  obtain ⟨ha, hb, hbit⟩ := h
  cases op <;>
    simp_all [Instr.opcode, Opcode.form, Opcode.instr, Instr.byteA, Instr.byteB, (bitOperand_iff b).1, SearchMode.bit_ofBit]

namespace Machine

/-- Settles O13: the encoded word has the command's opcode byte and operand bytes, from which the decoder puts it together again. -/
theorem decodeEncodeRoundTrip : Obligations.DecodeEncodeRoundTrip := by
  intro i
  rw [encode_eq_ofFields, decode_eq_ok_iff]
  refine ⟨i.opcode, Word.ofFields_opc .., Word.ofFields_rsv .., ?_, ?_⟩ <;>
    rw [Word.ofFields_opA, Word.ofFields_opB]
  · exact i.fixedZero_operands
  · exact (Opcode.instr_operands i).symm

/-- Settles O14: the decoded command has the word's opcode byte and operand bytes, and RSV is zero, so every field is encoded. -/
theorem encodeDecodeRoundTrip : Obligations.EncodeDecodeRoundTrip := by
  intro w i h
  obtain ⟨op, hopc, hrsv, hfix, rfl⟩ := decode_eq_ok_iff.1 h
  obtain ⟨hop, ha, hb⟩ := Opcode.operands_instr hfix
  rw [encode_eq_ofFields, hop, ha, hb, ← hopc, ← hrsv, Word.ofFields_eta]

end Machine

/-! Written commands (R64). -/

theorem OperandForm.admits_none {ns : List Nat} : OperandForm.none.admits ns = true ↔ ns = [] := by
  cases ns <;> simp [OperandForm.admits]

theorem exists_bool_toNat {n : Nat} : n < 2 ↔ ∃ v : Bool, n = v.toNat := by
  simp only [Bool.exists_bool, Bool.toNat_false, Bool.toNat_true]
  omega

theorem exists_byte_toNat {n : Nat} : n < 256 ↔ ∃ d : Byte, n = d.toNat := by
  constructor
  · intro h
    exact ⟨BitVec.ofNat 8 n, (Nat.mod_eq_of_lt h).symm⟩
  · rintro ⟨d, rfl⟩
    exact d.isLt

theorem OperandForm.admits_bit {ns : List Nat} : OperandForm.bit.admits ns = true ↔ ∃ v : Bool, ns = [v.toNat] := by
  rcases ns with _ | ⟨n, _ | ⟨k, ns⟩⟩ <;> simp only [OperandForm.admits, decide_eq_true_eq, exists_bool_toNat] <;> simp

theorem OperandForm.admits_mode {ns : List Nat} :
    OperandForm.mode.admits ns = true ↔ ∃ m : SearchMode, ns = [m.bit.toNat] := by
  have hmode : (∃ m : SearchMode, ns = [m.bit.toNat]) ↔ ∃ v : Bool, ns = [v.toNat] :=
    ⟨fun ⟨m, h⟩ => ⟨m.bit, h⟩, fun ⟨v, h⟩ => ⟨.ofBit v, by rw [SearchMode.bit_ofBit, h]⟩⟩
  rw [hmode, ← OperandForm.admits_bit]
  rcases ns with _ | ⟨n, _ | ⟨k, ns⟩⟩ <;> rfl

theorem OperandForm.admits_byte {ns : List Nat} : OperandForm.byte.admits ns = true ↔ ∃ d : Byte, ns = [d.toNat] := by
  rcases ns with _ | ⟨n, _ | ⟨k, ns⟩⟩ <;> simp [OperandForm.admits, exists_byte_toNat]

theorem OperandForm.admits_twoBytes {ns : List Nat} :
    OperandForm.twoBytes.admits ns = true ↔ ∃ target cmd : Byte, ns = [target.toNat, cmd.toNat] := by
  rcases ns with _ | ⟨n, _ | ⟨k, _ | ⟨l, ns⟩⟩⟩ <;> simp [OperandForm.admits, exists_byte_toNat]

/-- The written form of a command is well formed. -/
theorem Instr.wellFormed_raw (i : Instr) : i.raw.wellFormed = true := by
  cases i with
  | owBit v | owTriplet v => exact OperandForm.admits_bit.2 ⟨v, rfl⟩
  | owSearch m => exact OperandForm.admits_mode.2 ⟨m, by cases m <;> rfl⟩
  | owByte d => exact OperandForm.admits_byte.2 ⟨d, rfl⟩
  | owCommand target cmd => exact OperandForm.admits_twoBytes.2 ⟨target, cmd, rfl⟩
  | uartOpen | uartClose | owReset | owReadrom | owSearchrst => rfl

/-- A well-formed written command is the written form of a command. -/
theorem RawCommand.eq_raw_of_wellFormed {r : RawCommand} (h : r.wellFormed = true) : ∃ i : Instr, r = i.raw := by
  obtain ⟨op, ns⟩ := r
  cases op with
  | uartOpen => obtain rfl := OperandForm.admits_none.1 h; exact ⟨.uartOpen, rfl⟩
  | uartClose => obtain rfl := OperandForm.admits_none.1 h; exact ⟨.uartClose, rfl⟩
  | owReset => obtain rfl := OperandForm.admits_none.1 h; exact ⟨.owReset, rfl⟩
  | owBit => obtain ⟨v, rfl⟩ := OperandForm.admits_bit.1 h; exact ⟨.owBit v, rfl⟩
  | owByte => obtain ⟨d, rfl⟩ := OperandForm.admits_byte.1 h; exact ⟨.owByte d, rfl⟩
  | owCommand => obtain ⟨a, b, rfl⟩ := OperandForm.admits_twoBytes.1 h; exact ⟨.owCommand a b, rfl⟩
  | owReadrom => obtain rfl := OperandForm.admits_none.1 h; exact ⟨.owReadrom, rfl⟩
  | owTriplet => obtain ⟨v, rfl⟩ := OperandForm.admits_bit.1 h; exact ⟨.owTriplet v, rfl⟩
  | owSearch => obtain ⟨m, rfl⟩ := OperandForm.admits_mode.1 h; exact ⟨.owSearch m, by cases m <;> rfl⟩
  | owSearchrst => obtain rfl := OperandForm.admits_none.1 h; exact ⟨.owSearchrst, rfl⟩

/-- The written form of a command stands for it. -/
theorem Instr.toInstr_raw (i : Instr) : i.raw.toInstr = some i := by
  rw [RawCommand.toInstr, if_pos i.wellFormed_raw]
  cases i with
  | owBit v | owTriplet v => cases v <;> rfl
  | owSearch m => cases m <;> rfl
  | owByte d => simp [Instr.raw]
  | owCommand target cmd => simp [Instr.raw]
  | uartOpen | uartClose | owReset | owReadrom | owSearchrst => rfl

theorem RawCommand.wellFormed_of_toInstr {r : RawCommand} {i : Instr} (h : r.toInstr = some i) : r.wellFormed = true := by
  by_contra hr
  rw [RawCommand.toInstr, if_neg hr] at h
  cases h

namespace Machine

/-- Settles O16: the well-formed written commands are the written forms of commands, and a written form stands for its command. -/
theorem writtenCommandsInRange : Obligations.WrittenCommandsInRange := by
  refine ⟨fun r => ⟨fun h => ?stands, fun ⟨_, h⟩ => RawCommand.wellFormed_of_toInstr h⟩, Instr.toInstr_raw, fun r i h => ?only⟩
  case stands =>
    obtain ⟨i, rfl⟩ := RawCommand.eq_raw_of_wellFormed h
    exact ⟨i, i.toInstr_raw⟩
  case only =>
    obtain ⟨j, rfl⟩ := RawCommand.eq_raw_of_wellFormed (RawCommand.wellFormed_of_toInstr h)
    rw [Option.some.inj (h.symm.trans j.toInstr_raw)]

end Machine

end Sys2Proof
end

section
/-! How each command ends, said once for all commands: `Ended i s t` lists the ends, and every command's next state is one of them. -/

namespace Sys2Proof.Machine

/-! The line events a command adds (41_onewire_bus.md section 5). -/

/-- The events one command adds to TRACE, with the number of reset frames and of slots among them: one opening or closing, or slots
alone, or the reset frame with slots after it. -/
inductive CommandEvents : (resets slots : Nat) → List Event → Prop
  | channel {e : Event} (h : e = .closed ∨ ∃ a, e = .opened a) : CommandEvents 0 0 [e]
  | slots {es : List Event} (h : ∀ e ∈ es, SlotEvent e) : CommandEvents 0 es.length es
  | reset {es : List Event} (o : LineOutcome) (h : ∀ e ∈ es, SlotEvent e) :
    CommandEvents 1 es.length (.frame Config.baudReset resetByte o :: es)

theorem SlotEvent.framed {e : Event} (h : SlotEvent e) : e.framed := by
  obtain ⟨v, o, rfl⟩ := h
  cases v
  · exact .inr ⟨rfl, .inr rfl⟩
  · exact .inr ⟨rfl, .inl rfl⟩

theorem framesAt_reset_slots {es : List Event} (h : ∀ e ∈ es, SlotEvent e) : framesAt 9600 es = 0 := by
  refine List.countP_eq_zero.2 fun e he => ?_
  obtain ⟨v, o, rfl⟩ := h e he
  simp [Config.baudNormal]

theorem framesAt_normal_slots {es : List Event} (h : ∀ e ∈ es, SlotEvent e) : framesAt 115200 es = es.length := by
  refine List.countP_eq_length.2 fun e he => ?_
  obtain ⟨v, o, rfl⟩ := h e he
  simp [Config.baudNormal]

theorem framesAt_reset_cons (o : LineOutcome) (es : List Event) :
    framesAt 9600 (.frame Config.baudReset resetByte o :: es) = framesAt 9600 es + 1 := List.countP_cons_of_pos rfl

theorem framesAt_normal_cons (o : LineOutcome) (es : List Event) :
    framesAt 115200 (.frame Config.baudReset resetByte o :: es) = framesAt 115200 es := List.countP_cons_of_neg (Bool.not_eq_true _ ▸ rfl)

theorem CommandEvents.framed {r n : Nat} {es : List Event} (h : CommandEvents r n es) : ∀ e ∈ es, e.framed := by
  cases h with
  | channel h =>
    rintro e he
    obtain rfl := List.mem_singleton.1 he
    rcases h with rfl | ⟨a, rfl⟩ <;> trivial
  | slots h => exact fun e he => (h e he).framed
  | reset o h => exact List.forall_mem_cons.2 ⟨.inl ⟨rfl, rfl⟩, fun e he => (h e he).framed⟩

/-- Only the first event a command adds can be a reset frame. -/
theorem CommandEvents.framesAt_reset_tail {r n : Nat} {es : List Event} (h : CommandEvents r n es) :
    framesAt 9600 es.tail = 0 := by
  cases h with
  | channel => rfl
  | slots h => exact framesAt_reset_slots fun e he => h e (List.mem_of_mem_tail he)
  | reset o h => exact framesAt_reset_slots h

theorem CommandEvents.counts {r n : Nat} {es : List Event} (h : CommandEvents r n es) :
    (framesAt 9600 es, framesAt 115200 es) = (r, n) := by
  cases h with
  | channel h => rcases h with rfl | ⟨a, rfl⟩ <;> rfl
  | slots h => rw [framesAt_reset_slots h, framesAt_normal_slots h]
  | reset o h =>
    rw [framesAt_reset_cons, framesAt_normal_cons, framesAt_reset_slots h, framesAt_normal_slots h]

/-! What the frames of a command leave alone. -/

/-- From `s` to `u` a command has sent `resets` reset frames and then `slots` slots. Frames write nothing but BAUD_SEL, RSTCLS and
BUS_READY, of which nothing is said here. -/
structure Sent (resets slots : Nat) (s u : State) : Prop where
  result : u.result = s.result
  linkOpen : u.linkOpen = s.linkOpen
  lastDev : u.lastDev = s.lastDev
  lastDisc : u.lastDisc = s.lastDisc
  rom : u.rom = s.rom
  srom : u.srom = s.srom
  wiredAnd : u.env.wiredAnd = s.env.wiredAnd
  portPath : u.env.portPath = s.env.portPath
  trace : ∃ es, u.trace = s.trace ++ es ∧ CommandEvents resets slots es

/-- A presence is on record: BUS_READY is 1 and RSTCLS holds its class. -/
def Ready (u : State) : Prop :=
  u.busReady = true ∧ (u.rstcls = .classified .singleDevicePresent ∨ u.rstcls = .classified .multipleDevicesPresent)

/-- Slots alone, counted by the growth of TRACE. -/
theorem LineStep.sent {s u : State} (h : LineStep SlotEvent s u) :
    ∃ n, Sent 0 n s u ∧ u.trace.length = s.trace.length + n := by
  obtain ⟨es, htrace, hslots⟩ := h.trace
  exact ⟨es.length, { h with trace := ⟨es, htrace, .slots hslots⟩ }, by rw [htrace, List.length_append]⟩

/-- Slots after the reset frame, counted by the growth of TRACE. -/
theorem ResetSent.sent_slots {s u v : State} (h : ResetSent s u) (k : LineStep SlotEvent u v) :
    ∃ n, Sent 1 n s v ∧ v.trace.length = u.trace.length + n := by
  obtain ⟨o, hreset⟩ := h.trace
  obtain ⟨es, htrace, hslots⟩ := k.trace
  refine ⟨es.length, ⟨k.result.trans h.result, k.linkOpen.trans h.linkOpen, k.lastDev.trans h.lastDev,
    k.lastDisc.trans h.lastDisc, k.rom.trans h.rom, k.srom.trans h.srom, k.wiredAnd.trans h.wiredAnd,
    k.portPath.trans h.portPath, _, ?_, .reset o hslots⟩, by rw [htrace, List.length_append]⟩
  rw [htrace, hreset, List.append_assoc, List.singleton_append]

theorem SlotsExactly.sent {n : Nat} {s u : State} (h : SlotsExactly n s u) : Sent 0 n s u := by
  obtain ⟨⟨hline, -⟩, hn⟩ := h
  obtain ⟨m, hsent, hm⟩ := hline.sent
  obtain rfl : m = n := by omega
  exact hsent

theorem ResetSent.sent {s u : State} (h : ResetSent s u) : Sent 1 0 s u := by
  obtain ⟨n, hsent, hn⟩ := h.sent_slots (.refl _ u)
  obtain rfl : n = 0 := by omega
  exact hsent

theorem PresenceThen.sent {n : Nat} {s u : State} (h : PresenceThen n s u) : Sent 1 n s u ∧ Ready u := by
  obtain ⟨v, hv, ⟨hline, -⟩, hn⟩ := h
  obtain ⟨m, hsent, hm⟩ := hv.sent.sent_slots hline
  obtain rfl : m = n := by omega
  exact ⟨hsent, hline.busReady.trans hv.ready, hline.rstcls ▸ hv.cls⟩

theorem SlotFailure.clears {c : StatusCode} (h : SlotFailure c) : c.clearsBusReady = true := by
  rcases h with rfl | rfl <;> rfl

theorem ResetStopped.sent {s u : State} {c : StatusCode} (h : ResetStopped s c u) :
    Sent 1 0 s u ∧ c.clearsBusReady = true := by
  obtain ⟨hsent, -, hc⟩ := h
  refine ⟨hsent.sent, ?_⟩
  rcases hc with ⟨rfl, -⟩ | ⟨rfl, -⟩ | ⟨rfl, -⟩ | ⟨hc, -⟩
  · rfl
  · rfl
  · rfl
  · exact hc.clears

theorem SlotStopped.sent {s u : State} {c : StatusCode} (h : SlotStopped s c u) :
    ∃ n, Sent 1 n s u ∧ c.clearsBusReady = true := by
  obtain ⟨hc, v, hv, hline, -⟩ := h
  obtain ⟨n, hsent, -⟩ := hv.sent.sent_slots hline
  exact ⟨n, hsent, hc.clears⟩

/-- A command that starts with the reset frame ended on the line. -/
theorem sent_of_busFailed {s u : State} {c : StatusCode} (h : ResetStopped s c u ∨ SlotStopped s c u) :
    ∃ n, Sent 1 n s u ∧ c.clearsBusReady = true := by
  rcases h with h | h
  · exact ⟨0, h.sent⟩
  · exact h.sent

/-- How a pass of OW.SEARCH can fail after its first frame: on the line, or in the search with the presence still on record. -/
def PassFailure (c : StatusCode) (u : State) : Prop :=
  c.clearsBusReady = true ∨ (c = .searchNoResponse ∨ c = .searchZeroFamily) ∧ Ready u

/-- A failed pass has sent frames and then written the path. -/
theorem sent_of_passFailed {s u : State} {c : StatusCode} (h : ResetStopped s c u ∨ PassStopped s c u) :
    ∃ n w path, u = w.setSrom path ∧ Sent 1 n s w ∧ PassFailure c w := by
  rcases h with h | ⟨hc, v, hv, hline, -⟩
  · obtain ⟨hsent, hclears⟩ := h.sent
    exact ⟨0, u, u.srom, rfl, hsent, .inl hclears⟩
  · obtain ⟨n, hsent, -⟩ := hv.sent.sent_slots hline
    refine ⟨n, u.setSrom v.srom, u.srom, rfl, hsent, ?_⟩
    have hready : Ready (u.setSrom v.srom) := ⟨hline.busReady.trans hv.ready, hline.rstcls ▸ hv.cls⟩
    rcases hc with (hc | hc) | hc
    · exact .inl hc.clears
    · exact .inr ⟨.inl hc, hready⟩
    · exact .inr ⟨.inr hc, hready⟩

/-! The ends. -/

/-- The commands that need BUS_READY, with the number of their slots (41_onewire_bus.md R94, R96, 42_rom_commands.md R111). -/
inductive SlotCommand : Instr → Nat → Prop
  | owBit (v : Bool) : SlotCommand (.owBit v) 1
  | owByte (d : Byte) : SlotCommand (.owByte d) 8
  | owTriplet (v : Bool) : SlotCommand (.owTriplet v) 3

/-- The commands that start with the reset frame and write RESULT, with the number of slots after it (41_onewire_bus.md R92, R97). -/
inductive BusCommand : Instr → Nat → Prop
  | owReset : BusCommand .owReset 0
  | owCommand (target cmd : Byte) : BusCommand (.owCommand target cmd) 16

/-- The state `t` is one in which command `i`, run from `s`, can end. -/
inductive Ended (i : Instr) (s : State) : State → Prop
  | alreadyOpen (hi : i = .uartOpen) (hl : s.linkOpen = true) : Ended i s (complete .ok s)
  | opened (hi : i = .uartOpen) (hl : s.linkOpen = false) (ho : (drawOpen s).1 = .ok) :
    Ended i s (complete .ok (openLink ((s.setEnv (drawOpen s).2).record (.opened .ok))))
  | openFailed {c : StatusCode} {a : OpenAnswer} (hi : i = .uartOpen) (hl : s.linkOpen = false)
      (hc : c = .portUnavailable ∨ c = .portOpenFailed) :
    Ended i s (abort c ((s.setEnv (drawOpen s).2).record (.opened a)))
  | closed (hi : i = .uartClose) : Ended i s (complete .ok (closeLink s))
  | linkClosed (hi : i ≠ .uartOpen ∧ i ≠ .uartClose) (hl : s.linkOpen = false) : Ended i s (abort .portClosed s)
  | notReady {n : Nat} (hi : SlotCommand i n) (hl : s.linkOpen = true) (hb : s.busReady = false) :
    Ended i s (abort .busNotReady s)
  | slotsDone {n : Nat} {w : State} {x : Byte} (hi : SlotCommand i n) (hl : s.linkOpen = true) (h : SlotsExactly n s w) :
    Ended i s (complete .ok (w.setResult x))
  | slotFailed {n : Nat} {c : StatusCode} {w : State} (hi : SlotCommand i n) (hl : s.linkOpen = true)
      (h : SlotsSent s w) (hc : SlotFailure c) :
    Ended i s (abort c w)
  | busDone {n : Nat} {w : State} {x : Byte} (hi : BusCommand i n) (hl : s.linkOpen = true) (h : Sent 1 n s w)
      (hp : Ready w) :
    Ended i s (complete .ok (w.setResult x))
  | romRead {w : State} {x : Bytes8} (hi : i = .owReadrom) (hl : s.linkOpen = true) (h : Sent 1 72 s w) (hp : Ready w) :
    Ended i s (complete .ok (w.setRom x))
  | busFailed {n : Nat} {c : StatusCode} {w : State} (hi : (∃ n, BusCommand i n) ∨ i = .owReadrom)
      (hl : s.linkOpen = true) (h : Sent 1 n s w) (hc : c.clearsBusReady = true) :
    Ended i s (abort c w)
  | searchReset (hi : i = .owSearchrst) (hl : s.linkOpen = true) :
    Ended i s (complete .ok ((searchFirst s).setSrom zeroBytes))
  | exhausted {m : SearchMode} (hi : i = .owSearch m) (hl : s.linkOpen = true) :
    Ended i s (abort .searchExhausted (searchFirst s))
  | found {m : SearchMode} {w : State} {path rom : Bytes8} {last : Nat} (hi : i = .owSearch m) (hl : s.linkOpen = true)
      (hd : s.lastDev = false) (h : Sent 1 200 s w) (hp : Ready w) (hlast : last ≤ 64) :
    Ended i s (complete .ok (searchDone path rom last w))
  | passFailed {m : SearchMode} {n : Nat} {c : StatusCode} {w : State} {path : Bytes8} (hi : i = .owSearch m)
      (hl : s.linkOpen = true) (h : Sent 1 n s w) (hc : PassFailure c w) :
    Ended i s (abort c (searchFirst (w.setSrom path)))

theorem ended_of_bitStopped {i : Instr} {n : Nat} {s u : State} {c : StatusCode} (hi : SlotCommand i n)
    (h : BitStopped s c u) : Ended i s (abort c u) := by
  rcases h with ⟨rfl, ⟨rfl, hl⟩ | ⟨rfl, hl, hb⟩⟩ | ⟨hl, -, hsent, hc⟩
  · exact .linkClosed (by cases hi <;> simp) hl
  · exact .notReady hi hl hb
  · exact .slotFailed hi hl hsent hc

theorem ended_of_busStopped {i : Instr} {s u : State} {c : StatusCode} (hi : (∃ n, BusCommand i n) ∨ i = .owReadrom)
    (h : BusStopped s c u) : Ended i s (abort c u) := by
  rcases h with ⟨rfl, rfl, hl⟩ | ⟨hl, h⟩
  · refine .linkClosed ?_ hl
    rcases hi with ⟨n, hi⟩ | rfl
    · cases hi <;> simp
    · simp
  · obtain ⟨n, hsent, hc⟩ := sent_of_busFailed h
    exact .busFailed hi hl hsent hc

theorem ended_slotCommand {i : Instr} {n : Nat} {s : State} {r : Run Unit} (hi : SlotCommand i n)
    (h : r.Ends (fun _ u => s.linkOpen = true ∧ s.busReady = true ∧ ∃ w x, SlotsExactly n s w ∧ u = w.setResult x)
      (BitStopped s)) : Ended i s (endCommand r) := by
  refine endCommand_of_ends h ?_ fun c u hu => ended_of_bitStopped hi hu
  rintro _ ⟨hl, -, w, x, hw, rfl⟩
  exact .slotsDone hi hl hw

theorem ended_busCommand {i : Instr} {n : Nat} {s : State} {r : Run Unit} (hi : BusCommand i n)
    (h : r.Ends (fun _ u => s.linkOpen = true ∧ ∃ w x, PresenceThen n s w ∧ u = w.setResult x) (BusStopped s)) :
    Ended i s (endCommand r) := by
  refine endCommand_of_ends h ?_ fun c u hu => ended_of_busStopped (.inl ⟨n, hi⟩) hu
  rintro _ ⟨hl, w, x, hw, rfl⟩
  exact .busDone hi hl hw.sent.1 hw.sent.2

theorem ended_uartOpen (s : State) : Ended .uartOpen s (endCommand (openPort s)) := by
  refine endCommand_of_ends (openPort_ends s) ?_ ?_
  · rintro _ (⟨hl, rfl⟩ | ⟨hl, ho, rfl⟩)
    · exact .alreadyOpen rfl hl
    · exact .opened rfl hl ho
  · rintro c _ ⟨hl, a, rfl, hc⟩
    exact .openFailed rfl hl (hc.imp And.left And.left)

theorem ended_owReadrom (s : State) : Ended .owReadrom s (endCommand (readRomCommand s)) := by
  refine endCommand_of_ends (readRomCommand_ends s) ?_ fun c u hu => ended_of_busStopped (.inr rfl) hu
  rintro _ ⟨hl, w, x, hw, rfl⟩
  exact .romRead rfl hl hw.sent.1 hw.sent.2

theorem ended_owSearchrst (s : State) : Ended .owSearchrst s (endCommand (searchResetCommand s)) := by
  refine endCommand_of_ends (searchResetCommand_ends s) ?_ ?_
  · rintro _ ⟨hl, rfl⟩
    exact .searchReset rfl hl
  · rintro c _ ⟨rfl, rfl, hl⟩
    exact .linkClosed (by simp) hl

theorem ended_owSearch (m : SearchMode) (s : State) : Ended (.owSearch m) s (endCommand (searchCommand m s)) := by
  refine endCommand_of_ends (searchCommand_ends m s) ?_ ?_
  · rintro _ ⟨hl, hd, w, path, rom, last, hw, hlast, rfl⟩
    exact .found rfl hl hd hw.sent.1 hw.sent.2 hlast
  · rintro c _ (⟨rfl, rfl, hl⟩ | ⟨hl, ⟨rfl, -, rfl⟩ | ⟨-, v, hv, rfl⟩⟩)
    · exact .linkClosed (by simp) hl
    · exact .exhausted rfl hl
    · obtain ⟨n, w, path, rfl, hsent, hc⟩ := sent_of_passFailed hv
      exact .passFailed rfl hl hsent hc

/-- Every command ends in one of the ways of `Ended`. -/
theorem ended_of_exec {i : Instr} {s t : State} (h : exec i s = .next t) : Ended i s t := by
  cases i with
  | uartOpen => cases h; exact ended_uartOpen s
  | uartClose => cases h; exact .closed rfl
  | owReset => cases h; exact ended_busCommand .owReset (resetCommand_ends s)
  | owBit v => cases h; exact ended_slotCommand (.owBit v) (bitCommand_ends v s)
  | owByte d => cases h; exact ended_slotCommand (.owByte d) (byteCommand_ends d s)
  | owCommand target cmd => cases h; exact ended_busCommand (.owCommand target cmd) (commandCommand_ends target cmd s)
  | owReadrom => cases h; exact ended_owReadrom s
  | owTriplet v => cases h; exact ended_slotCommand (.owTriplet v) (tripletCommand_ends v s)
  | owSearch m => cases h; exact ended_owSearch m s
  | owSearchrst => cases h; exact ended_owSearchrst s

/-- Every command answers a next state (60_exceptions.md R157). -/
theorem exec_next (i : Instr) (s : State) : ∃ t, exec i s = .next t := by
  cases i <;> exact ⟨_, rfl⟩

end Sys2Proof.Machine
end

section
/-! What every command adds to TRACE (41_onewire_bus.md section 5), what it can end with (60_exceptions.md section 1), and what a
failure leaves alone (60_exceptions.md section 2, 42_rom_commands.md R115): each a case analysis over `Ended`. -/

namespace Sys2Proof.Machine

variable {i : Instr} {s t u w : State}

/-! TRACE. -/

/-- TRACE of `t` is that of `s` and the events of one command. -/
def Adds (s t : State) : Prop := ∃ r n es, t.trace = s.trace ++ es ∧ CommandEvents r n es

theorem adds_of_trace_eq (h : t.trace = s.trace) : Adds s t := ⟨0, 0, [], by simp [h], .slots (es := []) (by simp)⟩

theorem Sent.adds {r n : Nat} (h : Sent r n s w) (ht : t.trace = w.trace) : Adds s t := by
  obtain ⟨es, htrace, hes⟩ := h.trace
  exact ⟨r, n, es, ht.trans htrace, hes⟩

theorem Ended.adds (h : Ended i s t) : Adds s t := by
  cases h with
  | alreadyOpen | searchReset => exact adds_of_trace_eq rfl
  | linkClosed | notReady | exhausted => exact adds_of_trace_eq (abort_trace ..)
  | opened => exact ⟨0, 0, _, rfl, .channel (.inr ⟨_, rfl⟩)⟩
  | openFailed => exact ⟨0, 0, _, abort_trace .., .channel (.inr ⟨_, rfl⟩)⟩
  | closed =>
    by_cases hl : s.linkOpen = true
    · exact ⟨0, 0, [.closed], by rw [complete_trace, closeLink_eq]; exact if_pos hl, .channel (.inl rfl)⟩
    · exact adds_of_trace_eq (by rw [complete_trace, closeLink_eq]; exact if_neg hl)
  | slotsDone hi hl h => exact h.sent.adds rfl
  | slotFailed hi hl h =>
    obtain ⟨n, hsent, -⟩ := h.1.sent
    exact hsent.adds (abort_trace ..)
  | busDone hi hl h | romRead hi hl h | found hi hl hd h => exact h.adds rfl
  | busFailed hi hl h | passFailed hi hl h => exact h.adds (abort_trace ..)

/-- Settles O43: the events a command adds are framed, and only the first of them can be the reset frame. -/
theorem resetFrameComesFirst : Obligations.ResetFrameComesFirst := by
  intro i s t h
  obtain ⟨r, n, es, htrace, hes⟩ := (ended_of_exec h).adds
  exact ⟨es, htrace, hes.framed, hes.framesAt_reset_tail⟩

theorem Sent.counts {r n : Nat} (h : Sent r n s w) :
    ∃ es, w.trace = s.trace ++ es ∧ (framesAt 9600 es, framesAt 115200 es) = (r, n) := by
  obtain ⟨es, htrace, hes⟩ := h.trace
  exact ⟨es, htrace, hes.counts⟩

theorem ne_ok_of_clears {c : StatusCode} (h : c.clearsBusReady = true) : c ≠ .ok := by
  rintro rfl
  cases h

theorem PassFailure.ne_ok {c : StatusCode} (h : PassFailure c w) : c ≠ .ok := by
  rcases h with h | ⟨rfl | rfl, -⟩
  · exact ne_ok_of_clears h
  · decide
  · decide

/-- Settles O44: a command that ends with OK has sent all of its frames; every failure has a status other than OK. -/
theorem frameCountsOfSuccess : Obligations.FrameCountsOfSuccess := by
  intro i s t hexec hok
  cases ended_of_exec hexec with
  | alreadyOpen hi | searchReset hi => subst hi; exact ⟨[], by simp, rfl⟩
  | opened hi => subst hi; exact ⟨[.opened .ok], rfl, rfl⟩
  | closed hi =>
    subst hi
    by_cases hl : s.linkOpen = true
    · exact ⟨[.closed], by rw [complete_trace, closeLink_eq]; exact if_pos hl, rfl⟩
    · exact ⟨[], by rw [complete_trace, closeLink_eq]; simp [hl], rfl⟩
  | slotsDone hi hl h => cases hi <;> exact h.sent.counts
  | busDone hi hl h => cases hi <;> exact h.counts
  | romRead hi hl h | found hi hl hd h => subst hi; exact h.counts
  | openFailed hi hl hc => rcases hc with rfl | rfl <;> simp at hok
  | linkClosed | notReady | exhausted => simp at hok
  | slotFailed hi hl h hc => exact absurd (by simpa using hok) (ne_ok_of_clears hc.clears)
  | busFailed hi hl h hc => exact absurd (by simpa using hok) (ne_ok_of_clears hc)
  | passFailed hi hl h hc => exact absurd (by simpa using hok) hc.ne_ok

/-! Statuses. -/

theorem StatusCode.code_of_clears {c : StatusCode} (h : c.clearsBusReady = true) :
    c.code = 0x01 ∨ c.code = 0x02 ∨ c.code = 0x03 ∨ c.code = 0x04 ∨ c.code = 0x05 := c.clearsBusReady_iff_code.1 h

/-- Settles O39: each end of `Ended` has one of the statuses listed for its commands. -/
theorem statusesOfEachCommand : Obligations.StatusesOfEachCommand := by
  intro i s t hexec
  cases ended_of_exec hexec with
  | alreadyOpen hi | opened hi | closed hi | romRead hi | searchReset hi | found hi => subst hi; simp [StatusCode.code]
  | exhausted hi => subst hi; simp [StatusCode.code]
  | openFailed hi hl hc => subst hi; rcases hc with rfl | rfl <;> simp [StatusCode.code]
  | linkClosed hi => cases i <;> simp_all [StatusCode.code]
  | notReady hi | slotsDone hi => cases hi <;> simp [StatusCode.code]
  | slotFailed hi hl h hc => rcases hc with rfl | rfl <;> cases hi <;> simp [StatusCode.code]
  | busDone hi => cases hi <;> simp [StatusCode.code]
  | busFailed hi hl h hc =>
    have hcode := StatusCode.code_of_clears hc
    rcases hi with ⟨n, hi⟩ | rfl
    · cases hi <;> simp only [abort_status, List.mem_cons] <;> tauto
    · simp only [abort_status, List.mem_cons]; tauto
  | passFailed hi hl h hc =>
    subst hi
    rcases hc with hc | ⟨rfl | rfl, -⟩
    · have hcode := StatusCode.code_of_clears hc
      simp only [abort_status, List.mem_cons]
      tauto
    · simp [StatusCode.code]
    · simp [StatusCode.code]

/-! What a failure leaves alone. -/

/-- The codes found before any frame are neither failures on the line nor failures of the search. -/
theorem StatusCode.early_code {c : StatusCode} (h : c.code ∈ [0x06, 0x07, 0x08, 0x09, 0x0A, 0x0B]) :
    c.clearsBusReady = false ∧ c.code ∉ [0x0C, 0x0D] := by
  revert h
  cases c <;> decide

/-- BUS_READY after an abort, by its code: cleared by a failure on the line, kept by one found before any frame. -/
theorem abort_busReady_by_code {c : StatusCode}
    (h : c.clearsBusReady = true ∨ c.code ∈ [0x0C, 0x0D] ∨ w.busReady = s.busReady) :
    (c.code ∈ [0x01, 0x02, 0x03, 0x04, 0x05] → (abort c w).busReady = false) ∧
      (c.code ∈ [0x06, 0x07, 0x08, 0x09, 0x0A, 0x0B] → (abort c w).busReady = s.busReady) := by
  rw [abort_busReady]
  constructor
  · intro hc
    rw [if_pos (c.clearsBusReady_iff_code.2 (by simpa using hc))]
  · intro hc
    obtain ⟨hline, hsearch⟩ := StatusCode.early_code hc
    rcases h with h | h | h
    · exact absurd h (by simp [hline])
    · exact absurd h hsearch
    · simp [hline, h]

/-- Settles O40: no failure writes RESULT or ROM; BUS_READY by the code. -/
theorem abortKeepsResults : Obligations.AbortKeepsResults := by
  intro i s t hexec hfail
  have habort {c : StatusCode} {w : State} (hresult : w.result = s.result) (hrom : w.rom = s.rom)
      (hbus : c.clearsBusReady = true ∨ c.code ∈ [0x0C, 0x0D] ∨ w.busReady = s.busReady) :
      (abort c w).result = s.result ∧ (abort c w).rom = s.rom ∧
        ((abort c w).status.code ∈ [0x01, 0x02, 0x03, 0x04, 0x05] → (abort c w).busReady = false) ∧
        ((abort c w).status.code ∈ [0x06, 0x07, 0x08, 0x09, 0x0A, 0x0B] → (abort c w).busReady = s.busReady) := by
    rw [abort_status, abort_result, abort_rom]
    exact ⟨hresult, hrom, abort_busReady_by_code hbus⟩
  cases ended_of_exec hexec with
  | alreadyOpen | opened | closed | slotsDone | busDone | romRead | searchReset | found => exact absurd rfl hfail
  | openFailed | linkClosed | notReady | exhausted => exact habort rfl rfl (.inr (.inr rfl))
  | slotFailed hi hl h hc => exact habort h.1.result h.1.rom (.inl hc.clears)
  | busFailed hi hl h hc => exact habort h.result h.rom (.inl hc)
  | passFailed hi hl h hc =>
    refine habort h.result h.rom (hc.imp_right fun hc => .inl ?_)
    rcases hc with ⟨rfl | rfl, -⟩ <;> decide

/-- Settles O42: every failure of a pass ends in `searchFirst`; the three codes come from ends before any frame. -/
theorem failedSearchAndNoFrame : Obligations.FailedSearchAndNoFrame := by
  intro i s t hexec
  constructor
  · rintro ⟨m, rfl⟩ hfail hopen
    cases ended_of_exec hexec with
    | alreadyOpen hi | opened hi | openFailed hi | closed hi | romRead hi | searchReset hi => cases hi
    | notReady hi | slotsDone hi | slotFailed hi | busDone hi => cases hi
    | busFailed hi => rcases hi with ⟨n, hi⟩ | hi <;> cases hi
    | linkClosed => exact absurd (abort_status ..) hopen
    | found => exact absurd rfl hfail
    | exhausted | passFailed => exact ⟨abort_lastDisc .., abort_lastDev ..⟩
  · intro hcode
    have hno {c : StatusCode} (h : c.clearsBusReady = true) : c.code ∉ [0x08, 0x09, 0x0B] := by
      revert h; cases c <;> decide
    cases ended_of_exec hexec with
    | alreadyOpen | searchReset => rfl
    | linkClosed | notReady | exhausted => exact abort_trace ..
    | opened | closed | slotsDone | busDone | romRead | found => simp [StatusCode.code] at hcode
    | openFailed hi hl hc => rcases hc with rfl | rfl <;> simp [StatusCode.code] at hcode
    | slotFailed hi hl h hc => exact absurd (by simpa using hcode) (hno hc.clears)
    | busFailed hi hl h hc => exact absurd (by simpa using hcode) (hno hc)
    | passFailed hi hl h hc =>
      rcases hc with hc | ⟨rfl | rfl, -⟩
      · exact absurd (by simpa using hcode) (hno hc)
      · simp [StatusCode.code] at hcode
      · simp [StatusCode.code] at hcode

end Sys2Proof.Machine
end

section
/-! The invariants of 10_state.md section 5 over commands and steps, the framing of TRACE, and which commands write which register
(10_state.md section 4). -/

namespace Sys2Proof.Machine

variable {i : Instr} {s t w : State}

/-! The invariants R41, in the part about the bus and the part about the search. -/

/-- R41 (b) and (e). -/
def BusInv (s : State) : Prop :=
  (s.linkOpen = false → s.busReady = false) ∧ (s.busReady = true → s.rstcls.code = 0x02 ∨ s.rstcls.code = 0x03)

/-- R41 (c) and (d). -/
def SearchInv (s : State) : Prop := s.lastDisc.toNat ≤ 64 ∧ (s.lastDev = true → s.lastDisc = 0x00)

theorem inv_iff : s.Inv ↔ s.baudSel = .normal ∧ BusInv s ∧ SearchInv s :=
  ⟨fun ⟨baud, link, disc, last, ready⟩ => ⟨baud, ⟨link, ready⟩, disc, last⟩,
    fun ⟨baud, ⟨link, ready⟩, disc, last⟩ => ⟨baud, link, disc, last, ready⟩⟩

theorem busInv_of_notReady (h : t.busReady = false) : BusInv t := ⟨fun _ => h, fun hb => nomatch h.symm.trans hb⟩

theorem Ready.rstcls_code (h : Ready t) : t.rstcls.code = 0x02 ∨ t.rstcls.code = 0x03 := by
  rcases h.2 with h | h
  · exact .inl (by rw [h]; rfl)
  · exact .inr (by rw [h]; rfl)

theorem busInv_of_ready (hl : t.linkOpen = true) (h : Ready t) : BusInv t :=
  ⟨fun hc => (nomatch hl.symm.trans hc), fun _ => h.rstcls_code⟩

theorem BusInv.congr (h : BusInv s) (hl : t.linkOpen = s.linkOpen) (hb : t.busReady = s.busReady) (hr : t.rstcls = s.rstcls) :
    BusInv t := by
  unfold BusInv
  rwa [hl, hb, hr]

/-- An abort keeps the bus part if its cause is on the line or the state before it has it. -/
theorem busInv_abort {c : StatusCode} (h : c.clearsBusReady = true ∨ BusInv w) : BusInv (abort c w) := by
  cases hc : c.clearsBusReady with
  | true => exact busInv_of_notReady (by rw [abort_busReady, if_pos hc])
  | false => exact (h.resolve_left (by simp [hc])).congr (abort_linkOpen ..) (by simp [hc]) (abort_rstcls ..)

theorem SearchInv.congr (h : SearchInv s) (hdisc : t.lastDisc = s.lastDisc) (hdev : t.lastDev = s.lastDev) : SearchInv t := by
  unfold SearchInv
  rwa [hdisc, hdev]

theorem searchInv_of_first (h : t.lastDisc = 0x00) : SearchInv t := ⟨by rw [h]; decide, fun _ => h⟩

/-- R114: a pass writes LAST_DEV = 1 only with LAST_DISC = 0. -/
theorem searchInv_searchDone {path rom : Bytes8} {last : Nat} (hlast : last ≤ 64) (hd : w.lastDev = false) :
    SearchInv (searchDone path rom last w) := by
  constructor
  · show (BitVec.ofNat 8 last).toNat ≤ 64
    rw [BitVec.toNat_ofNat]
    omega
  · intro hdev
    by_cases h0 : last = 0
    · exact congrArg (BitVec.ofNat 8) h0
    · have hdone : (searchDone path rom last w).lastDev = if last = 0 then true else w.lastDev := rfl
      rw [hdone, if_neg h0, hd] at hdev
      cases hdev

theorem Sent.linkOpen_true {r n : Nat} (h : Sent r n s w) (hl : s.linkOpen = true) : w.linkOpen = true := h.linkOpen.trans hl

theorem Ended.busInv (h : Ended i s t) (hs : BusInv s) : BusInv t := by
  cases h with
  | alreadyOpen | searchReset => exact hs.congr rfl rfl rfl
  | opened | closed => exact busInv_of_notReady rfl
  | openFailed | linkClosed | notReady | exhausted => exact busInv_abort (.inr (hs.congr rfl rfl rfl))
  | slotsDone hi hl h => exact hs.congr h.1.1.linkOpen h.1.1.busReady h.1.1.rstcls
  | slotFailed hi hl h hc => exact busInv_abort (.inl hc.clears)
  | busDone hi hl h hp | romRead hi hl h hp => exact busInv_of_ready (h.linkOpen_true hl) hp
  | found hi hl hd h hp => exact busInv_of_ready (h.linkOpen_true hl) hp
  | busFailed hi hl h hc => exact busInv_abort (.inl hc)
  | passFailed hi hl h hc => exact busInv_abort (hc.imp_right fun hc => busInv_of_ready (h.linkOpen_true hl) hc.2)

theorem Ended.searchInv (h : Ended i s t) (hs : SearchInv s) : SearchInv t := by
  cases h with
  | alreadyOpen | closed => exact hs.congr (by simp [closeLink_eq]) (by simp [closeLink_eq])
  | opened | searchReset => exact searchInv_of_first rfl
  | openFailed | linkClosed | notReady => exact hs.congr (abort_lastDisc ..) (abort_lastDev ..)
  | exhausted | passFailed => exact searchInv_of_first (abort_lastDisc ..)
  | slotsDone hi hl h => exact hs.congr h.1.1.lastDisc h.1.1.lastDev
  | slotFailed hi hl h => exact hs.congr ((abort_lastDisc ..).trans h.1.lastDisc) ((abort_lastDev ..).trans h.1.lastDev)
  | busDone hi hl h | romRead hi hl h => exact hs.congr h.lastDisc h.lastDev
  | busFailed hi hl h => exact hs.congr ((abort_lastDisc ..).trans h.lastDisc) ((abort_lastDev ..).trans h.lastDev)
  | @found m w path rom last hi hl hd h hp hlast =>
    exact (searchInv_searchDone (path := path) (rom := rom) hlast (h.lastDev.trans hd)).congr rfl rfl

/-- R25: every command ends with the normal rate selected. -/
theorem Ended.baudSel (h : Ended i s t) : t.baudSel = .normal := by
  cases h with
  | alreadyOpen | opened | closed | slotsDone | busDone | romRead | searchReset | found => rfl
  | openFailed | linkClosed | notReady | slotFailed | busFailed | exhausted | passFailed => exact abort_baudSel ..

theorem Ended.inv (h : Ended i s t) (hs : s.Inv) : t.Inv := by
  obtain ⟨-, hbus, hsearch⟩ := inv_iff.1 hs
  exact inv_iff.2 ⟨h.baudSel, h.busInv hbus, h.searchInv hsearch⟩

/-! What a host step can do. -/

theorem commandPort_next (x : Word) (s : State) :
    ∃ t, commandPort x s = .next t ∧ (t = illegalCommand s ∨ ∃ i, Ended i s t) := by
  cases hx : decode x with
  | ok i =>
    obtain ⟨t, ht⟩ := exec_next i s
    exact ⟨t, by rw [commandPort_of_decode hx, ht], .inr ⟨i, ended_of_exec ht⟩⟩
  | error e => exact ⟨_, commandPort_of_error hx s, .inl rfl⟩

/-- The environment after some of a command's events have been answered (70_reset_and_hazards.md R167). -/
def envAfterEvents (es : List Event) (s : State) : Env := es.foldl Env.afterEvent s.env

/-- Block reset in the middle of a command always answers a next state. -/
theorem resetDuringCommand_next (x : Word) (k : Nat) (s : State) :
    ∃ es, resetDuringCommand x k s = .next (blockReset (s.setEnv (envAfterEvents es s))) := by
  obtain ⟨t, ht, -⟩ := commandPort_next x s
  exact ⟨_, by rw [resetDuringCommand, ht]; rfl⟩

theorem readPort_of_readReg {n x : Byte} (h : readReg n s = some x) :
    readPort n s = .next (s.setHost { s.host with readData := some x }) := by
  rw [readPort, h]

theorem readPort_of_unmapped {n : Byte} (h : readReg n s = none) : readPort n s = .refused (.unmappedRegister n) := by
  rw [readPort, h]

/-- The ends of a step: the block waits; a command ends; an illegal word completes; a register is read; the block is reset. The
host's side is not looked at. -/
inductive Stepped (s : State) : State → Prop
  | waits : Stepped s s
  | command {i : Instr} {u : State} (h : Ended i s u) : Stepped s (advanceHost u)
  | illegal : Stepped s (advanceHost (illegalCommand s))
  | read (h : HostSide) : Stepped s (advanceHost (s.setHost h))
  | reset (es : List Event) : Stepped s (advanceHost (blockReset (s.setEnv (envAfterEvents es s))))

theorem step_of_currentHostStep {x : HostStep} (h : s.host.program[s.host.pc]? = some x) :
    step s = thenAdvance (runHostStep x s) := by
  rw [step, currentHostStep, h]

/-- Settles O9. -/
theorem stepWaitsWithoutCommand : Obligations.StepWaitsWithoutCommand := by
  intro s h
  rw [step, currentHostStep, h]

theorem stepped_of_step (h : step s = .next t) : Stepped s t := by
  cases hx : s.host.program[s.host.pc]? with
  | none =>
    rw [stepWaitsWithoutCommand s hx] at h
    cases h
    exact .waits
  | some x =>
    rw [step_of_currentHostStep hx] at h
    cases x with
    | command x =>
      obtain ⟨u, hu, hend⟩ := commandPort_next x s
      rw [runHostStep, hu] at h
      cases h
      rcases hend with rfl | ⟨i, hend⟩
      · exact .illegal
      · exact .command hend
    | readReg n =>
      rw [runHostStep] at h
      cases hn : readReg n s with
      | none => rw [readPort_of_unmapped hn] at h; cases h
      | some b => rw [readPort_of_readReg hn] at h; cases h; exact .read _
    | assertReset =>
      cases h
      exact .reset []
    | resetDuring x k =>
      obtain ⟨es, hes⟩ := resetDuringCommand_next x k s
      rw [runHostStep, hes] at h
      cases h
      exact .reset es

/-! The invariants over steps. -/

/-- Settles O3. -/
theorem resetMeetsInvariants : Obligations.ResetMeetsInvariants :=
  ⟨⟨rfl, fun _ => rfl, by decide, by decide, by decide⟩, by simp [State.Framed, State.reset]⟩

/-- The state after block reset meets the invariants, like the reset state, whatever the host and the environment are. -/
theorem blockReset_inv (s : State) : (blockReset s).Inv := { resetMeetsInvariants.1 with }

/-- Settles O45: by the end of the step. A command keeps the invariants, and block reset gives them. -/
theorem stepKeepsInvariants : Obligations.StepKeepsInvariants := by
  intro s t hs hstep
  cases stepped_of_step hstep with
  | waits => exact hs
  | command h => exact { h.inv hs with }
  | illegal => exact { hs with baud := rfl }
  | read => exact { hs with }
  | reset es => exact { blockReset_inv (s.setEnv (envAfterEvents es s)) with }

/-- Settles O46: by the end of the step. A command adds framed events only, and block reset empties TRACE. -/
theorem stepKeepsFraming : Obligations.StepKeepsFraming := by
  intro s t hs hstep
  cases stepped_of_step hstep with
  | waits | illegal | read => exact hs
  | command h =>
    obtain ⟨r, n, es, htrace, hes⟩ := h.adds
    rw [State.Framed, advanceHost_trace, htrace]
    exact List.forall_mem_append.2 ⟨hs, hes.framed⟩
  | reset => exact resetMeetsInvariants.2

end Sys2Proof.Machine
end

section
/-! Which commands write which register (10_state.md section 4), and the checks before any frame (40_serial_channel.md R86, 10_state.md
R24, 42_rom_commands.md R108). -/

namespace Sys2Proof.Machine

variable {i : Instr} {s t w : State}

/-! The parameters of the environment. -/

theorem drawOpen_wiredAnd (s : State) : (drawOpen s).2.wiredAnd = s.env.wiredAnd := by
  unfold drawOpen
  split <;> rfl

theorem drawOpen_portPath (s : State) : (drawOpen s).2.portPath = s.env.portPath := by
  unfold drawOpen
  split <;> rfl

/-- The parameters P_WIRED_AND and P_PORT_PATH of `s` and `t` are the same. -/
def SameParameters (s t : State) : Prop := t.env.wiredAnd = s.env.wiredAnd ∧ t.env.portPath = s.env.portPath

theorem sameParameters_of_env_eq (h : t.env = s.env) : SameParameters s t := ⟨by rw [h], by rw [h]⟩

theorem sameParameters_of_drawOpen (h : t.env = (drawOpen s).2) : SameParameters s t := by
  unfold SameParameters
  rw [h]
  exact ⟨drawOpen_wiredAnd s, drawOpen_portPath s⟩

theorem Sent.sameParameters {r n : Nat} (h : Sent r n s w) (ht : t.env = w.env) : SameParameters s t := by
  unfold SameParameters
  rw [ht]
  exact ⟨h.wiredAnd, h.portPath⟩

theorem Ended.sameParameters (h : Ended i s t) : SameParameters s t := by
  cases h with
  | alreadyOpen | searchReset => exact sameParameters_of_env_eq rfl
  | closed => exact sameParameters_of_env_eq (by rw [complete_env, closeLink_eq])
  | linkClosed | notReady | exhausted => exact sameParameters_of_env_eq (abort_env ..)
  | opened => exact sameParameters_of_drawOpen rfl
  | openFailed => exact sameParameters_of_drawOpen (abort_env ..)
  | slotsDone hi hl h => exact h.sent.sameParameters rfl
  | slotFailed hi hl h =>
    obtain ⟨n, hsent⟩ := h.1.sent
    exact hsent.1.sameParameters (abort_env ..)
  | busDone hi hl h | romRead hi hl h | found hi hl hd h => exact h.sameParameters rfl
  | busFailed hi hl h | passFailed hi hl h => exact h.sameParameters (abort_env ..)

/-! The writers of each register. -/

/-- The commands that start with the reset frame. -/
def SendsReset (i : Instr) : Prop :=
  i = .owReset ∨ (∃ a b, i = .owCommand a b) ∨ i = .owReadrom ∨ ∃ m, i = .owSearch m

/-- The commands that write RESULT (10_state.md R20). -/
def WritesResult (i : Instr) : Prop :=
  i = .owReset ∨ (∃ v, i = .owBit v) ∨ (∃ d, i = .owByte d) ∨ (∃ a b, i = .owCommand a b) ∨ ∃ v, i = .owTriplet v

theorem BusCommand.sendsReset {n : Nat} (h : BusCommand i n) : SendsReset i := by
  cases h <;> simp [SendsReset]

theorem BusCommand.writesResult {n : Nat} (h : BusCommand i n) : WritesResult i := by
  cases h <;> simp [WritesResult]

theorem SlotCommand.writesResult {n : Nat} (h : SlotCommand i n) : WritesResult i := by
  cases h <;> simp [WritesResult]

theorem sendsReset_of_busFailed (h : (∃ n, BusCommand i n) ∨ i = .owReadrom) : SendsReset i := by
  rcases h with ⟨n, h⟩ | h
  · exact h.sendsReset
  · exact .inr (.inr (.inl h))

theorem sendsReset_owSearch {m : SearchMode} (h : i = .owSearch m) : SendsReset i := .inr (.inr (.inr ⟨m, h⟩))

theorem sendsReset_owReadrom (h : i = .owReadrom) : SendsReset i := .inr (.inr (.inl h))

theorem Ended.linkOpen (h : Ended i s t) :
    t.linkOpen = s.linkOpen ∨ (i = .uartOpen ∧ (drawOpen s).1 = .ok ∧ t.linkOpen = true) ∨
      (i = .uartClose ∧ t.linkOpen = false) := by
  cases h with
  | alreadyOpen | searchReset => exact .inl rfl
  | opened hi hl ho => exact .inr (.inl ⟨hi, ho, rfl⟩)
  | closed hi => exact .inr (.inr ⟨hi, rfl⟩)
  | openFailed | linkClosed | notReady | exhausted => exact .inl (abort_linkOpen ..)
  | slotsDone hi hl h => exact .inl h.1.1.linkOpen
  | slotFailed hi hl h => exact .inl ((abort_linkOpen ..).trans h.1.linkOpen)
  | busDone hi hl h | romRead hi hl h | found hi hl hd h => exact .inl h.linkOpen
  | busFailed hi hl h | passFailed hi hl h => exact .inl ((abort_linkOpen ..).trans h.linkOpen)

theorem Ended.result (h : Ended i s t) : t.result = s.result ∨ t.status = .ok ∧ WritesResult i := by
  cases h with
  | alreadyOpen | searchReset => exact .inl rfl
  | opened => exact .inl (by simp [openLink_eq])
  | closed => exact .inl (by rw [complete_result, closeLink_eq])
  | openFailed | linkClosed | notReady | exhausted => exact .inl (abort_result ..)
  | slotsDone hi => exact .inr ⟨rfl, hi.writesResult⟩
  | busDone hi => exact .inr ⟨rfl, hi.writesResult⟩
  | slotFailed hi hl h => exact .inl ((abort_result ..).trans h.1.result)
  | romRead hi hl h | found hi hl hd h => exact .inl h.result
  | busFailed hi hl h | passFailed hi hl h => exact .inl ((abort_result ..).trans h.result)

theorem Ended.rstcls (h : Ended i s t) : t.rstcls = s.rstcls ∨ i = .uartOpen ∨ SendsReset i := by
  cases h with
  | alreadyOpen | searchReset => exact .inl rfl
  | opened hi => exact .inr (.inl hi)
  | closed => exact .inl (by rw [complete_rstcls, closeLink_eq])
  | openFailed | linkClosed | notReady | exhausted => exact .inl (abort_rstcls ..)
  | slotsDone hi hl h => exact .inl h.1.1.rstcls
  | slotFailed hi hl h => exact .inl ((abort_rstcls ..).trans h.1.rstcls)
  | busDone hi => exact .inr (.inr hi.sendsReset)
  | romRead hi => exact .inr (.inr (sendsReset_owReadrom hi))
  | busFailed hi => exact .inr (.inr (sendsReset_of_busFailed hi))
  | found hi | passFailed hi => exact .inr (.inr (sendsReset_owSearch hi))

theorem Ended.rom (h : Ended i s t) : t.rom = s.rom ∨ t.status = .ok ∧ (i = .owReadrom ∨ ∃ m, i = .owSearch m) := by
  cases h with
  | alreadyOpen | searchReset => exact .inl rfl
  | opened => exact .inl (by simp [openLink_eq])
  | closed => exact .inl (by rw [complete_rom, closeLink_eq])
  | openFailed | linkClosed | notReady | exhausted => exact .inl (abort_rom ..)
  | slotsDone hi hl h => exact .inl h.1.1.rom
  | slotFailed hi hl h => exact .inl ((abort_rom ..).trans h.1.rom)
  | busDone hi hl h => exact .inl h.rom
  | romRead hi => exact .inr ⟨rfl, .inl hi⟩
  | found hi => exact .inr ⟨rfl, .inr ⟨_, hi⟩⟩
  | busFailed hi hl h | passFailed hi hl h => exact .inl ((abort_rom ..).trans h.rom)

/-- The registers of the search state machine and its path (42_rom_commands.md R108). -/
def SameSearch (s t : State) : Prop := t.lastDev = s.lastDev ∧ t.lastDisc = s.lastDisc ∧ t.srom = s.srom

theorem SameSearch.of_abort {c : StatusCode} (h : SameSearch s w) : SameSearch s (abort c w) := by
  simpa only [SameSearch, abort_lastDev, abort_lastDisc, abort_srom] using h

theorem Sent.sameSearch {r n : Nat} (h : Sent r n s w) : SameSearch s w := ⟨h.lastDev, h.lastDisc, h.srom⟩

theorem LineStep.sameSearch {E : Event → Prop} (h : LineStep E s w) : SameSearch s w := ⟨h.lastDev, h.lastDisc, h.srom⟩

theorem Ended.search (h : Ended i s t) :
    SameSearch s t ∨ (i = .uartOpen ∧ (drawOpen s).1 = .ok ∧ s.linkOpen = false) ∨ i = .owSearchrst ∨
      ∃ m, i = .owSearch m := by
  have hself : SameSearch s s := ⟨rfl, rfl, rfl⟩
  cases h with
  | alreadyOpen => exact .inl hself
  | opened hi hl ho => exact .inr (.inl ⟨hi, ho, hl⟩)
  | closed => exact .inl (by simp [SameSearch, closeLink_eq])
  | openFailed | linkClosed | notReady => exact .inl (SameSearch.of_abort hself)
  | slotsDone hi hl h => exact .inl h.1.1.sameSearch
  | slotFailed hi hl h => exact .inl h.1.sameSearch.of_abort
  | busDone hi hl h | romRead hi hl h => exact .inl h.sameSearch
  | busFailed hi hl h => exact .inl h.sameSearch.of_abort
  | searchReset hi => exact .inr (.inr (.inl hi))
  | exhausted hi | found hi | passFailed hi => exact .inr (.inr (.inr ⟨_, hi⟩))

theorem abort_busReady_true {c : StatusCode} (h : (abort c w).busReady = true) :
    c.clearsBusReady = false ∧ w.busReady = true := by
  rw [abort_busReady] at h
  cases hc : c.clearsBusReady <;> simp_all

/-- BUS_READY becomes 1 only by a presence (41_onewire_bus.md R91). -/
theorem Ended.busReady (h : Ended i s t) (hb : t.busReady = true) :
    s.busReady = true ∨ (t.rstcls.code = 0x02 ∨ t.rstcls.code = 0x03) ∧ SendsReset i := by
  cases h with
  | alreadyOpen | searchReset => exact .inl hb
  | opened | closed => cases hb
  | openFailed | linkClosed | notReady | exhausted => exact .inl (abort_busReady_true hb).2
  | slotsDone hi hl h => exact .inl (h.1.1.busReady ▸ hb)
  | slotFailed hi hl h => exact .inl (h.1.busReady ▸ (abort_busReady_true hb).2)
  | busDone hi hl h hp => exact .inr ⟨hp.rstcls_code, hi.sendsReset⟩
  | romRead hi hl h hp => exact .inr ⟨hp.rstcls_code, sendsReset_owReadrom hi⟩
  | found hi hl hd h hp => exact .inr ⟨hp.rstcls_code, sendsReset_owSearch hi⟩
  | busFailed hi hl h hc => exact absurd hc (by simp [(abort_busReady_true hb).1])
  | passFailed hi hl h hc =>
    rcases hc with hc | ⟨-, hp⟩
    · exact absurd hc (by simp [(abort_busReady_true hb).1])
    · rw [abort_rstcls]
      exact .inr ⟨hp.rstcls_code, sendsReset_owSearch hi⟩

/-- Settles O41: register by register, the ends that write it. -/
theorem registerWriters : Obligations.RegisterWriters := by
  intro i s t hexec
  have h := ended_of_exec hexec
  obtain ⟨hwired, hpath⟩ := h.sameParameters
  refine ⟨h.linkOpen.resolve_left, h.result.resolve_left, h.rstcls.resolve_left, h.rom.resolve_left, fun hne => ?_,
    h.busReady, hwired, hpath⟩
  refine h.search.resolve_left ?_
  rintro ⟨hdev, hdisc, hsrom⟩
  tauto

/-! The checks before any frame. -/

/-- Settles O19: every line command starts with the link check. -/
theorem closedLinkEndsLineCommands : Obligations.ClosedLinkEndsLineCommands := by
  intro i s hopen hclose hl
  cases i with
  | uartOpen => exact absurd rfl hopen
  | uartClose => exact absurd rfl hclose
  | owReset => exact needsLink_of_requireLink _ _ exec_owReset s hl
  | owBit v => exact needsLink_of_requireLink _ _ (exec_owBit v) s hl
  | owByte d => exact needsLink_of_requireLink _ _ (exec_owByte d) s hl
  | owCommand target cmd => exact needsLink_of_requireLink _ _ (exec_owCommand target cmd) s hl
  | owReadrom => exact needsLink_of_requireLink _ _ exec_owReadrom s hl
  | owTriplet v => exact needsLink_of_requireLink _ _ (exec_owTriplet v) s hl
  | owSearch m => exact needsLink_of_requireLink _ _ (exec_owSearch m) s hl
  | owSearchrst => exact needsLink_of_requireLink _ _ exec_owSearchrst s hl

/-- Settles O26: the three commands check BUS_READY after the link. -/
theorem busNotReadyEndsBitOperations : Obligations.BusNotReadyEndsBitOperations := by
  rintro i s (⟨v, rfl⟩ | ⟨d, rfl⟩ | ⟨v, rfl⟩) hl hb
  · exact needsBus_of_requireBus _ _ (exec_owBit v) s hl hb
  · exact needsBus_of_requireBus _ _ (exec_owByte d) s hl hb
  · exact needsBus_of_requireBus _ _ (exec_owTriplet v) s hl hb

/-- Settles O33: state DONE is found before the pass, and its abort is none on the line. -/
theorem searchExhaustedGoesToFirst : Obligations.SearchExhaustedGoesToFirst := by
  intro m s hl hd
  rw [exec_owSearch, searchCommand, requireLink_open hl, Run.andThen_ok, if_pos hd, endCommand_stop, abort_eq_complete rfl]
  rfl

end Sys2Proof.Machine
end

section
/-! No command reads or writes the host's side (10_state.md R38): each part of a command commutes with replacing it. -/

namespace Sys2Proof.Machine

variable {α β : Type}

/-- The same end of a part of a command, with another host's side. -/
def Run.withHost (h : HostSide) : Run α → Run α
  | .ok a s => .ok a (s.setHost h)
  | .stop c s => .stop c (s.setHost h)

/-- A part of a command that neither reads nor writes the host's side. -/
def HostBlind (k : State → Run α) : Prop := ∀ s h, k (s.setHost h) = (k s).withHost h

theorem HostBlind.andThen {k : State → Run α} {l : α → State → Run β} (hk : HostBlind k) (hl : ∀ a, HostBlind (l a)) :
    HostBlind fun s => (k s).andThen l := by
  intro s h
  show (k (s.setHost h)).andThen l = ((k s).andThen l).withHost h
  rw [hk s h]
  cases k s with
  | ok a u => exact hl a u h
  | stop c u => rfl

theorem HostBlind.onAbort {k : State → Run α} {q : State → State} (hk : HostBlind k)
    (hq : ∀ s h, q (s.setHost h) = (q s).setHost h) : HostBlind fun s => (k s).onAbort q := by
  intro s h
  show (k (s.setHost h)).onAbort q = ((k s).onAbort q).withHost h
  rw [hk s h]
  cases k s with
  | ok a u => rfl
  | stop c u => exact congrArg (Run.stop c) (hq u h)

theorem requireLink_hostBlind : HostBlind requireLink := by
  intro s h
  cases hl : s.linkOpen with
  | true => rw [requireLink_open hl]; exact requireLink_open (s := s.setHost h) hl
  | false => rw [requireLink_closed hl]; exact requireLink_closed (s := s.setHost h) hl

theorem requireBus_hostBlind : HostBlind requireBus := by
  intro s h
  cases hb : s.busReady with
  | true => rw [requireBus_ready hb]; exact requireBus_ready (s := s.setHost h) hb
  | false => rw [requireBus_notReady hb]; exact requireBus_notReady (s := s.setHost h) hb

theorem frame_hostBlind (sel : BaudSel) (x : Byte) : HostBlind (frame sel x) := by
  intro s h
  have hsent : sendFrame sel x (s.setHost h) = ((sendFrame sel x s).1, (sendFrame sel x s).2.setHost h) := rfl
  cases ho : (sendFrame sel x s).1 <;> simp only [frame, hsent, ho, Run.withHost]

theorem slot_hostBlind (v : Bool) : HostBlind (slot v) :=
  (frame_hostBlind _ _).andThen fun _ _ _ => rfl

theorem touchBits_hostBlind (d : Byte) (is : List Nat) (res : Byte) : HostBlind (touchBits d is res) := by
  induction is generalizing res with
  | nil => exact fun _ _ => rfl
  | cons i is ih => exact (slot_hostBlind _).andThen fun b => ih _

theorem touchByte_hostBlind (d : Byte) : HostBlind (touchByte d) := touchBits_hostBlind d _ _

theorem readBytes_hostBlind (js : List Nat) (b : Bytes8) : HostBlind (readBytes js b) := by
  induction js generalizing b with
  | nil => exact fun _ _ => rfl
  | cons j js ih => exact (touchByte_hostBlind _).andThen fun x => ih _

theorem resetClassified_hostBlind (r : Byte) : HostBlind (resetClassified r) := by
  intro s h
  cases hc : classify r with
  | noDevicesPresent => rw [resetClassified_none hc, resetClassified_none hc]; rfl
  | shortCircuit => rw [resetClassified_short hc, resetClassified_short hc]; rfl
  | singleDevicePresent => rw [resetClassified_single hc, resetClassified_single hc]; rfl
  | multipleDevicesPresent => rw [resetClassified_multiple hc, resetClassified_multiple hc]; rfl

theorem busReset_hostBlind : HostBlind busReset := by
  refine (frame_hostBlind _ _).andThen fun e => ?_
  cases e with
  | none => exact fun _ _ => rfl
  | some r => exact fun s h => resetClassified_hostBlind r (s.setBaudSel .normal) h

theorem searchPosition_hostBlind (n lz : Nat) : HostBlind (searchPosition n lz) := by
  refine (slot_hostBlind _).andThen fun id => (slot_hostBlind _).andThen fun cmp => ?_
  by_cases hidcmp : id = true ∧ cmp = true
  · simp only [if_pos hidcmp]
    exact fun _ _ => rfl
  · simp only [if_neg hidcmp]
    exact fun s h => ((slot_hostBlind _).andThen fun _ _ _ => rfl) (s.setSrom _) h

theorem searchLoop_hostBlind (ns : List Nat) (lz : Nat) : HostBlind (searchLoop ns lz) := by
  induction ns generalizing lz with
  | nil => exact fun _ _ => rfl
  | cons n ns ih => exact (searchPosition_hostBlind n lz).andThen fun lz => ih lz

theorem searchFound_hostBlind (last : Nat) : HostBlind (searchFound last) := by
  intro s h
  unfold searchFound
  by_cases hfam : byteAt s.srom 0 = 0x00
  · rw [if_pos hfam]; exact if_pos hfam
  · rw [if_neg hfam]
    refine (if_neg hfam).trans ?_
    by_cases hlast : last = 0
    · simp only [if_pos hlast]; rfl
    · simp only [if_neg hlast]; rfl

theorem searchPass_hostBlind (m : SearchMode) : HostBlind (searchPass m) :=
  busReset_hostBlind.andThen fun _ => (touchByte_hostBlind _).andThen fun _ =>
    (searchLoop_hostBlind _ _).andThen searchFound_hostBlind

theorem searchCommand_hostBlind (m : SearchMode) : HostBlind (searchCommand m) := by
  refine requireLink_hostBlind.andThen fun _ s h => ?_
  cases hd : s.lastDev with
  | true => simp [hd]; rfl
  | false => simpa [hd] using ((searchPass_hostBlind m).onAbort fun _ _ => rfl) s h

theorem openPort_hostBlind : HostBlind openPort := by
  intro s h
  cases hl : s.linkOpen with
  | true => rw [openPort_of_open hl]; exact openPort_of_open (s := s.setHost h) hl
  | false =>
    cases ho : (drawOpen s).1 with
    | ok => rw [openPort_of_ok hl ho]; exact openPort_of_ok (s := s.setHost h) hl ho
    | unavailable => rw [openPort_of_unavailable hl ho]; exact openPort_of_unavailable (s := s.setHost h) hl ho
    | openFailed => rw [openPort_of_openFailed hl ho]; exact openPort_of_openFailed (s := s.setHost h) hl ho

theorem endCommand_withHost (r : Run Unit) (h : HostSide) : endCommand (r.withHost h) = (endCommand r).setHost h := by
  cases r with
  | ok a s => rfl
  | stop c s =>
    show abort c (s.setHost h) = (abort c s).setHost h
    unfold abort
    cases c.clearsBusReady <;> rfl

theorem exec_setHost_of_hostBlind {i : Instr} {run : State → Run Unit} (hrun : HostBlind run)
    (hi : ∀ s, exec i s = .next (endCommand (run s))) (s : State) (h : HostSide) :
    ∃ t, exec i s = .next t ∧ exec i (s.setHost h) = .next (t.setHost h) :=
  ⟨_, hi s, by rw [hi, hrun, endCommand_withHost]⟩

theorem exec_setHost (i : Instr) (s : State) (h : HostSide) :
    ∃ t, exec i s = .next t ∧ exec i (s.setHost h) = .next (t.setHost h) := by
  revert s h
  cases i with
  | uartOpen => exact exec_setHost_of_hostBlind openPort_hostBlind exec_uartOpen
  | uartClose =>
    refine exec_setHost_of_hostBlind (run := fun s => .ok () (closeLink s)) (fun s h => ?_) exec_uartClose
    simp only [closeLink_eq]
    rfl
  | owReset =>
    exact exec_setHost_of_hostBlind (requireLink_hostBlind.andThen fun _ => busReset_hostBlind.andThen fun _ _ _ => rfl)
      exec_owReset
  | owBit v =>
    exact exec_setHost_of_hostBlind (requireLink_hostBlind.andThen fun _ => requireBus_hostBlind.andThen fun _ =>
      (slot_hostBlind v).andThen fun _ _ _ => rfl) (exec_owBit v)
  | owByte d =>
    exact exec_setHost_of_hostBlind (requireLink_hostBlind.andThen fun _ => requireBus_hostBlind.andThen fun _ =>
      (touchByte_hostBlind d).andThen fun _ _ _ => rfl) (exec_owByte d)
  | owCommand target cmd =>
    exact exec_setHost_of_hostBlind (requireLink_hostBlind.andThen fun _ => busReset_hostBlind.andThen fun _ =>
      (touchByte_hostBlind target).andThen fun _ => (touchByte_hostBlind cmd).andThen fun _ _ _ => rfl)
      (exec_owCommand target cmd)
  | owReadrom =>
    exact exec_setHost_of_hostBlind (requireLink_hostBlind.andThen fun _ => busReset_hostBlind.andThen fun _ =>
      (touchByte_hostBlind _).andThen fun _ => (readBytes_hostBlind _ _).andThen fun _ _ _ => rfl) exec_owReadrom
  | owTriplet v =>
    exact exec_setHost_of_hostBlind (requireLink_hostBlind.andThen fun _ => requireBus_hostBlind.andThen fun _ =>
      (slot_hostBlind true).andThen fun _ => (slot_hostBlind true).andThen fun _ =>
        (slot_hostBlind _).andThen fun _ _ _ => rfl) (exec_owTriplet v)
  | owSearch m => exact exec_setHost_of_hostBlind (searchCommand_hostBlind m) (exec_owSearch m)
  | owSearchrst =>
    exact exec_setHost_of_hostBlind (requireLink_hostBlind.andThen fun _ _ _ => rfl) exec_owSearchrst

/-- A command leaves the host's side as it was: replacing the host's side by itself changes nothing. -/
theorem exec_host {i : Instr} {s t : State} (h : exec i s = .next t) : t.host = s.host := by
  obtain ⟨u, hu, hself⟩ := exec_setHost i s s.host
  have ht : t = u.setHost s.host := Host.Outcome.next.inj (h.symm.trans hself)
  rw [ht, State.setHost_host]

/-- Settles O10: every part of every command is blind to the host's side. -/
theorem commandsIgnoreHostSide : Obligations.CommandsIgnoreHostSide := by
  intro i s h
  obtain ⟨t, ht, hhost⟩ := exec_setHost i s h
  exact ⟨t, ht, exec_host ht, hhost⟩

end Sys2Proof.Machine
end

section
/-! One step of the machine: reset (10_state.md R37, 70_reset_and_hazards.md R167), register reads (10_state.md R17), command words
(30_encoding.md R62, R63), and several instances (60_exceptions.md R162). -/

namespace Sys2Proof.Machine

variable {s t : State}

/-! Block reset. -/

/-- Settles O2: the 21 mapped numbers one by one. -/
theorem stateAfterReset : Obligations.StateAfterReset := by
  refine ⟨?registers, rfl, rfl⟩
  decide +kernel

theorem Env.foldl_afterEvent_wiredAnd (es : List Event) (e : Env) : (es.foldl Env.afterEvent e).wiredAnd = e.wiredAnd := by
  induction es generalizing e with
  | nil => rfl
  | cons v es ih => rw [List.foldl_cons, ih, Env.afterEvent_wiredAnd]

theorem Env.foldl_afterEvent_portPath (es : List Event) (e : Env) : (es.foldl Env.afterEvent e).portPath = e.portPath := by
  induction es generalizing e with
  | nil => rfl
  | cons v es ih => rw [List.foldl_cons, ih, Env.afterEvent_portPath]

/-- Both ways to assert block reset end in the reset state of the block. -/
theorem runHostStep_of_reset {x : HostStep} (h : x = .assertReset ∨ ∃ w k, x = .resetDuring w k) (s : State) :
    ∃ es, runHostStep x s = .next (blockReset (s.setEnv (envAfterEvents es s))) := by
  rcases h with rfl | ⟨w, k, rfl⟩
  · exact ⟨[], rfl⟩
  · exact resetDuringCommand_next w k s

theorem byteAt_replicate_zero {i : Nat} (hi : i < 8) : byteAt (Vector.replicate 8 0x00) i = 0x00 := by
  simp [byteAt, getD_eq, hi]

theorem flagsByte_afterReset (s : State) : flagsByte (advanceHost (blockReset s)) = 0x00 := by
  show flagsByte State.reset = 0x00
  decide

/-- Settles O1: every register of the state after block reset is the reset state's. -/
theorem blockResetSetsEveryRegister : Obligations.BlockResetSetsEveryRegister := by
  intro s x hx hpc
  obtain ⟨es, hrun⟩ := runHostStep_of_reset hx s
  refine ⟨advanceHost (blockReset (s.setEnv (envAfterEvents es s))),
    by rw [step_of_currentHostStep hpc, hrun]; rfl, rfl, rfl, rfl, congrArg some (flagsByte_afterReset _), rfl, rfl, rfl, rfl, rfl,
    fun i hi => ⟨byteAt_replicate_zero hi, byteAt_replicate_zero hi⟩, rfl, rfl, ?wiredAnd, ?portPath⟩
  case wiredAnd => exact Env.foldl_afterEvent_wiredAnd es s.env
  case portPath => exact Env.foldl_afterEvent_portPath es s.env

/-! Register reads. -/

/-- R17, R18: the mapped numbers are 0x00 to 0x14. -/
theorem readReg_mapped {n : Byte} (h : n.toNat ≤ 0x14) (s : State) : ∃ x, readReg n s = some x := by
  unfold readReg
  split_ifs <;> exact ⟨_, rfl⟩

theorem readReg_unmapped {n : Byte} (h : 0x14 < n.toNat) (s : State) : readReg n s = none := by
  have hne {k : Byte} (hk : k.toNat ≤ 0x14) : n ≠ k := by
    rintro rfl
    omega
  rw [readReg, if_neg (hne (by decide)), if_neg (hne (by decide)), if_neg (hne (by decide)), if_neg (hne (by decide)),
    if_neg (hne (by decide)), if_neg (by omega), if_neg (by omega)]

/-- Settles O4: the read port gives the value to the host alone. -/
theorem readPortHasNoSideEffect : Obligations.ReadPortHasNoSideEffect := by
  intro s n hpc
  rw [step_of_currentHostStep hpc, runHostStep]
  refine ⟨fun h => ?mapped, fun h => ?unmapped⟩
  case mapped =>
    obtain ⟨x, hx⟩ := readReg_mapped h s
    exact ⟨x, hx, by rw [readPort_of_readReg hx]; rfl⟩
  case unmapped => rw [readPort_of_unmapped (readReg_unmapped h s)]; rfl

/-! Command words. -/

/-- Settles O6: the command port runs `exec`, which leaves the host's side alone. -/
theorem stepRunsDecodedCommand : Obligations.StepRunsDecodedCommand := by
  intro s w i hpc hdecode
  obtain ⟨t, ht⟩ := exec_next i s
  refine ⟨t, ht, exec_host ht, ?_⟩
  rw [step_of_currentHostStep hpc, runHostStep, commandPort_of_decode hdecode, ht, ← exec_host ht]
  rfl

theorem decode_error_of_not_legal {w : Word} (h : w.legal = false) : ∃ e, decode w = .error e := by
  cases hw : decode w with
  | error e => exact ⟨e, rfl⟩
  | ok i =>
    have hlegal : w.legal = true := (Word.legal_iff w).2 ((decodes_iff w).1 ⟨i, hw⟩)
    rw [hlegal] at h
    cases h

/-- Settles O7: a word that is not legal does not decode, so the command port completes with IllegalCommand. -/
theorem stepIllegalWord : Obligations.StepIllegalWord := by
  intro s w hpc hlegal
  obtain ⟨e, he⟩ := decode_error_of_not_legal hlegal
  rw [step_of_currentHostStep hpc, runHostStep, commandPort_of_error he]
  rfl

/-- Settles O8: by the kind of the host step; a command word and a reset always answer a next state. -/
theorem onlyUnmappedReadsStop : Obligations.OnlyUnmappedReadsStop := by
  intro s
  cases hpc : s.host.program[s.host.pc]? with
  | none => exact .inl ⟨s, stepWaitsWithoutCommand s hpc⟩
  | some x =>
    rw [step_of_currentHostStep hpc]
    cases x with
    | command w =>
      obtain ⟨t, ht, -⟩ := commandPort_next w s
      exact .inl ⟨_, by rw [runHostStep, ht]; rfl⟩
    | readReg n =>
      rcases Nat.lt_or_ge 0x14 n.toNat with h | h
      · exact .inr ⟨n, rfl, h, by rw [runHostStep, readPort_of_unmapped (readReg_unmapped h s)]; rfl⟩
      · obtain ⟨x, hx⟩ := readReg_mapped h s
        exact .inl ⟨_, by rw [runHostStep, readPort_of_readReg hx]; rfl⟩
    | assertReset => exact .inl ⟨_, rfl⟩
    | resetDuring w k =>
      obtain ⟨es, hes⟩ := resetDuringCommand_next w k s
      exact .inl ⟨_, by rw [runHostStep, hes]; rfl⟩

/-- Settles O12: each word by evaluation. -/
theorem decodesExampleWords : Obligations.DecodesExampleWords := by
  unfold Obligations.DecodesExampleWords
  decide

/-! Several instances. -/

/-- No step changes an instance's port (00_scope.md R8). -/
theorem Stepped.portPath (h : Stepped s t) : t.env.portPath = s.env.portPath := by
  cases h with
  | waits | illegal | read => rfl
  | command h => exact h.sameParameters.2
  | reset es => exact Env.foldl_afterEvent_portPath es s.env

/-- Of several instances, the one named takes its step and the others stay; naming none of them does nothing. -/
theorem stepInstance_next {f : State → Host.Outcome State Fault Refusal} {i : Nat} {ss ts : List State}
    (h : stepInstance f i ss = .next ts) :
    (ss[i]? = none ∧ ts = ss) ∨ ∃ s t, ss[i]? = some s ∧ f s = .next t ∧ ts = ss.set i t := by
  induction ss generalizing i ts with
  | nil => cases i <;> cases h <;> exact .inl ⟨rfl, rfl⟩
  | cons s rest ih =>
    cases i with
    | zero =>
      rw [stepInstance] at h
      cases hs : f s with
      | next t => rw [hs] at h; cases h; exact .inr ⟨s, t, rfl, hs, rfl⟩
      | fault e => cases e
      | refused r => rw [hs] at h; cases h
    | succ i =>
      rw [stepInstance] at h
      cases hrest : stepInstance f i rest with
      | next us =>
        rw [hrest] at h
        cases h
        rcases ih hrest with ⟨hnone, rfl⟩ | ⟨u, v, hu, hv, rfl⟩
        · exact .inl ⟨hnone, rfl⟩
        · exact .inr ⟨u, v, hu, hv, rfl⟩
      | fault e => cases e
      | refused r => rw [hrest] at h; cases h

/-- Replacing one instance by one on the same port keeps the list of ports. -/
theorem map_portPath_set {ss : List State} {i : Nat} (hs : ss[i]? = some s) (h : t.env.portPath = s.env.portPath) :
    ((ss.set i t).map fun s => s.env.portPath) = ss.map fun s => s.env.portPath := by
  obtain ⟨hi, rfl⟩ := List.getElem?_eq_some_iff.1 hs
  have hset := List.set_getElem_self (as := ss.map fun s => s.env.portPath) (by simpa using hi)
  rw [List.getElem_map] at hset
  rw [List.map_set, h, hset]

/-- Settles O11: by what a step of one instance is; its port path is kept, so the ports stay distinct. -/
theorem instancesShareNoState : Obligations.InstancesShareNoState := by
  intro ss ts i h
  rcases stepInstance_next h with ⟨hnone, rfl⟩ | ⟨s, t, hs, ht, rfl⟩
  · exact ⟨rfl, fun _ _ => rfl, fun s hs => (nomatch hnone.symm.trans hs), id⟩
  · have hpath := (stepped_of_step ht).portPath
    refine ⟨List.length_set, fun j hj => List.getElem?_set_ne (Ne.symm hj), fun s' hs' => ?stepped, fun hports => ?distinct⟩
    case stepped =>
      obtain rfl : s = s' := Option.some.inj (hs.symm.trans hs')
      exact ⟨t, by rw [List.getElem?_set_self (List.getElem?_eq_some_iff.1 hs).1], ht, hpath⟩
    case distinct =>
      rw [DistinctPorts, map_portPath_set hs hpath]
      exact hports

end Sys2Proof.Machine
end

section
/-! The laws of a touched byte (41_onewire_bus.md section 5): the loopback law and the write-zero law, and the wired-AND constraint they
rest on (40_serial_channel.md R77). -/

namespace Sys2Proof.Machine

/-- R77: a wired-AND echo has no 1 where the transmitted byte has a 0. -/
theorem wiredAnswer_and_not {t r : Byte} {o : LineOutcome} (h : wiredAnswer true t o = .echo r) : r &&& ~~~t = 0x00 := by
  cases o with
  | echo x =>
    obtain rfl : x &&& t = r := LineOutcome.echo.inj h
    rw [BitVec.and_assoc, BitVec.and_not_self]
    exact BitVec.and_zero
  | writeFail | readFail | timeout => cases h

theorem wiredAnswer_false (t : Byte) (o : LineOutcome) : wiredAnswer false t o = o := by cases o <;> rfl

/-- Settles O21: the constraint is the wired-AND answer's; without it the first scripted answer is the answer. -/
theorem wiredAndConstraint : Obligations.WiredAndConstraint := by
  refine ⟨fun s baud t r hwired h => ?constraint, fun s baud t o os hwired hscript => ?scripted⟩
  case constraint =>
    rw [drawEcho, hwired] at h
    exact wiredAnswer_and_not h
  case scripted =>
    rw [drawEcho, hwired]
    simp only [wiredAnswer_false, Env.nextEcho, hscript]

theorem wiredAnswer_bit_of_zero (o : LineOutcome) : (wiredAnswer true 0x00 o).bit = false := by
  cases o <;> simp [wiredAnswer, LineOutcome.bit]

/-- With P_WIRED_AND a slot that sends 0 reads 0, whatever answers it. -/
theorem answers_bit_of_zero {e : Env} (hwired : e.wiredAnd = true) {fs : List FrameAsk} {i baud : Nat} (h : List Event)
    (hf : fs[i]? = some (baud, 0x00)) : bitOf (e.answers h fs).1 i = false := by
  induction fs generalizing e h i with
  | nil => cases hf
  | cons f fs ih =>
    obtain ⟨b, t⟩ := f
    cases i with
    | zero =>
      obtain ⟨rfl, rfl⟩ : b = baud ∧ t = 0x00 := by simpa using hf
      show (wiredAnswer e.wiredAnd 0x00 (e.nextEcho h b 0x00).1).bit = false
      rw [hwired, wiredAnswer_bit_of_zero]
    | succ i => exact ih ((Env.nextEcho_wiredAnd ..).trans hwired) _ hf

theorem bitsOf_getElem? (d : Byte) {i : Nat} (hi : i < 8) : (bitsOf d)[i]? = some (d.getLsbD i) := by
  interval_cases i <;> rfl

theorem byteAsks_getElem? (d : Byte) {i : Nat} (hi : i < 8) : (byteAsks d)[i]? = some (slotAsk (d.getLsbD i)) := by
  rw [byteAsks_eq, List.getElem?_map, bitsOf_getElem? d hi]
  rfl

/-- Either no answer ends the command, or one of them is the first to do so. -/
theorem noFailure_or_firstFailure (os : List LineOutcome) : NoFailure os ∨ ∃ k c, FirstFailure os k c := by
  induction os with
  | nil => exact .inl (by simp [NoFailure])
  | cons o os ih =>
    cases ho : o.failure with
    | some c => exact .inr ⟨0, c, by simpa using ho, by simp⟩
    | none =>
      rcases ih with ih | ⟨k, c, hk, hfirst⟩
      · exact .inl (List.forall_mem_cons.2 ⟨ho, ih⟩)
      · refine .inr ⟨k + 1, c, hk, fun j hj => ?_⟩
        cases j with
        | zero => simpa using ho
        | succ j => exact hfirst j (by omega)

/-- A successful OW.BYTE leaves its touched byte in RESULT. -/
theorem touched_of_owByte_ok {d : Byte} {s t : State} (h : exec (.owByte d) s = .next t) (hok : t.status = .ok) :
    Touched t.result (s.answersTo (byteAsks d)) 0 := by
  obtain ⟨-, heffect⟩ := owByteEffect
  have hready : s.linkOpen = true ∧ s.busReady = true := by
    by_contra hnot
    cases hl : s.linkOpen with
    | false =>
      rw [closedLinkEndsLineCommands (.owByte d) s nofun nofun hl] at h
      cases h; cases hok
    | true =>
      have hb : s.busReady = false := by simpa [hl] using hnot
      rw [busNotReadyEndsBitOperations _ s (.inr (.inl ⟨d, rfl⟩)) hl hb] at h
      cases h; cases hok
  obtain ⟨hbyte, hfail⟩ := heffect d s hready.1 hready.2
  rcases noFailure_or_firstFailure (s.answersTo (byteAsks d)) with hno | ⟨k, c, hfirst⟩
  · obtain ⟨r, htouched, hexec⟩ := hbyte hno
    cases hexec.symm.trans h
    exact htouched
  · cases (hfail k c hfirst).symm.trans h
    exact absurd hok (ne_ok_of_clears (firstFailure_clears hfirst))

/-- Settles O29: bit by bit, a slot that sent 0 has read 0. -/
theorem wiredAndNeverRaisesZero : Obligations.WiredAndNeverRaisesZero := by
  intro d s t hwired hexec hok
  have htouched := touched_of_owByte_ok hexec hok
  refine BitVec.eq_of_getLsbD_eq fun i hi => ?_
  cases hd : d.getLsbD i with
  | true => simp [hd]
  | false =>
    have hread : t.result.getLsbD i = false := by
      rw [htouched i hi, Nat.zero_add]
      exact answers_bit_of_zero (baud := 115200) hwired _ (by rw [byteAsks_getElem? d hi, hd]; rfl)
    simp [hread]

/-- When every slot of a byte echoes its own byte, the answers give back the bits sent. -/
theorem bitOf_loopback (d : Byte) {i : Nat} (hi : i < 8) :
    bitOf ((byteAsks d).map fun f => .echo f.2) i = d.getLsbD i := by
  rw [bitOf, List.getElem?_map, byteAsks_getElem? d hi]
  cases d.getLsbD i <;> decide

/-- Settles O28: no echo fails, and the touched byte is the byte sent. -/
theorem loopbackReturnsOperand : Obligations.LoopbackReturnsOperand := by
  intro d s hl hb hecho
  obtain ⟨-, heffect⟩ := owByteEffect
  have hno : NoFailure (s.answersTo (byteAsks d)) := by
    rw [hecho]
    intro o ho
    obtain ⟨f, -, rfl⟩ := List.mem_map.1 ho
    rfl
  obtain ⟨r, htouched, hexec⟩ := (heffect d s hl hb).1 hno
  have hr : r = d := BitVec.eq_of_getLsbD_eq fun i hi => by
    rw [htouched i hi, hecho, Nat.zero_add, bitOf_loopback d hi]
  rw [hexec, hr]

end Sys2Proof.Machine
end

section
/-! A pass of OW.SEARCH that ends early (42_rom_commands.md R112, R115): at a position where no device answers, and at a failed frame. -/

namespace Sys2Proof.Machine

variable {m : SearchMode} {s : State} {r0 : Byte} {dirs : List Bool}

/-- The start of a pass: the reset frame found a presence and no slot of the ROM command byte failed. From the state `v` the loop over
the positions follows. -/
structure PassStarted (m : SearchMode) (s : State) (r0 : Byte) (command : List LineOutcome) (v : State) : Prop where
  run : searchPass m s = (searchLoop searchPositions 0 v).andThen searchFound
  command_length : command.length = 8
  baudSel : v.baudSel = .normal
  lastDisc : v.lastDisc = s.lastDisc
  srom : v.srom = s.srom
  answersTo : ∀ gs, s.answersTo (resetAsk :: (byteAsks (searchByte m) ++ gs)) = .echo r0 :: (command ++ v.answersTo gs)
  afterFrames : ∀ gs, v.afterFrames gs =
    { s.afterFrames (resetAsk :: (byteAsks (searchByte m) ++ gs)) with rstcls := presenceClass r0, busReady := true }

theorem passStarted {gs : List FrameAsk}
    (h0 : (s.answersTo (resetAsk :: (byteAsks (searchByte m) ++ gs)))[0]? = some (.echo r0)) (hp : presence r0)
    (hok : NoFailure ((s.answersTo (resetAsk :: (byteAsks (searchByte m) ++ gs))).take 9)) :
    ∃ command v, PassStarted m s r0 command v := by
  obtain ⟨s1, hreset, -, hs1, hanswers, hafter⟩ := busReset_then h0 hp
  rw [← State.answersTo_take, List.take_succ_cons, List.take_left' (byteAsks_length _), hanswers] at hok
  obtain ⟨r, -, htouch⟩ := touchByte_ok (noFailure_tail hok)
  refine ⟨s1.answersTo (byteAsks (searchByte m)), s1.afterFrames (byteAsks (searchByte m)), ?_, by simp, rfl, ?_, ?_,
    fun gs => ?_, fun gs => ?_⟩
  · rw [searchPass, hreset, Run.andThen_ok, searchCommandByte_eq, htouch, Run.andThen_ok]
  · rw [hs1]; rfl
  · rw [hs1]; rfl
  · rw [hanswers, State.answersTo_append]
  · rw [State.afterFrames_append, hafter]

/-- The answers past the positions of `dirs` do not matter for the directions. -/
theorem Takes.of_append {lastDisc : Byte} {srom : Bytes8} {p : Nat} {os ps : List LineOutcome}
    (h : Takes lastDisc srom p (os ++ ps) dirs) (hlen : os.length = 3 * dirs.length) : Takes lastDisc srom p os dirs := by
  intro j hj
  have hj' := h j hj
  rwa [bitOf_append_left (by omega), bitOf_append_left (by omega)] at hj'

theorem positionAsks_flatMap_length (dirs : List Bool) : (dirs.flatMap positionAsks).length = 3 * dirs.length := by
  rw [List.length_flatMap]
  simp [positionAsks]
  omega

/-- The positions of a pass, split after those of `dirs`. -/
theorem searchPositions_split (h : dirs.length ≤ 64) :
    searchPositions = List.range' (0 + 1) dirs.length ++ List.range' (dirs.length + 1) (64 - dirs.length) := by
  rw [searchPositions, Nat.add_comm dirs.length 1, List.range'_append_1, Nat.add_sub_cancel' h]

/-- Settles O35: the loop goes through the positions of `dirs`, and stops at the next one after its two read slots. -/
theorem searchNoResponseEffect : Obligations.SearchNoResponseEffect := by
  intro m s r0 dirs fs os hl hd hlen h0 hp hok ht hid hcmp
  have hfs : fs = resetAsk :: (byteAsks (searchByte m) ++ (dirs.flatMap positionAsks ++ [slotAsk true, slotAsk true])) := by
    simp [fs, searchAsks]
  have hasks : os = s.answersTo _ := congrArg s.answersTo hfs
  rw [hasks] at h0
  obtain ⟨command, v, hv⟩ := passStarted h0 hp fun o ho => hok o (hasks ▸ List.mem_of_mem_take ho)
  obtain ⟨a, ha, hab⟩ := (v.afterFrames (dirs.flatMap positionAsks)).answersTo_cons (slotAsk true) [slotAsk true]
  obtain ⟨b, hb, -⟩ := ((v.afterFrames (dirs.flatMap positionAsks)).afterFrames [slotAsk true]).answersTo_cons (slotAsk true) []
  rw [hb] at hab
  have hos : os = .echo r0 :: (command ++ (v.answersTo (dirs.flatMap positionAsks) ++ [a, b])) := by
    rw [hasks, hv.answersTo, State.answersTo_append, hab]
  have hposlen : (v.answersTo (dirs.flatMap positionAsks)).length = 3 * dirs.length := by
    rw [State.answersTo_length, positionAsks_flatMap_length]
  rw [hos] at hok ht hid hcmp
  rw [readId_pass hv.command_length, ← hposlen, ← Nat.add_zero (List.length _), bitOf_append_right] at hid
  rw [readCmp_pass hv.command_length, ← hposlen, bitOf_append_right] at hcmp
  have hslots : ∀ o ∈ v.answersTo (dirs.flatMap positionAsks) ++ [a, b], o.failure = none := fun o ho =>
    hok o (List.mem_cons_of_mem _ (List.mem_append_right _ ho))
  have htakes := (takes_of_takesDirections hv.command_length ht).of_append hposlen
  rw [← hv.lastDisc, ← hv.srom] at htakes
  obtain ⟨path, last, hloop, hpath, -⟩ := searchLoop_ok dirs 0 0 v hv.baudSel (by omega)
    (fun o ho => hslots o (List.mem_append_left _ ho)) htakes
  refine ⟨path, fun n h1 h2 => ?path, ?run⟩
  case path =>
    rw [hpath n h1 h2, hv.srom]
    by_cases hn : n ≤ dirs.length
    · rw [if_pos (by omega), if_pos hn]; rfl
    · rw [if_neg (by omega), if_neg hn]
  case run =>
    have hstop : searchPosition (dirs.length + 1) last ((v.afterFrames (dirs.flatMap positionAsks)).setSrom path) =
        .stop .searchNoResponse (((v.afterFrames (dirs.flatMap positionAsks)).setSrom path).afterFrames
          [slotAsk true, slotAsk true]) :=
      searchPosition_noResponse hab (hslots a (by simp)) (hslots b (by simp)) ⟨hid, hcmp⟩
    rw [exec_owSearch_of_open m hl hd, hv.run, searchPositions_split hlen.le, searchLoop_append, hloop, Run.andThen_ok,
      show 64 - dirs.length = (63 - dirs.length) + 1 by omega, List.range'_succ, searchLoop, hstop, Run.andThen_stop,
      Run.andThen_stop, Run.onAbort_stop, endCommand_stop, abort_eq_complete rfl, hfs]
    have hafter := hv.afterFrames (dirs.flatMap positionAsks ++ [slotAsk true, slotAsk true])
    rw [← State.afterFrames_append] at hafter
    have hpath : ((v.afterFrames (dirs.flatMap positionAsks)).setSrom path).afterFrames [slotAsk true, slotAsk true] =
        ((v.afterFrames (dirs.flatMap positionAsks)).afterFrames [slotAsk true, slotAsk true]).setSrom path := rfl
    rw [hpath, hafter]
    rfl
theorem firstFailure_append_left {os ps : List LineOutcome} {k : Nat} {c : StatusCode} (hk : k < os.length)
    (h : FirstFailure (os ++ ps) k c) : FirstFailure os k c := by
  obtain ⟨hfail, hfirst⟩ := h
  refine ⟨by rwa [List.getElem?_append_left hk] at hfail, fun j hj => ?_⟩
  have hj' := hfirst j hj
  rwa [List.getElem?_append_left (by omega)] at hj'

theorem firstFailure_append_right {os ps : List LineOutcome} {k : Nat} {c : StatusCode}
    (h : FirstFailure (os ++ ps) (os.length + k) c) : FirstFailure ps k c := by
  obtain ⟨hfail, hfirst⟩ := h
  refine ⟨by rwa [List.getElem?_append_right (by omega), Nat.add_sub_cancel_left] at hfail, fun j hj => ?_⟩
  have hj' := hfirst (os.length + j) (by omega)
  rwa [List.getElem?_append_right (by omega), Nat.add_sub_cancel_left] at hj'

/-- No answer before the first failure fails. -/
theorem noFailure_take_of_firstFailure {os : List LineOutcome} {k n : Nat} {c : StatusCode} (h : FirstFailure os k c)
    (hn : n ≤ k) : NoFailure (os.take n) := by
  intro o ho
  obtain ⟨j, hj⟩ := List.mem_iff_getElem?.1 ho
  rw [List.getElem?_take] at hj
  have hjn : j < n := by
    by_contra hc
    simp [hc] at hj
  rw [if_pos hjn] at hj
  simpa [hj] using h.2 j (by omega)

/-- A failed reset frame ends a pass before any slot (41_onewire_bus.md R98), in state FIRST (R115). -/
theorem exec_owSearch_of_failedReset {o : LineOutcome} {c : StatusCode} {cls : Option RstCls} (hl : s.linkOpen = true)
    (hd : s.lastDev = false) (h : s.answersTo [resetAsk] = [o]) (hf : resetFailure o = some (c, cls)) :
    exec (.owSearch m) s = .next { s.afterFrames [resetAsk] with
      status := c
      busReady := false
      rstcls := cls.getD s.rstcls
      lastDisc := 0x00
      lastDev := false } := by
  obtain ⟨u, hreset, hu, hc⟩ := busReset_failure h hf
  have hfirst : (searchFirst u).setBaudSel .normal =
      searchFirst { s.afterFrames [resetAsk] with rstcls := cls.getD s.rstcls } := congrArg searchFirst hu
  rw [exec_owSearch_of_open m hl hd, searchPass, hreset, Run.andThen_stop, Run.onAbort_stop, endCommand_stop,
    abort_lineFailure hfirst hc]
  rfl

/-- A slot of the ROM command byte is the first to fail: no path bit has been written. -/
theorem exec_owSearch_of_failedCommand {gs : List FrameAsk} {k : Nat} {c : StatusCode} (hl : s.linkOpen = true)
    (hd : s.lastDev = false) (h0 : (s.answersTo (resetAsk :: (byteAsks (searchByte m) ++ gs)))[0]? = some (.echo r0))
    (hp : presence r0) (hk : k < 8) (hf : FirstFailure (s.answersTo (resetAsk :: (byteAsks (searchByte m) ++ gs))) (k + 1) c) :
    exec (.owSearch m) s = .next { s.afterFrames ((resetAsk :: (byteAsks (searchByte m) ++ gs)).take (k + 1 + 1)) with
      status := c
      rstcls := presenceClass r0
      busReady := false
      lastDisc := 0x00
      lastDev := false } := by
  obtain ⟨s1, hreset, -, -, hanswers, hafter⟩ := busReset_then h0 hp
  rw [hanswers, State.answersTo_append] at hf
  obtain ⟨j, hj, htail⟩ := firstFailure_tail hf
  obtain rfl : k = j := by omega
  have hcommand := firstFailure_append_left (by simpa using hk) htail
  rw [exec_owSearch_of_open m hl hd, searchPass, hreset, Run.andThen_ok, searchCommandByte_eq, touchByte_stop hcommand,
    Run.andThen_stop, Run.onAbort_stop, endCommand_stop, abort_lineFailure rfl (firstFailure_clears hcommand),
    List.take_succ_cons, List.take_append_of_le_length (by simp; omega), hafter]
  rfl

/-- A frame of the positions of `dirs` is the first to fail: the positions whose direction slot was reached are on the path. -/
theorem exec_owSearch_of_failedPosition {k : Nat} {c : StatusCode} (hl : s.linkOpen = true) (hd : s.lastDev = false)
    (hlen : dirs.length ≤ 64) (h0 : (s.answersTo (searchAsks m dirs))[0]? = some (.echo r0)) (hp : presence r0)
    (hf : FirstFailure (s.answersTo (searchAsks m dirs)) (9 + k) c)
    (ht : ∀ n, 1 ≤ n → 9 + 3 * (n - 1) + 1 < 9 + k →
      ¬(readId (s.answersTo (searchAsks m dirs)) n = true ∧ readCmp (s.answersTo (searchAsks m dirs)) n = true) ∧
      dirAt dirs n = if readId (s.answersTo (searchAsks m dirs)) n ≠ readCmp (s.answersTo (searchAsks m dirs)) n then
        readId (s.answersTo (searchAsks m dirs)) n else directionRule s n) :
    ∃ path : Bytes8, PathAfter s.srom path dirs ((k + 1) / 3) ∧
      exec (.owSearch m) s = .next { s.afterFrames ((searchAsks m dirs).take (9 + k + 1)) with
        status := c
        rstcls := presenceClass r0
        busReady := false
        lastDisc := 0x00
        lastDev := false
        srom := path } := by
  rw [searchAsks] at h0 hf ht ⊢
  obtain ⟨command, v, hv⟩ := passStarted h0 hp (noFailure_take_of_firstFailure hf (by omega))
  rw [hv.answersTo] at hf ht
  have hlen9 : (LineOutcome.echo r0 :: command).length = 9 := by rw [List.length_cons, hv.command_length]
  have hpos : FirstFailure (v.answersTo (dirs.flatMap positionAsks)) k c := by
    rw [← List.cons_append, ← hlen9] at hf
    exact firstFailure_append_right hf
  obtain ⟨path, hloop, hpath⟩ := searchLoop_stop dirs 0 0 k c v (by omega) hpos fun j hj => by
    obtain ⟨hanswer, hdir⟩ := ht (j + 1) (by omega) (by omega)
    rw [readId_pass hv.command_length, readCmp_pass hv.command_length] at hanswer hdir
    rw [Nat.zero_add, Nat.add_comm 1 j, searchTake, hv.lastDisc, hv.srom, searchDirection_eq]
    exact ⟨hanswer, hdir⟩
  refine ⟨path, fun n h1 h2 => ?path, ?run⟩
  case path =>
    rw [hpath n h1 h2, hv.srom]
    by_cases hn : n ≤ (k + 1) / 3
    · rw [if_pos (by omega), if_pos hn]; rfl
    · rw [if_neg (by omega), if_neg hn]
  case run =>
    have htake : (resetAsk :: (byteAsks (searchByte m) ++ dirs.flatMap positionAsks)).take (9 + k + 1) =
        resetAsk :: (byteAsks (searchByte m) ++ (dirs.flatMap positionAsks).take (k + 1)) := by
      rw [List.take_succ_cons, List.take_append, byteAsks_length, List.take_of_length_le (by simp; omega),
        show 9 + k - 8 = k + 1 by omega]
    rw [exec_owSearch_of_open m hl hd, hv.run, searchPositions_split hlen, searchLoop_append, hloop, Run.andThen_stop,
      Run.andThen_stop, Run.onAbort_stop, endCommand_stop, abort_lineFailure rfl (firstFailure_clears hpos), htake,
      hv.afterFrames]
    rfl

/-- Settles O36: by whether the failed frame is the reset frame, one of the ROM command byte, or one of the positions. -/
theorem searchFrameFailureEffect : Obligations.SearchFrameFailureEffect := by
  refine ⟨fun m s o c cls hl hd h hf => exec_owSearch_of_failedReset hl hd h hf, ?_⟩
  intro m s r0 dirs k c fs os hl hd hlen h0 hp hf ht
  cases k with
  | zero =>
    have hreset : LineOutcome.failure (.echo r0) = some c := by simpa [h0] using hf.1
    cases hreset
  | succ k =>
    rcases Nat.lt_or_ge k 8 with hk | hk
    · refine ⟨s.srom, fun n h1 h2 => ?_, exec_owSearch_of_failedCommand hl hd h0 hp hk hf⟩
      rw [if_neg (by omega)]
    · obtain ⟨j, rfl⟩ := Nat.exists_eq_add_of_le hk
      rw [show 8 + j + 1 = 9 + j by omega] at hf ht ⊢
      rw [show 9 + j - 8 = j + 1 by omega]
      exact exec_owSearch_of_failedPosition hl hd hlen h0 hp hf ht

end Sys2Proof.Machine
end

section
/-! The host programs when no frame fails (45_host_transactions.md section 3): each is built of ready parts, one `ReadyAfter` after
another. -/

namespace Sys2Proof.Machine

variable {s t u : State} {fs gs : List FrameAsk} {r0 : Byte}

/-! `Do(c)` (R124). -/

theorem doCommand_failed {i : Instr} (hexec : exec i s = .next t) (hfail : t.status ≠ .ok) :
    doCommand i s = .failed (.status t.status) (advanceHost t) := by
  rw [doCommand, commandPort_of_decode (decodeEncodeRoundTrip i), hexec]
  exact if_neg (mt StatusCode.code_eq_zero.mp hfail)

/-- Settles O55: the command's own word decodes to it, and the code read from STATUS is zero for OK alone. -/
theorem hostCommandReturnsResult : Obligations.HostCommandReturnsResult := by
  intro i s t hexec
  exact ⟨fun hok => doCommand_ok (decodeEncodeRoundTrip i) hexec hok, fun hfail => ⟨doCommand_failed hexec hfail, rfl⟩⟩

/-! Parts of a program one after another. -/

/-- A second part of a program goes on where the first one stopped. -/
theorem ReadyAfter.trans (h : ReadyAfter s fs t) (k : ReadyAfter t gs u) : ReadyAfter s (fs ++ gs) u := by
  have hsame : (t.afterFrames gs).env = ((s.afterFrames fs).afterFrames gs).env ∧
      (t.afterFrames gs).trace = ((s.afterFrames fs).afterFrames gs).trace := by
    simp only [State.afterFrames, h.env, h.trace, and_self]
  rw [State.afterFrames_append] at hsame
  exact ⟨k.linkOpen, k.busReady, k.status, k.env.trans hsame.1, k.trace.trans hsame.2⟩

/-- The answers to the second part's frames are answered after the first part. -/
theorem ReadyAfter.getElem?_answersTo (h : ReadyAfter s fs t) (i : Nat) :
    (s.answersTo (fs ++ gs))[fs.length + i]? = (t.answersTo gs)[i]? := by
  rw [h.answersTo_append, List.getElem?_append_right (by simp), State.answersTo_length, Nat.add_sub_cancel_left]

theorem ReadyAfter.noFailure_right (h : ReadyAfter s fs t) (hok : NoFailure (s.answersTo (fs ++ gs))) :
    NoFailure (t.answersTo gs) := by
  rw [h.answersTo_append] at hok
  exact (noFailure_append.1 hok).2

theorem ReadyAfter.touched_right {r : Byte} {k : Nat} (h : ReadyAfter s fs t) :
    Touched r (s.answersTo (fs ++ gs)) (fs.length + k) ↔ Touched r (t.answersTo gs) k := by
  unfold Touched
  simp only [h.answersTo_append, Nat.add_assoc, ← State.answersTo_length s fs, bitOf_append_right]

/-- A byte touched by earlier frames stays touched when more frames follow. -/
theorem touched_answersTo_left {r : Byte} {k : Nat} (hk : k + 8 ≤ fs.length) :
    Touched r (s.answersTo (fs ++ gs)) k ↔ Touched r (s.answersTo fs) k := by
  refine forall₂_congr fun i hi => ?_
  rw [bitOf_answersTo_left (by omega)]

theorem getElem?_answersTo_left {i : Nat} (hi : i < fs.length) :
    (s.answersTo (fs ++ gs))[i]? = (s.answersTo fs)[i]? := by
  rw [State.answersTo_append, List.getElem?_append_left (by simpa using hi)]

theorem touched_unique {r r' : Byte} {os : List LineOutcome} {k : Nat} (h : Touched r os k) (h' : Touched r' os k) : r = r' :=
  BitVec.eq_of_getLsbD_eq fun i hi => (h i hi).trans (h' i hi).symm

/-! Reading and writing bytes. -/

/-- The frames of `n` read bytes. -/
abbrev readAsks (n : Nat) : List FrameAsk := (List.replicate n (byteAsks 0xFF)).flatten

theorem readAsks_succ (n : Nat) (fs : List FrameAsk) : fs ++ readAsks (n + 1) = fs ++ byteAsks 0xFF ++ readAsks n := by
  rw [readAsks, List.replicate_succ, List.flatten_cons, List.append_assoc]

theorem readAsks_length (n : Nat) : (readAsks n).length = 8 * n := by
  simp [readAsks, Nat.mul_comm]

/-- Reading `n` bytes: byte `j` is touched by its eight frames. -/
theorem ReadyAfter.hostReadBytes {n : Nat} (h : ReadyAfter s fs t) (hok : NoFailure (s.answersTo (fs ++ readAsks n))) :
    ∃ bs u, hostReadBytes n t = .done bs u ∧
      (∀ j, j < n → Touched (bs.getD j 0x00) (s.answersTo (fs ++ readAsks n)) (fs.length + 8 * j)) ∧
      ReadyAfter s (fs ++ readAsks n) u := by
  induction n generalizing fs t with
  | zero => exact ⟨[], t, rfl, fun j hj => absurd hj (Nat.not_lt_zero j), by simpa [readAsks] using h⟩
  | succ n ih =>
    rw [readAsks_succ] at hok ⊢
    obtain ⟨v, hread, htouched, hv⟩ := h.doCommand_owByte (noFailure_answersTo_left hok)
    obtain ⟨bs, u, hrest, hbytes, hu⟩ := ih hv hok
    refine ⟨v.result :: bs, u, by simp only [Machine.hostReadBytes, hread, HostRun.andThen_done, hrest], fun j hj => ?_, hu⟩
    cases j with
    | zero => exact (touched_answersTo_left (by simp)).2 htouched
    | succ j =>
      have hj' := hbytes j (by omega)
      rw [List.length_append, byteAsks_length, Nat.add_assoc] at hj'
      rwa [List.getD_cons_succ, Nat.mul_succ, Nat.add_comm (8 * j)]

/-- Writing bytes. -/
theorem ReadyAfter.hostWriteBytes {ds : List Byte} (h : ReadyAfter s fs t)
    (hok : NoFailure (s.answersTo (fs ++ ds.flatMap byteAsks))) :
    ∃ u, hostWriteBytes ds t = .done () u ∧ ReadyAfter s (fs ++ ds.flatMap byteAsks) u := by
  induction ds generalizing fs t with
  | nil => exact ⟨t, rfl, by simpa using h⟩
  | cons d ds ih =>
    rw [List.flatMap_cons, ← List.append_assoc] at hok ⊢
    obtain ⟨v, hwrite, -, hv⟩ := h.doCommand_owByte (noFailure_answersTo_left hok)
    obtain ⟨u, hrest, hu⟩ := ih hv hok
    exact ⟨u, by rw [Machine.hostWriteBytes, hwrite, HostRun.andThen_done, hrest], hu⟩

/-! The scratchpad: H.READSP (R132), H.WRITESP (R134) and H.SETRES (R139). -/

/-- The frames of H.READSP. -/
abbrev readScratchpadAsks : List FrameAsk := skipRomAsks 0xBE ++ readAsks 9

/-- The frames of H.WRITESP. -/
abbrev writeScratchpadAsks (th tl config : Byte) : List FrameAsk :=
  skipRomAsks 0x4E ++ (byteAsks th ++ byteAsks tl ++ byteAsks config)

theorem hReadScratchpad_ready (hl : s.linkOpen = true) (h0 : (s.answersTo readScratchpadAsks)[0]? = some (.echo r0))
    (hp : presence r0) (hok : NoFailure (s.answersTo readScratchpadAsks)) :
    ∃ bs t, hReadScratchpad s = .done (scratchpadOf bs) t ∧
      (∀ j, j < 9 → Touched (bs.getD j 0x00) (s.answersTo readScratchpadAsks) (17 + 8 * j)) ∧
      ReadyAfter s readScratchpadAsks t := by
  obtain ⟨t, hskip, ht⟩ := hostSkipRom_ready hl h0 hp hok
  obtain ⟨bs, u, hread, hbytes, hu⟩ := ht.hostReadBytes hok
  exact ⟨bs, u, by rw [hReadScratchpad, byteReadScratchpad, hskip, HostRun.andThen_done, hread, HostRun.andThen_done],
    hbytes, hu⟩

/-- Settles O56: the nine bytes read, each by its place in the record. -/
theorem readScratchpadProgram : Obligations.ReadScratchpadProgram := by
  intro s r0 fs os hl h0 hp hok
  obtain ⟨bs, t, hrun, hbytes, ht⟩ := hReadScratchpad_ready hl h0 hp hok
  exact ⟨scratchpadOf bs, t, hrun, ht.trace, hbytes 0 (by omega), hbytes 1 (by omega), hbytes 2 (by omega),
    hbytes 3 (by omega), hbytes 4 (by omega), hbytes 5 (by omega), hbytes 6 (by omega), hbytes 7 (by omega),
    hbytes 8 (by omega), resolutionBits_eq _⟩

theorem hWriteScratchpad_ready {th tl config : Byte} (hl : s.linkOpen = true)
    (h0 : (s.answersTo (writeScratchpadAsks th tl config))[0]? = some (.echo r0)) (hp : presence r0)
    (hok : NoFailure (s.answersTo (writeScratchpadAsks th tl config))) :
    ∃ t, hWriteScratchpad th tl config s = .done () t ∧ ReadyAfter s (writeScratchpadAsks th tl config) t := by
  obtain ⟨t, hskip, ht⟩ := hostSkipRom_ready hl h0 hp hok
  obtain ⟨u, hwrite, hu⟩ := ht.hostWriteBytes (ds := [th, tl, config]) (by simpa using hok)
  exact ⟨u, by rw [hWriteScratchpad, byteWriteScratchpad, hskip, HostRun.andThen_done, hwrite], by simpa using hu⟩

/-- Settles O57. -/
theorem writeScratchpadProgram : Obligations.WriteScratchpadProgram := by
  intro th tl config s r0 fs os hl h0 hp hok
  obtain ⟨t, hrun, ht⟩ := hWriteScratchpad_ready hl h0 hp hok
  exact ⟨t, hrun, ht.trace⟩

/-- Settles O58: H.WRITESP goes on after H.READSP, with the bytes of the record that the frames have touched. -/
theorem setResolutionProgram : Obligations.SetResolutionProgram := by
  intro bits th tl c s r0 r1 fs os hlow hhigh hl h0 hp h1 hp1 hok hth htl hc
  have hfirst {k : Nat} (hk : k + 8 ≤ 89) {r : Byte} (h : Touched r os k) : Touched r (s.answersTo readScratchpadAsks) k :=
    (touched_answersTo_left (fs := readScratchpadAsks) hk).1 h
  obtain ⟨bs, t, hread, hbytes, ht⟩ := hReadScratchpad_ready hl
    ((getElem?_answersTo_left (by simp)).symm.trans h0) hp
    (noFailure_answersTo_left hok)
  obtain rfl := touched_unique (hfirst (by omega) hth) (hbytes 2 (by omega))
  obtain rfl := touched_unique (hfirst (by omega) htl) (hbytes 3 (by omega))
  obtain rfl := touched_unique (hfirst (by omega) hc) (hbytes 4 (by omega))
  obtain ⟨u, hwrite, hu⟩ := hWriteScratchpad_ready (r0 := r1) ht.linkOpen
    ((ht.getElem?_answersTo 0).symm.trans h1) hp1 (ht.noFailure_right hok)
  refine ⟨u, ?_, (ht.trans hu).trace⟩
  rw [hSetResolution, if_neg (by omega), hread, HostRun.andThen_done, Int.toNat_natCast]
  exact hwrite

/-! H.CONVERT (R130, R131, R144) and H.READTEMP (R135). -/

/-- A poll that reads 0x00: the last one allowed fails, a signal cancels the wait after it, else the loop goes on. -/
theorem pollLoop_of_zeroPoll {label left : Nat} {cancelWait : Option Nat} (h : doCommand (.owByte 0xFF) s = .done 0x00 t) :
    pollLoop label (left + 1) cancelWait s =
      if left = 0 then .failed .conversionTimeout t
      else if cancelWait = some 0 then .cancelled t
      else pollLoop label left (cancelWait.map (· - 1)) (hostGoto label t) := by
  rw [pollLoop, h]
  rfl

/-- A poll that reads another byte ends the loop. -/
theorem pollLoop_of_nonzeroPoll {label left : Nat} {cancelWait : Option Nat} {r : Byte}
    (h : doCommand (.owByte 0xFF) s = .done r t) (hr : r ≠ 0x00) :
    pollLoop label (left + 1) cancelWait s = .done () t := by
  rw [pollLoop, h]
  exact if_pos hr

/-- One poll, all of whose slots read 0. -/
theorem ReadyAfter.poll_zero (h : ReadyAfter s fs t) (hok : NoFailure (s.answersTo (fs ++ byteAsks 0xFF ++ gs)))
    (hzero : ∀ k, fs.length ≤ k → k < fs.length + 8 → bitOf (s.answersTo (fs ++ byteAsks 0xFF ++ gs)) k = false) :
    ∃ u, doCommand (.owByte 0xFF) t = .done 0x00 u ∧ u.result = 0x00 ∧ ReadyAfter s (fs ++ byteAsks 0xFF) u := by
  obtain ⟨u, hpoll, htouched, hu⟩ := h.doCommand_owByte (noFailure_answersTo_left hok)
  have hresult : u.result = 0x00 :=
    eq_zero_of_touched ((touched_answersTo_left (gs := gs) (by simp)).2 htouched) hzero
  rw [hresult] at hpoll
  exact ⟨u, hpoll, hresult, hu⟩

theorem ne_zero_of_touched {r : Byte} {os : List LineOutcome} {k j : Nat} (h : Touched r os k) (hk : k ≤ j) (hj : j < k + 8)
    (hone : bitOf os j = true) : r ≠ 0x00 := by
  rintro rfl
  have hbit := h (j - k) (by omega)
  rw [Nat.add_sub_cancel' hk, hone] at hbit
  simp at hbit

/-- The polls up to the first one that does not read 0x00 (R130). -/
theorem pollLoop_firstNonzero (label : Nat) {left j : Nat} (h : ReadyAfter s fs t) (hj : j < left)
    (hok : NoFailure (s.answersTo (fs ++ readAsks (j + 1))))
    (hzero : ∀ k, fs.length ≤ k → k < fs.length + 8 * j → bitOf (s.answersTo (fs ++ readAsks (j + 1))) k = false)
    (hone : ∃ k, fs.length + 8 * j ≤ k ∧ k < fs.length + 8 * j + 8 ∧
      bitOf (s.answersTo (fs ++ readAsks (j + 1))) k = true) :
    ∃ u, pollLoop label left none t = .done () u ∧
      Touched u.result (s.answersTo (fs ++ readAsks (j + 1))) (fs.length + 8 * j) ∧ ReadyAfter s (fs ++ readAsks (j + 1)) u := by
  obtain ⟨left, rfl⟩ : ∃ n, left = n + 1 := ⟨left - 1, by omega⟩
  induction j generalizing fs t left with
  | zero =>
    obtain ⟨k, hk, hk', hbit⟩ := hone
    rw [readAsks_succ] at hok hbit ⊢
    obtain ⟨u, hpoll, htouched, hu⟩ := h.doCommand_owByte (noFailure_answersTo_left hok)
    have htouched' := (touched_answersTo_left (gs := readAsks 0) (by simp)).2 htouched
    exact ⟨u, pollLoop_of_nonzeroPoll hpoll (ne_zero_of_touched htouched' hk hk' hbit), htouched', by simpa [readAsks] using hu⟩
  | succ j ih =>
    rw [readAsks_succ] at hok hzero hone ⊢
    obtain ⟨v, hpoll, -, hv⟩ := h.poll_zero hok fun k hk hk' => hzero k hk (by omega)
    have hlen : (fs ++ byteAsks 0xFF).length = fs.length + 8 := by simp
    obtain ⟨left, rfl⟩ : ∃ n, left = n + 1 := ⟨left - 1, by omega⟩
    rw [pollLoop_of_zeroPoll hpoll, if_neg (by omega), if_neg nofun, show fs.length + 8 * (j + 1) = (fs ++ byteAsks 0xFF).length + 8 * j by omega]
    refine ih (hv.hostGoto label) hok (fun k hk hk' => hzero k (by omega) (by omega)) ?_ left (by omega)
    obtain ⟨k, hk, hk', hbit⟩ := hone
    exact ⟨k, by omega, by omega, hbit⟩

/-- The polls up to the wait that a signal stops (R144). -/
theorem pollLoop_cancelled (label : Nat) {left w : Nat} (h : ReadyAfter s fs t) (hw : w + 1 < left)
    (hok : NoFailure (s.answersTo (fs ++ readAsks (w + 1))))
    (hzero : ∀ k, fs.length ≤ k → bitOf (s.answersTo (fs ++ readAsks (w + 1))) k = false) :
    ∃ u, pollLoop label left (some w) t = .cancelled u ∧ u.result = 0x00 ∧ ReadyAfter s (fs ++ readAsks (w + 1)) u := by
  obtain ⟨left, rfl⟩ : ∃ n, left = n + 1 := ⟨left - 1, by omega⟩
  induction w generalizing fs t left with
  | zero =>
    rw [readAsks_succ] at hok hzero ⊢
    obtain ⟨u, hpoll, hresult, hu⟩ := h.poll_zero hok fun k hk _ => hzero k hk
    refine ⟨u, ?_, hresult, by simpa [readAsks] using hu⟩
    rw [pollLoop_of_zeroPoll hpoll, if_neg (by omega), if_pos rfl]
  | succ w ih =>
    rw [readAsks_succ] at hok hzero ⊢
    obtain ⟨v, hpoll, -, hv⟩ := h.poll_zero hok fun k hk _ => hzero k hk
    obtain ⟨left, rfl⟩ : ∃ n, left = n + 1 := ⟨left - 1, by omega⟩
    rw [pollLoop_of_zeroPoll hpoll, if_neg (by omega), if_neg (by simp)]
    exact ih (hv.hostGoto label) hok (fun k hk => hzero k (by simp at hk; omega)) left (by omega)

/-- The frames of H.CONVERT with `j` polls. -/
abbrev convertAsks (j : Nat) : List FrameAsk := skipRomAsks 0x44 ++ readAsks j

theorem convertAsks_length (j : Nat) : (convertAsks j).length = 17 + 8 * j := by
  rw [convertAsks, List.length_append, readAsks_length]
  rfl

theorem hConvert_ready {maxPolls j : Nat} (hj : 1 ≤ j) (hmax : j ≤ maxPolls) (hl : s.linkOpen = true)
    (h0 : (s.answersTo (convertAsks j))[0]? = some (.echo r0)) (hp : presence r0) (hok : NoFailure (s.answersTo (convertAsks j)))
    (hfirst : FirstNonzeroPoll (s.answersTo (convertAsks j)) j) :
    ∃ t, hConvert maxPolls none s = .done () t ∧ Touched t.result (s.answersTo (convertAsks j)) (17 + 8 * (j - 1)) ∧
      ReadyAfter s (convertAsks j) t := by
  obtain ⟨j, rfl⟩ : ∃ n, j = n + 1 := ⟨j - 1, by omega⟩
  obtain ⟨hzero, k, hk, hk', hbit⟩ := hfirst
  obtain ⟨t, hskip, ht⟩ := hostSkipRom_ready hl h0 hp hok
  obtain ⟨u, hloop, htouched, hu⟩ := pollLoop_firstNonzero t.host.pc ht hmax hok hzero ⟨k, hk, hk', hbit⟩
  exact ⟨u, by rw [hConvert, byteTemperatureRead, hskip, HostRun.andThen_done, hloop], htouched, hu⟩

/-- Settles O52. -/
theorem conversionEndsAtFirstNonzeroPoll : Obligations.ConversionEndsAtFirstNonzeroPoll := by
  intro maxPolls j s r0 fs os hj hmax hl h0 hp hok hfirst
  obtain ⟨t, hrun, htouched, ht⟩ := hConvert_ready hj hmax hl h0 hp hok hfirst
  exact ⟨t, hrun, ht.trace, ht.status, htouched⟩

/-- Settles O53: OW.COMMAND, then the poll loop up to the wait that is stopped. -/
theorem conversionStopsBetweenPolls : Obligations.ConversionStopsBetweenPolls := by
  intro maxPolls j s r0 fs os hj hmax hl h0 hp hok hzero
  obtain ⟨w, rfl⟩ : ∃ n, j = n + 1 := ⟨j - 1, by omega⟩
  obtain ⟨t, hskip, ht⟩ := hostSkipRom_ready hl h0 hp hok
  obtain ⟨u, hloop, hresult, hu⟩ := pollLoop_cancelled t.host.pc ht hmax hok hzero
  refine ⟨u, ?_, hu.trace, hu.status, hresult⟩
  rw [hConvert, byteTemperatureRead, hskip, HostRun.andThen_done, Nat.add_sub_cancel, hloop]

/-- The part of H.READTEMP after the conversion. -/
theorem readTwoBytes_ready {lsb msb : Byte} (hl : s.linkOpen = true)
    (h0 : (s.answersTo (skipRomAsks 0xBE ++ (byteAsks 0xFF ++ byteAsks 0xFF)))[0]? = some (.echo r0)) (hp : presence r0)
    (hok : NoFailure (s.answersTo (skipRomAsks 0xBE ++ (byteAsks 0xFF ++ byteAsks 0xFF))))
    (hlsb : Touched lsb (s.answersTo (skipRomAsks 0xBE ++ (byteAsks 0xFF ++ byteAsks 0xFF))) 17)
    (hmsb : Touched msb (s.answersTo (skipRomAsks 0xBE ++ (byteAsks 0xFF ++ byteAsks 0xFF))) 25) :
    ∃ t, ((hostSkipRom byteReadScratchpad s).andThen fun _ s1 => (doCommand (.owByte 0xFF) s1).andThen fun lsb s2 =>
        (doCommand (.owByte 0xFF) s2).andThen fun msb s3 => .done (temperature lsb msb) s3) = .done (temperature lsb msb) t ∧
      ReadyAfter s (skipRomAsks 0xBE ++ (byteAsks 0xFF ++ byteAsks 0xFF)) t := by
  obtain ⟨t, hskip, ht⟩ := hostSkipRom_ready hl h0 hp hok
  rw [← List.append_assoc] at hok hlsb hmsb ⊢
  obtain ⟨u, hread, htouched, hu⟩ := ht.doCommand_owByte (noFailure_answersTo_left hok)
  obtain ⟨v, hread', htouched', hv⟩ := hu.doCommand_owByte hok
  obtain rfl := touched_unique hlsb ((touched_answersTo_left (by simp)).2 htouched)
  obtain rfl := touched_unique hmsb htouched'
  exact ⟨v, by rw [byteReadScratchpad, hskip, HostRun.andThen_done, hread, HostRun.andThen_done, hread',
    HostRun.andThen_done], hv⟩

/-- Settles O59: the two bytes are read after the conversion, of which the frames before them are. -/
theorem readTemperatureProgram : Obligations.ReadTemperatureProgram := by
  intro maxPolls j s r0 r1 lsb msb fs os hj hmax hl h0 hp h1 hp1 hok hfirst hlsb hmsb
  have hlen := convertAsks_length j
  have hfirst' : FirstNonzeroPoll (s.answersTo (convertAsks j)) j := by
    obtain ⟨hzero, k, hk, hk', hbit⟩ := hfirst
    refine ⟨fun i hi hi' => ?_, k, hk, hk', ?_⟩
    · exact (bitOf_answersTo_left (fs := convertAsks j) (by omega)).symm.trans (hzero i hi hi')
    · exact (bitOf_answersTo_left (fs := convertAsks j) (by omega)).symm.trans hbit
  obtain ⟨t, hconvert, -, ht⟩ := hConvert_ready hj hmax hl ((getElem?_answersTo_left (by omega)).symm.trans h0) hp
    (noFailure_answersTo_left hok) hfirst'
  obtain ⟨u, hread, hu⟩ := readTwoBytes_ready (r0 := r1) ht.linkOpen
    ((ht.getElem?_answersTo 0).symm.trans (by rw [hlen]; exact h1)) hp1 (ht.noFailure_right hok)
    (ht.touched_right.1 (by rw [hlen]; convert hlsb using 1; omega)) (ht.touched_right.1 (by rw [hlen]; convert hmsb using 1; omega))
  refine ⟨u, ?_, (ht.trans hu).trace⟩
  rw [hReadTemperature, hconvert, HostRun.andThen_done]
  exact hread

/-! H.READROM (R137). -/

/-- Reading registers leaves the block alone. -/
theorem hostReadRegs_done {ns : List Byte} {f : Byte → Byte} (h : ∀ n ∈ ns, readReg n s = some (f n)) :
    ∃ side, hostReadRegs ns s = .done (ns.map f) (s.setHost side) := by
  induction ns generalizing s with
  | nil => exact ⟨s.host, rfl⟩
  | cons n ns ih =>
    obtain ⟨hn, hns⟩ := List.forall_mem_cons.1 h
    obtain ⟨side, hrest⟩ := ih (s := s.setHost { s.host with readData := some (f n) }) hns
    exact ⟨side, by rw [hostReadRegs, hostRead, hn, HostRun.andThen_done, hrest]; rfl⟩

/-- The ROM registers are the numbers 0x05 to 0x0C (10_state.md R18). -/
theorem readReg_romNumbers (s : State) :
    ∀ n ∈ ([0x05, 0x06, 0x07, 0x08, 0x09, 0x0A, 0x0B, 0x0C] : List Byte), readReg n s = some (byteAt s.rom (n.toNat - 0x05)) := by
  intro n hn
  fin_cases hn <;> rfl

/-- The bytes of ROM in the order of their registers. -/
def romBytes (rom : Bytes8) : List Byte :=
  [byteAt rom 0, byteAt rom 1, byteAt rom 2, byteAt rom 3, byteAt rom 4, byteAt rom 5, byteAt rom 6, byteAt rom 7]

theorem romCodeOf_serial (rom : Bytes8) {j : Nat} (hj : j < 6) :
    (romCodeOf (romBytes rom)).serial.getD j 0x00 = byteAt rom (j + 1) := by
  interval_cases j <;> rfl

/-- The ROM code of the bytes OW.READROM stored in reverse order of reception (42_rom_commands.md R106). -/
theorem touched_romCodeOf {os : List LineOutcome} {rom : Bytes8}
    (h : ∀ j, j < 8 → Touched (byteAt rom (7 - j)) os (9 + 8 * j)) :
    Touched (romCodeOf (romBytes rom)).familyCode os 9 ∧ (romCodeOf (romBytes rom)).serial.length = 6 ∧
      (∀ j, j < 6 → Touched ((romCodeOf (romBytes rom)).serial.getD j 0x00) os (57 - 8 * j)) ∧
      Touched (romCodeOf (romBytes rom)).crc os 65 := by
  refine ⟨h 0 (by omega), rfl, fun j hj => ?_, h 7 (by omega)⟩
  have hbyte := h (6 - j) (by omega)
  rwa [show 7 - (6 - j) = j + 1 by omega, show 9 + 8 * (6 - j) = 57 - 8 * j by omega, ← romCodeOf_serial rom hj] at hbyte

/-- `Do(OW.READROM)` on an open link, when a device answers the reset and no frame fails. -/
theorem doCommand_owReadrom (hl : s.linkOpen = true) (h0 : (s.answersTo readRomAsks)[0]? = some (.echo r0)) (hp : presence r0)
    (hok : NoFailure (s.answersTo readRomAsks)) :
    ∃ t, doCommand .owReadrom s = .done t.result t ∧ t.trace = (s.afterFrames readRomAsks).trace ∧
      ∀ j, j < 8 → Touched (byteAt t.rom (7 - j)) (s.answersTo readRomAsks) (9 + 8 * j) := by
  obtain ⟨-, -, -, heffect⟩ := owReadromEffect
  obtain ⟨rom, hrom, hexec⟩ := (heffect s r0 hl h0 hp).1 hok
  refine ⟨_, doCommand_ok (decodeEncodeRoundTrip .owReadrom) hexec ?status, ?trace, hrom⟩
  -- The end of the command is the same whatever frames were sent.
  case status => generalize readRomAsks = fs; rfl
  case trace => generalize readRomAsks = fs; rfl

/-- Settles O60: the registers 0x05 to 0x0C are the bytes of ROM in order, of which OW.READROM wrote byte `7 - j` with the `j`-th byte
received. -/
theorem readRomProgram : Obligations.ReadRomProgram := by
  intro s r0 os hl h0 hp hok
  obtain ⟨t, hdo, htrace, hrom⟩ := doCommand_owReadrom hl h0 hp hok
  obtain ⟨side, hregs⟩ := hostReadRegs_done (readReg_romNumbers t)
  refine ⟨romCodeOf (romBytes t.rom), t.setHost side, ?_, htrace, touched_romCodeOf hrom⟩
  rw [hReadRom, hdo, HostRun.andThen_done, hregs, HostRun.andThen_done]
  rfl

end Sys2Proof.Machine
end

section
/-! The configuration byte H.SETRES writes, bit by bit (45_host_transactions.md R139, R142). -/

namespace Sys2Proof.Machine

/-- Bits 6 and 5 are those of the resolution's code, the others are as read. -/
theorem resolutionConfig_getLsbD (c : Byte) {bits : Nat} (hbits : bits ≤ 12) (i : Nat) :
    (resolutionConfig c bits).getLsbD i =
      if i = 5 then (bits - 9).testBit 0 else if i = 6 then (bits - 9).testBit 1 else c.getLsbD i := by
  have hcode : bits - 9 < 4 := by omega
  rw [resolutionConfig]
  generalize bits - 9 = code at hcode
  rcases Nat.lt_or_ge i 8 with hi | hi
  · interval_cases i <;> interval_cases code <;> simp [Nat.testBit]
  · rw [if_neg (by omega), if_neg (by omega), BitVec.getLsbD_of_ge _ _ hi, BitVec.getLsbD_of_ge _ _ hi]

/-- Settles O48: the written byte is read off bit by bit, and the code of the resolution has two bits. -/
theorem resolutionRoundTrip : Obligations.ResolutionRoundTrip := by
  intro c bits hlow hhigh
  have hbit := fun c i => resolutionConfig_getLsbD c hhigh i
  refine ⟨?resolution, BitVec.eq_of_getLsbD_eq fun i _ => ?again, fun i h5 h6 => ?others⟩
  case resolution =>
    rw [resolutionBits_eq, hbit, hbit]
    interval_cases bits <;> rfl
  case again =>
    rw [hbit, hbit]
    split_ifs <;> rfl
  case others => rw [hbit, if_neg h5, if_neg h6]

end Sys2Proof.Machine
end

section
/-! The device double of 42_rom_commands.md R113 and R116, without the environment around it: what a population answers to the frames
of a pass of OW.SEARCH. -/

namespace Sys2Proof.Machine

/-- The answers of a population to a sequence of frames, and the population after them. -/
def Population.answers (p : Population) : List FrameAsk → List LineOutcome × Population
  | [] => ([], p)
  | (baud, t) :: fs =>
    ((p.answer baud t).1 :: ((p.answer baud t).2.answers fs).1, ((p.answer baud t).2.answers fs).2)

theorem Population.answers_append (p : Population) (fs gs : List FrameAsk) :
    p.answers (fs ++ gs) = ((p.answers fs).1 ++ ((p.answers fs).2.answers gs).1, ((p.answers fs).2.answers gs).2) := by
  induction fs generalizing p with
  | nil => rfl
  | cons f fs ih => simp only [List.cons_append, Population.answers, ih]

theorem Population.answers_length (p : Population) (fs : List FrameAsk) : (p.answers fs).1.length = fs.length := by
  induction fs generalizing p with
  | nil => rfl
  | cons f fs ih => simp only [Population.answers, List.length_cons, ih]

/-- Two populations have the same codes on the line, and the same of them in an alarm condition. -/
def Population.SameDevices (p q : Population) : Prop := q.codes = p.codes ∧ q.alarmed = p.alarmed

theorem Population.SameDevices.trans {p q r : Population} (h : p.SameDevices q) (k : q.SameDevices r) : p.SameDevices r :=
  ⟨k.1.trans h.1, k.2.trans h.2⟩

theorem Population.afterRomCommand_sameDevices (p : Population) (cmd : Byte) : p.SameDevices (p.afterRomCommand cmd) := by
  unfold Population.afterRomCommand
  split_ifs <;> exact ⟨rfl, rfl⟩

theorem Population.answer_sameDevices (p : Population) (baud : Nat) (t : Byte) : p.SameDevices (p.answer baud t).2 := by
  unfold Population.answer
  split
  · exact ⟨rfl, rfl⟩
  · split
    · exact ⟨rfl, rfl⟩
    · show p.SameDevices (if _ then _ else _)
      split
      · exact p.afterRomCommand_sameDevices _
      · exact ⟨rfl, rfl⟩
    all_goals exact ⟨rfl, rfl⟩

theorem Population.answers_sameDevices (p : Population) (fs : List FrameAsk) : p.SameDevices (p.answers fs).2 := by
  induction fs generalizing p with
  | nil => exact ⟨rfl, rfl⟩
  | cons f fs ih => exact (p.answer_sameDevices f.1 f.2).trans (ih _)

/-- A frame as the block sends it: at the reset rate only the reset byte. -/
def WellAsked (f : FrameAsk) : Prop := f.1 = Config.baudReset → f.2 = 0xF0

theorem wellAsked_slotAsk (v : Bool) : WellAsked (slotAsk v) := fun h => nomatch h

theorem slotEcho_and (t : Byte) (b : Bool) : slotEcho t b &&& t = slotEcho t b := by
  cases b
  · show t &&& 0xFE &&& t = t &&& 0xFE
    rw [BitVec.and_comm, ← BitVec.and_assoc, BitVec.and_self]
  · exact BitVec.and_self

theorem Population.resetEcho_and (p : Population) : p.resetEcho &&& 0xF0 = p.resetEcho := by
  unfold Population.resetEcho
  split <;> decide

/-- Devices answer a frame by an echo with no 1 where the frame has a 0 (40_serial_channel.md R77). -/
theorem Population.answer_echo (p : Population) {baud : Nat} {t : Byte} (hf : WellAsked (baud, t)) :
    ∃ r, (p.answer baud t).1 = .echo r ∧ r &&& t = r := by
  unfold Population.answer
  split
  · next hbaud =>
    obtain rfl : t = 0xF0 := hf hbaud
    exact ⟨_, rfl, p.resetEcho_and⟩
  · split
    · exact ⟨_, rfl, BitVec.and_self⟩
    · exact ⟨_, rfl, BitVec.and_self⟩
    · exact ⟨_, rfl, slotEcho_and _ _⟩
    · exact ⟨_, rfl, slotEcho_and _ _⟩
    · exact ⟨_, rfl, BitVec.and_self⟩
    · exact ⟨_, rfl, slotEcho_and _ _⟩

theorem Population.answers_noFailure (p : Population) {fs : List FrameAsk} (hf : ∀ f ∈ fs, WellAsked f) :
    NoFailure (p.answers fs).1 := by
  induction fs generalizing p with
  | nil => exact fun o ho => nomatch ho
  | cons f fs ih =>
    obtain ⟨hhead, htail⟩ := List.forall_mem_cons.1 hf
    obtain ⟨r, hr, -⟩ := p.answer_echo hhead
    refine List.forall_mem_cons.2 ⟨?_, ih _ htail⟩
    rw [hr]
    rfl

theorem wiredAnswer_echo {wiredAnd : Bool} {t r : Byte} (h : r &&& t = r) : wiredAnswer wiredAnd t (.echo r) = .echo r := by
  cases wiredAnd
  · rfl
  · rw [wiredAnswer, if_pos rfl, h]

/-- With nothing scripted and devices on the line, the environment answers as the devices do, wired-AND or not. -/
theorem Env.answers_devices {e : Env} {p : Population} (hscript : e.echoes = []) (horacle : e.oracle = .devices p)
    (h : List Event) {fs : List FrameAsk} (hf : ∀ f ∈ fs, WellAsked f) :
    e.answers h fs = ((p.answers fs).1, { e with oracle := .devices (p.answers fs).2 }) := by
  induction fs generalizing e p h with
  | nil => simp only [Env.answers, Population.answers, ← horacle]
  | cons f fs ih =>
    obtain ⟨baud, t⟩ := f
    obtain ⟨hhead, htail⟩ := List.forall_mem_cons.1 hf
    obtain ⟨r, hr, hrt⟩ := p.answer_echo hhead
    have hnext : e.nextEcho h baud t = (.echo r, { e with oracle := .devices (p.answer baud t).2 }) := by
      simp only [Env.nextEcho, hscript, horacle, hr]
    simp only [Env.answers, hnext, wiredAnswer_echo hrt, Population.answers, hr]
    rw [ih (e := { e with oracle := .devices (p.answer baud t).2 }) hscript rfl _ htail]

/-! The ROM command byte. -/

theorem slotAsk_reads (v : Bool) : decide ((slotAsk v).2 = 0xFF) = v := by cases v <;> decide

theorem slotAsk_normal (v : Bool) : (slotAsk v).1 ≠ Config.baudReset := nofun

/-- One bit of the ROM command byte. -/
theorem Population.answer_romCommand {p : Population} {bits : List Bool} (h : p.phase = .romCommand bits) (v : Bool) :
    (p.answer (slotAsk v).1 (slotAsk v).2).2 =
      if (bits ++ [v]).length = 8 then p.afterRomCommand (byteOfBits (bits ++ [v]))
      else { p with phase := .romCommand (bits ++ [v]) } := by
  rw [Population.answer, if_neg (slotAsk_normal v), h]
  simp only [slotAsk_reads]

/-- The ROM command byte, from its bit `bits.length` on. -/
theorem Population.answers_romCommand {p : Population} {bits vs : List Bool} (h : p.phase = .romCommand bits) (hvs : vs ≠ [])
    (hlen : bits.length + vs.length = 8) :
    ∃ q : Population, (p.answers (vs.map slotAsk)).2 = q.afterRomCommand (byteOfBits (bits ++ vs)) ∧ p.SameDevices q ∧
      q.taking = p.taking := by
  induction vs generalizing p bits with
  | nil => exact absurd rfl hvs
  | cons v vs ih =>
    have hstep : (p.answers ((v :: vs).map slotAsk)).2 =
        ((p.answer (slotAsk v).1 (slotAsk v).2).2.answers (vs.map slotAsk)).2 := rfl
    rw [hstep, Population.answer_romCommand h]
    rw [List.length_cons] at hlen
    cases vs with
    | nil => exact ⟨p, by rw [if_pos (by simpa using hlen)]; rfl, ⟨rfl, rfl⟩, rfl⟩
    | cons w ws =>
      rw [if_neg (by simp at hlen ⊢; omega)]
      obtain ⟨q, hq, hsame, htaking⟩ := ih (p := { p with phase := .romCommand (bits ++ [v]) }) (bits := bits ++ [v]) rfl
        (List.cons_ne_nil w ws) (by simp at hlen ⊢; omega)
      exact ⟨q, by rw [hq, List.append_assoc]; rfl, hsame, htaking⟩

theorem byteOfBits_searchByte (m : SearchMode) : byteOfBits (bitsOf (searchByte m)) = searchByte m := by
  cases m <;> decide

/-- The devices that take part in a search: those on the line, or those of them in an alarm condition (42_rom_commands.md R121). -/
def Population.Takes (p : Population) (m : SearchMode) (c : Bytes8) : Prop := c ∈ p.codes ∧ (m = .alarm → c ∈ p.alarmed)

/-- After the ROM command byte of a search its participants stand at position 1. -/
theorem Population.afterRomCommand_searchByte (p : Population) (m : SearchMode) :
    (p.afterRomCommand (searchByte m)).phase = .search 1 .id ∧
      ∀ c, c ∈ (p.afterRomCommand (searchByte m)).taking ↔ c ∈ p.taking ∧ (m = .alarm → c ∈ p.alarmed) := by
  cases m with
  | rom =>
    rw [Population.afterRomCommand, if_pos (show searchByte .rom = byteSearchRom from rfl)]
    exact ⟨rfl, fun c => ⟨fun hc => ⟨hc, nofun⟩, And.left⟩⟩
  | alarm =>
    rw [Population.afterRomCommand, if_neg (by decide), if_pos (show searchByte .alarm = byteAlarmSearch from rfl)]
    exact ⟨rfl, fun c => by simp⟩

/-- After the reset frame and the ROM command byte the participants stand at position 1. -/
theorem Population.answers_searchStart (p : Population) (m : SearchMode) :
    (p.answers (resetAsk :: byteAsks (searchByte m))).2.phase = .search 1 .id ∧
      ∀ c, c ∈ (p.answers (resetAsk :: byteAsks (searchByte m))).2.taking ↔ p.Takes m c := by
  obtain ⟨q, hq, hsame, htaking⟩ := Population.answers_romCommand (p := (p.answer 9600 0xF0).2) (bits := [])
    (vs := bitsOf (searchByte m)) rfl (by simp [bitsOf]) rfl
  have hstart : (p.answers (resetAsk :: byteAsks (searchByte m))).2 = q.afterRomCommand (searchByte m) := by
    rw [List.nil_append, byteOfBits_searchByte] at hq
    rw [byteAsks_eq, ← hq, resetAsk, Population.answers]
  obtain ⟨hphase, hmem⟩ := q.afterRomCommand_searchByte m
  rw [hstart]
  refine ⟨hphase, fun c => ?_⟩
  rw [hmem, htaking, hsame.2]
  rfl

/-! The positions. -/

theorem bit_slotEcho_read (b : Bool) : (LineOutcome.echo (slotEcho 0xFF b)).bit = b := by cases b <;> decide

/-- One position: the wired-AND of the bits, the wired-AND of their complements, and the devices that go on. -/
theorem Population.answers_position {p : Population} {n : Nat} (h : p.phase = .search n .id) (dir : Bool) :
    ∃ o, p.answers (positionAsks dir) =
      ([.echo (slotEcho 0xFF (p.lineBit false n)), .echo (slotEcho 0xFF (p.lineBit true n)), o],
        { p with
          taking := p.taking.filter fun c => sbit c n == dir
          phase := if n < 64 then .search (n + 1) .id else .released }) := by
  refine ⟨.echo (slotAsk dir).2, ?_⟩
  simp only [positionAsks, Population.answers, slotAsk, Population.answer, h]
  cases dir <;> rfl

theorem Population.lineBit_false_iff (p : Population) (n : Nat) : p.lineBit false n = true ↔ ∀ c ∈ p.taking, sbit c n = true := by
  simp [Population.lineBit]

theorem Population.lineBit_true_iff (p : Population) (n : Nat) : p.lineBit true n = true ↔ ∀ c ∈ p.taking, sbit c n = false := by
  simp [Population.lineBit]

/-- The code `c` has the first `j` of the bits `dirs` from position `n` on. -/
def HasBits (c : Bytes8) (n : Nat) (dirs : List Bool) (j : Nat) : Prop := ∀ i, i < j → sbit c (n + i) = dirs.getD i false

theorem hasBits_zero (c : Bytes8) (n : Nat) (dirs : List Bool) : HasBits c n dirs 0 := fun i hi => absurd hi (Nat.not_lt_zero i)

theorem hasBits_succ {c : Bytes8} {n : Nat} {d : Bool} {dirs : List Bool} {j : Nat} :
    HasBits c n (d :: dirs) (j + 1) ↔ sbit c n = d ∧ HasBits c (n + 1) dirs j := by
  constructor
  · intro h
    refine ⟨h 0 (by omega), fun i hi => ?_⟩
    rw [Nat.add_right_comm]
    exact h (i + 1) (by omega)
  · rintro ⟨h0, h⟩ i hi
    cases i with
    | zero => exact h0
    | succ i =>
      rw [← Nat.add_assoc, Nat.add_right_comm]
      exact h i (by omega)

/-- The bits read over the positions from `n` on, along the directions `dirs`: at each position all devices still taking part have
the bit. -/
theorem Population.answers_positions {p : Population} {n : Nat} {dirs : List Bool} (h : n ≤ 64 → p.phase = .search n .id)
    (hlen : n + dirs.length ≤ 65) {j : Nat} (hj : j < dirs.length) :
    (bitOf (p.answers (dirs.flatMap positionAsks)).1 (3 * j) = true ↔
        ∀ c ∈ p.taking, HasBits c n dirs j → sbit c (n + j) = true) ∧
      (bitOf (p.answers (dirs.flatMap positionAsks)).1 (3 * j + 1) = true ↔
        ∀ c ∈ p.taking, HasBits c n dirs j → sbit c (n + j) = false) := by
  induction dirs generalizing p n j with
  | nil => exact absurd hj (Nat.not_lt_zero j)
  | cons d dirs ih =>
    rw [List.length_cons] at hlen hj
    obtain ⟨o, hpos⟩ := Population.answers_position (h (by omega)) d
    rw [List.flatMap_cons, Population.answers_append, hpos]
    cases j with
    | zero =>
      have hid : ∀ ps : List LineOutcome, bitOf ([.echo (slotEcho 0xFF (p.lineBit false n)),
          .echo (slotEcho 0xFF (p.lineBit true n)), o] ++ ps) (3 * 0) = p.lineBit false n := fun _ => bit_slotEcho_read _
      have hcmp : ∀ ps : List LineOutcome, bitOf ([.echo (slotEcho 0xFF (p.lineBit false n)),
          .echo (slotEcho 0xFF (p.lineBit true n)), o] ++ ps) (3 * 0 + 1) = p.lineBit true n := fun _ => bit_slotEcho_read _
      rw [hid, hcmp, Population.lineBit_false_iff, Population.lineBit_true_iff]
      simp only [hasBits_zero, true_implies, Nat.add_zero, and_self]
    | succ j =>
      have hskip (a b c : LineOutcome) (ps : List LineOutcome) (i : Nat) : bitOf ([a, b, c] ++ ps) (3 + i) = bitOf ps i :=
        bitOf_append_right i
      rw [Nat.mul_succ, Nat.add_comm (3 * j), Nat.add_assoc, hskip, hskip]
      have hrest := ih (p := { p with
          taking := p.taking.filter fun c => sbit c n == d
          phase := if n < 64 then .search (n + 1) .id else .released }) (n := n + 1)
        (fun hn => if_pos (by omega)) (by omega) (j := j) (by omega)
      have hadd : n + (j + 1) = n + 1 + j := by omega
      simp only [List.mem_filter, beq_iff_eq, and_imp] at hrest
      simpa only [hasBits_succ, hadd, and_imp] using hrest

end Sys2Proof.Machine
end

section
/-! The enumeration law (42_rom_commands.md R117): along any device's path the answers make the pass take that path, and what a pass
leaves in LAST_DISC and SROM leads the next one along the path of the next device in line order. -/

namespace Sys2Proof.Machine

variable {m : SearchMode} {s t : State} {found : List Bytes8} {c d : Bytes8}

/-! The line order. -/

/-- Two codes agree at the positions before `n`. -/
def AgreeBelow (n : Nat) (c d : Bytes8) : Prop := ∀ k, 1 ≤ k → k < n → sbit c k = sbit d k

/-- `c` and `d` part at position `n`, where `c` has 0 and `d` has 1. -/
structure Diverges (n : Nat) (c d : Bytes8) : Prop where
  pos : 1 ≤ n
  le : n ≤ 64
  agree : AgreeBelow n c d
  zero : sbit c n = false
  one : sbit d n = true

theorem lineOrder_iff : LineOrder c d ↔ ∃ n, Diverges n c d :=
  ⟨fun ⟨n, pos, le, agree, zero, one⟩ => ⟨n, ⟨pos, le, agree, zero, one⟩⟩,
    fun ⟨n, ⟨pos, le, agree, zero, one⟩⟩ => ⟨n, pos, le, agree, zero, one⟩⟩

theorem Diverges.lineOrder {n : Nat} (h : Diverges n c d) : LineOrder c d := lineOrder_iff.2 ⟨n, h⟩

theorem AgreeBelow.symm {n : Nat} (h : AgreeBelow n c d) : AgreeBelow n d c := fun k h1 hk => (h k h1 hk).symm

theorem Diverges.not_lineOrder {n : Nat} (h : Diverges n c d) : ¬LineOrder d c := by
  intro hdc
  obtain ⟨k, hk⟩ := lineOrder_iff.1 hdc
  rcases Nat.lt_trichotomy n k with hnk | rfl | hkn
  · have := hk.agree n h.pos hnk
    simp [h.zero, h.one] at this
  · have := h.zero
    simp [hk.one] at this
  · have := h.agree k hk.pos hkn
    simp [hk.zero, hk.one] at this

theorem lineOrder_asymm (h : LineOrder c d) : ¬LineOrder d c := by
  obtain ⟨n, hn⟩ := lineOrder_iff.1 h
  exact hn.not_lineOrder

/-- Two codes that part from a third one at different positions are ordered by the earlier of the two. -/
theorem Diverges.trans_lt {n k : Nat} {e : Bytes8} (hn : Diverges n c e) (hk : Diverges k c d) (hlt : n < k) :
    Diverges n d e where
  pos := hn.pos
  le := hn.le
  agree i h1 hi := (hk.agree i h1 (by omega)).symm.trans (hn.agree i h1 hi)
  zero := (hk.agree n hn.pos hlt).symm.trans hn.zero
  one := hn.one

/-! What the answers are along a device's path. -/

/-- The bits of a code in line order: the directions of the pass that finds it. -/
def lineBits (c : Bytes8) : List Bool := (List.range 64).map fun i => sbit c (i + 1)

@[simp] theorem lineBits_length (c : Bytes8) : (lineBits c).length = 64 := by simp [lineBits]

theorem lineBits_getD (c : Bytes8) {i : Nat} (hi : i < 64) : (lineBits c).getD i false = sbit c (i + 1) := by
  simp [lineBits, hi]

theorem dirAt_lineBits (c : Bytes8) {n : Nat} (h1 : 1 ≤ n) (h64 : n ≤ 64) : dirAt (lineBits c) n = sbit c n := by
  rw [dirAt, lineBits_getD c (by omega), Nat.sub_add_cancel h1]

theorem hasBits_lineBits {j : Nat} (hj : j < 64) : HasBits d 1 (lineBits c) j ↔ AgreeBelow (j + 1) c d := by
  constructor
  · intro h k h1 hk
    have hbit := h (k - 1) (by omega)
    rw [lineBits_getD c (by omega), Nat.add_sub_cancel' h1, Nat.sub_add_cancel h1] at hbit
    exact hbit.symm
  · intro h i hi
    rw [lineBits_getD c (by omega), Nat.add_comm 1 i]
    exact (h (i + 1) (by omega) (by omega)).symm

/-- The bits read in a pass along the path of `c`: at each position the wired-AND of the bits, and of their complements, of the devices
that agree with `c` so far. -/
structure ReadsAlong (found : List Bytes8) (c : Bytes8) (os : List LineOutcome) : Prop where
  id_iff : ∀ n, 1 ≤ n → n ≤ 64 → (readId os n = true ↔ ∀ d ∈ found, AgreeBelow n c d → sbit d n = true)
  cmp_iff : ∀ n, 1 ≤ n → n ≤ 64 → (readCmp os n = true ↔ ∀ d ∈ found, AgreeBelow n c d → sbit d n = false)

theorem exists_of_readId_false {os : List LineOutcome} {n : Nat} (h : ReadsAlong found c os) (h1 : 1 ≤ n) (h64 : n ≤ 64)
    (hid : readId os n = false) : ∃ d ∈ found, AgreeBelow n c d ∧ sbit d n = false := by
  by_contra hnone
  push Not at hnone
  have hid' : readId os n = true := (h.id_iff n h1 h64).2 fun d hd hagree => by simpa using hnone d hd hagree
  simp [hid] at hid'

theorem exists_of_readCmp_false {os : List LineOutcome} {n : Nat} (h : ReadsAlong found c os) (h1 : 1 ≤ n) (h64 : n ≤ 64)
    (hcmp : readCmp os n = false) : ∃ d ∈ found, AgreeBelow n c d ∧ sbit d n = true := by
  by_contra hnone
  push Not at hnone
  have hcmp' : readCmp os n = true := (h.cmp_iff n h1 h64).2 fun d hd hagree => by simpa using hnone d hd hagree
  simp [hcmp] at hcmp'

/-- The search state of `s` leads a pass along the path of `c`: at each position where a device parts from `c`, `Direction(n)` is the bit
of `c` (42_rom_commands.md R109). -/
def Guides (s : State) (found : List Bytes8) (c : Bytes8) : Prop :=
  ∀ n, ∀ d ∈ found, (Diverges n c d → directionRule s n = false) ∧ (Diverges n d c → directionRule s n = true)

/-- The pass takes the path of `c`. -/
theorem ReadsAlong.takesDirections {os : List LineOutcome} (h : ReadsAlong found c os) (hc : c ∈ found)
    (hg : Guides s found c) : TakesDirections s os (lineBits c) := by
  intro n h1 hn
  have h64 : n ≤ 64 := by simpa using hn
  have hself : AgreeBelow n c c := fun _ _ _ => rfl
  have hid : readId os n = true → sbit c n = true := fun hr => (h.id_iff n h1 h64).1 hr c hc hself
  have hcmp : readCmp os n = true → sbit c n = false := fun hr => (h.cmp_iff n h1 h64).1 hr c hc hself
  rw [dirAt_lineBits c h1 h64]
  refine ⟨fun ⟨hi, hm⟩ => by simp [hid hi] at hcmp; simp [hcmp] at hm, ?_⟩
  cases hbit : sbit c n with
  | true =>
    have hm : readCmp os n = false := by simpa [hbit] using hcmp
    cases hi : readId os n with
    | true => simp [hm]
    | false =>
      obtain ⟨d, hd, hagree, hdn⟩ := exists_of_readId_false h h1 h64 hi
      simp [hm, ((hg n d hd).2 ⟨h1, h64, hagree.symm, hdn, hbit⟩)]
  | false =>
    have hi : readId os n = false := by simpa [hbit] using hid
    cases hm : readCmp os n with
    | true => simp [hi]
    | false =>
      obtain ⟨d, hd, hagree, hdn⟩ := exists_of_readCmp_false h h1 h64 hm
      simp [hi, ((hg n d hd).1 ⟨h1, h64, hagree, hbit, hdn⟩)]

/-- The pass takes 0 at a discrepancy exactly where another device, later in line order, parts from `c`. -/
theorem ReadsAlong.zeroTaken_iff {os : List LineOutcome} (h : ReadsAlong found c os) (hc : c ∈ found) {n : Nat} (h1 : 1 ≤ n)
    (h64 : n ≤ 64) : ZeroTaken os (lineBits c) n ↔ ∃ d ∈ found, Diverges n c d := by
  rw [ZeroTaken, dirAt_lineBits c h1 h64]
  constructor
  · rintro ⟨heq, hbit⟩
    have hi : readId os n = false := by
      by_contra hi
      have := (h.id_iff n h1 h64).1 (by simpa using hi) c hc fun _ _ _ => rfl
      simp [hbit] at this
    obtain ⟨d, hd, hagree, hdn⟩ := exists_of_readCmp_false h h1 h64 (heq ▸ hi)
    exact ⟨d, hd, h1, h64, hagree, hbit, hdn⟩
  · rintro ⟨d, hd, -, -, hagree, hbit, hdn⟩
    refine ⟨?_, hbit⟩
    have hi : readId os n ≠ true := fun hi => by
      have := (h.id_iff n h1 h64).1 hi c hc fun _ _ _ => rfl
      simp [hbit] at this
    have hm : readCmp os n ≠ true := fun hm => by
      have := (h.cmp_iff n h1 h64).1 hm d hd hagree
      simp [hdn] at this
    rw [Bool.eq_false_iff.2 hi, Bool.eq_false_iff.2 hm]

/-- `last` is the last position where a device later in line order parts from `c`, 0 if there is none (42_rom_commands.md R114). -/
structure LastDivergence (found : List Bytes8) (c : Bytes8) (last : Nat) : Prop where
  le : last ≤ 64
  diverges : 1 ≤ last → ∃ d ∈ found, Diverges last c d
  max : ∀ n, ∀ d ∈ found, Diverges n c d → n ≤ last

theorem ReadsAlong.lastDivergence {os : List LineOutcome} {last : Nat} (h : ReadsAlong found c os) (hc : c ∈ found)
    (hlast : LastZero os (lineBits c) last) : LastDivergence found c last := by
  obtain ⟨hle, htaken, hafter⟩ := hlast
  refine ⟨hle, fun h1 => (h.zeroTaken_iff hc h1 hle).1 (htaken h1), fun n d hd hdiv => ?_⟩
  by_contra hn
  exact hafter n (by omega) hdiv.le ((h.zeroTaken_iff hc hdiv.pos hdiv.le).2 ⟨d, hd, hdiv⟩)

/-- There is no such position exactly for the last device. -/
theorem LastDivergence.eq_zero_iff {last : Nat} (h : LastDivergence found c last) :
    last = 0 ↔ ∀ d ∈ found, ¬LineOrder c d := by
  constructor
  · rintro rfl d hd horder
    obtain ⟨n, hn⟩ := lineOrder_iff.1 horder
    exact absurd (h.max n d hd hn) (Nat.not_le.2 hn.pos)
  · intro hnone
    by_contra h0
    obtain ⟨d, hd, hdiv⟩ := h.diverges (by omega)
    exact hnone d hd hdiv.lineOrder

/-! From one pass to the next. -/

/-- From state FIRST the pass goes along the path of the first device. -/
theorem guides_first (hdisc : s.lastDisc = 0x00) (hfirst : ∀ d ∈ found, ¬LineOrder d c) : Guides s found c := by
  refine fun n d hd => ⟨fun hdiv => ?_, fun hdiv => absurd hdiv.lineOrder (hfirst d hd)⟩
  have hpos := hdiv.pos
  rw [directionRule, hdisc, if_neg (by simp)]
  exact decide_eq_false (Nat.ne_of_gt hpos)

/-- After the pass that found a device, the next one goes along the path of the next device in line order. -/
theorem guides_next {prev : Bytes8} {last : Nat} (hsrom : s.srom = prev) (hdisc : s.lastDisc.toNat = last)
    (hlast : LastDivergence found prev last) (hc : c ∈ found) (hlt : LineOrder prev c)
    (hnext : ∀ d ∈ found, LineOrder prev d → ¬LineOrder d c) : Guides s found c := by
  obtain ⟨q, hq⟩ := lineOrder_iff.1 hlt
  have hql : q = last := by
    by_contra hne
    have hle := hlast.max q c hc hq
    have hpos := hq.pos
    obtain ⟨d, hd, hdiv⟩ := hlast.diverges (by omega)
    exact hnext d hd hdiv.lineOrder (hq.trans_lt hdiv (by omega)).lineOrder
  subst hql
  intro n d hd
  rw [directionRule, hdisc, hsrom]
  rcases Nat.lt_trichotomy n q with hn | rfl | hn
  · rw [if_pos hn]
    exact ⟨fun hdiv => (hq.agree n hdiv.pos hn).trans hdiv.zero, fun hdiv => (hq.agree n hdiv.pos hn).trans hdiv.one⟩
  · rw [if_neg (by omega)]
    exact ⟨fun hdiv => (nomatch hq.one.symm.trans hdiv.zero), fun _ => decide_eq_true rfl⟩
  · rw [if_neg (by omega)]
    refine ⟨fun _ => decide_eq_false (Nat.ne_of_gt hn), fun hdiv => ?_⟩
    have hprev : Diverges q prev d :=
      ⟨hq.pos, hq.le, fun i h1 hi => (hq.agree i h1 hi).trans (hdiv.agree i h1 (by omega)).symm, hq.zero,
        (hdiv.agree q hq.pos hn).trans hq.one⟩
    exact absurd hdiv.lineOrder (hnext d hd hprev.lineOrder)

/-! One pass. -/

/-- Devices on an open line, nothing scripted: those that take part in a search of mode `m` are `found`. -/
structure DevicesOnLine (m : SearchMode) (found : List Bytes8) (s : State) : Prop where
  linkOpen : s.linkOpen = true
  script : s.env.echoes = []
  oracle : ∃ p, s.env.oracle = .devices p ∧ ∀ d, d ∈ found ↔ p.Takes m d

theorem wellAsked_searchAsks (m : SearchMode) (dirs : List Bool) : ∀ f ∈ searchAsks m dirs, WellAsked f := by
  have hslots (vs : List Bool) : ∀ f ∈ vs.map slotAsk, WellAsked f := by
    rintro f hf
    obtain ⟨v, -, rfl⟩ := List.mem_map.1 hf
    exact wellAsked_slotAsk v
  refine List.forall_mem_cons.2 ⟨fun _ => rfl, List.forall_mem_append.2 ⟨hslots (bitsOf (searchByte m)), fun f hf => ?_⟩⟩
  obtain ⟨dir, -, hf⟩ := List.mem_flatMap.1 hf
  exact hslots [true, true, dir] f hf

theorem presence_resetEcho {p : Population} (h : p.codes ≠ []) : presence p.resetEcho := by
  unfold Population.resetEcho presence
  split
  · contradiction
  · decide
  · decide

/-- What devices answer to a pass along the path of `c`. -/
theorem Population.answers_searchAsks {p : Population} (hfound : ∀ d, d ∈ found ↔ p.Takes m d) (c : Bytes8) :
    (p.answers (searchAsks m (lineBits c))).1[0]? = some (.echo p.resetEcho) ∧
      ReadsAlong found c (p.answers (searchAsks m (lineBits c))).1 := by
  obtain ⟨hphase, htaking⟩ := p.answers_searchStart m
  have hos : ∃ command, command.length = 8 ∧ (p.answers (searchAsks m (lineBits c))).1 = .echo p.resetEcho ::
      (command ++ ((p.answers (resetAsk :: byteAsks (searchByte m))).2.answers ((lineBits c).flatMap positionAsks)).1) := by
    refine ⟨((p.answer 9600 0xF0).2.answers (byteAsks (searchByte m))).1, by simp [Population.answers_length], ?_⟩
    rw [searchAsks, ← List.cons_append, Population.answers_append]
    rfl
  obtain ⟨command, hcommand, hos⟩ := hos
  rw [hos]
  have hreads {n : Nat} (h1 : 1 ≤ n) (h64 : n ≤ 64) := Population.answers_positions (dirs := lineBits c) (fun _ => hphase)
    (by simp) (j := n - 1) (by simp; omega)
  have hmem (n : Nat) (h1 : 1 ≤ n) (h64 : n ≤ 64) (d : Bytes8) :
      HasBits d 1 (lineBits c) (n - 1) ↔ AgreeBelow n c d := by
    rw [hasBits_lineBits (by omega), Nat.sub_add_cancel h1]
  refine ⟨rfl, fun n h1 h64 => ?_, fun n h1 h64 => ?_⟩
  · rw [readId, bitOf_pass hcommand, (hreads h1 h64).1]
    simp only [htaking, hmem n h1 h64, hfound, Nat.add_sub_cancel' h1]
  · rw [readCmp, Nat.add_assoc, bitOf_pass hcommand, (hreads h1 h64).2]
    simp only [htaking, hmem n h1 h64, hfound, Nat.add_sub_cancel' h1]

/-- What the device double's line answers to frames, and the environment it leaves. -/
theorem afterFrames_devices {p : Population} (hscript : s.env.echoes = []) (hp : s.env.oracle = .devices p) {fs : List FrameAsk}
    (hf : ∀ f ∈ fs, WellAsked f) :
    s.answersTo fs = (p.answers fs).1 ∧
      (s.afterFrames fs).env = { s.env with oracle := .devices (p.answers fs).2 } :=
  have h := Env.answers_devices hscript hp s.trace hf
  ⟨congrArg Prod.fst h, congrArg Prod.snd h⟩

/-- A pass that is led along the path of the device `c` finds it. -/
theorem exec_owSearch_finds (hs : DevicesOnLine m found s) (hd : s.lastDev = false) (hc : c ∈ found) (hg : Guides s found c)
    (hfam : byteAt c 0 ≠ 0x00) :
    ∃ t last, exec (.owSearch m) s = .next t ∧ DevicesOnLine m found t ∧ t.status = .ok ∧
      (∀ i, i < 8 → byteAt t.rom i = byteAt c (7 - i)) ∧ t.srom = c ∧ t.lastDisc.toNat = last ∧
      t.lastDev = decide (last = 0) ∧ LastDivergence found c last := by
  obtain ⟨p, hp, hfound⟩ := hs.oracle
  obtain ⟨-, heffect⟩ := searchPassEffect
  obtain ⟨hanswers, hafter⟩ := afterFrames_devices hs.script hp (wellAsked_searchAsks m (lineBits c))
  obtain ⟨h0, hreads⟩ := Population.answers_searchAsks hfound c
  have hok := p.answers_noFailure (wellAsked_searchAsks m (lineBits c))
  rw [← hanswers] at h0 hreads hok
  have hcode : p.codes ≠ [] := List.ne_nil_of_mem ((hfound c).1 hc).1
  obtain ⟨path, rom, last, hpath, hlast, hrom, hexec, -⟩ := heffect m s p.resetEcho (lineBits c) hs.linkOpen hd
    (lineBits_length c) h0 (presence_resetEcho hcode) hok (hreads.takesDirections hc hg)
  obtain rfl : path = c := bytes8_ext fun n h1 h64 => by
    rw [hpath n h1 h64, if_pos h64, dirAt_lineBits c h1 h64]
  have hdiv := hreads.lastDivergence hc hlast
  have hsame := p.answers_sameDevices (searchAsks m (lineBits path))
  have hopen : (s.afterFrames (searchAsks m (lineBits path))).linkOpen = true := hs.linkOpen
  have hrun := hexec hfam
  generalize s.afterFrames (searchAsks m (lineBits path)) = u at hrun hafter hopen
  generalize (p.answers (searchAsks m (lineBits path))).2 = q at hafter hsame
  have hlast : (BitVec.ofNat 8 last).toNat = last := Nat.mod_eq_of_lt (Nat.lt_of_le_of_lt hdiv.le (by omega))
  refine ⟨_, last, hrun, ⟨hopen, (congrArg Env.echoes hafter).trans hs.script, q, congrArg Env.oracle hafter, fun d => ?_⟩,
    rfl, hrom, rfl, hlast, rfl, hdiv⟩
  rw [hfound, Population.Takes, Population.Takes, hsame.1, hsame.2]

/-! Successive passes. -/

/-- The state after `k` passes. -/
def searchRun (m : SearchMode) (s : State) : Nat → State
  | 0 => s
  | k + 1 => endCommand (searchCommand m (searchRun m s k))

theorem exec_searchRun (m : SearchMode) (s : State) (k : Nat) :
    exec (.owSearch m) (searchRun m s k) = .next (searchRun m s (k + 1)) := exec_owSearch m _

theorem lineOrder_of_lt {i j : Nat} (hsorted : found.Pairwise LineOrder) (hi : found[i]? = some c) (hj : found[j]? = some d)
    (hij : i < j) : LineOrder c d := by
  obtain ⟨hi', rfl⟩ := List.getElem?_eq_some_iff.1 hi
  obtain ⟨hj', rfl⟩ := List.getElem?_eq_some_iff.1 hj
  exact List.pairwise_iff_getElem.1 hsorted i j hi' hj' hij

/-- A device is not before one at an earlier or the same place. -/
theorem not_lineOrder_of_le {i j : Nat} (hsorted : found.Pairwise LineOrder) (hi : found[i]? = some c) (hj : found[j]? = some d)
    (hij : i ≤ j) : ¬LineOrder d c := by
  rcases Nat.lt_or_eq_of_le hij with h | rfl
  · exact lineOrder_asymm (lineOrder_of_lt hsorted hi hj h)
  · obtain rfl : c = d := Option.some.inj (hi.symm.trans hj)
    exact fun h => lineOrder_asymm h h

/-- The search state of `s` is such that the next pass finds `c`. -/
structure NextFinds (m : SearchMode) (found : List Bytes8) (s : State) (c : Bytes8) : Prop where
  line : DevicesOnLine m found s
  lastDev : s.lastDev = false
  guides : Guides s found c

/-- Each pass finds its device, and all but the last one lead on to the next device. -/
theorem nextFinds_searchRun (hsorted : found.Pairwise LineOrder) (hfam : ∀ c ∈ found, byteAt c 0 ≠ 0x00)
    (hline : DevicesOnLine m found s) (hstate : s.searchStateFirst) (k : Nat) {c : Bytes8} (hc : found[k]? = some c) :
    NextFinds m found (searchRun m s k) c := by
  induction k generalizing c with
  | zero =>
    refine ⟨hline, hstate.2, guides_first hstate.1 fun d hd => ?_⟩
    obtain ⟨j, hj⟩ := List.mem_iff_getElem?.1 hd
    exact not_lineOrder_of_le hsorted hc hj (Nat.zero_le j)
  | succ k ih =>
    obtain ⟨prev, hprev⟩ : ∃ prev, found[k]? = some prev :=
      ⟨_, List.getElem?_eq_getElem (by have := (List.getElem?_eq_some_iff.1 hc).1; omega)⟩
    obtain ⟨hpline, hpdev, hpguides⟩ := ih hprev
    have hmem := List.mem_of_getElem? hprev
    obtain ⟨t, last, hexec, htline, -, -, hsrom, hdisc, hdev, hlast⟩ := exec_owSearch_finds hpline hpdev hmem hpguides (hfam _ hmem)
    obtain rfl : searchRun m s (k + 1) = t := Host.Outcome.next.inj ((exec_searchRun m s k).symm.trans hexec)
    have horder := lineOrder_of_lt hsorted hprev hc (by omega)
    have hlast0 : last ≠ 0 := fun h0 => hlast.eq_zero_iff.1 h0 c (List.mem_of_getElem? hc) horder
    refine ⟨htline, by rw [hdev, decide_eq_false hlast0],
      guides_next hsrom hdisc hlast (List.mem_of_getElem? hc) horder fun d hd hpd => ?_⟩
    obtain ⟨j, hj⟩ := List.mem_iff_getElem?.1 hd
    have hkj : k < j := by
      by_contra hle
      exact not_lineOrder_of_le hsorted hj hprev (by omega) hpd
    exact not_lineOrder_of_le hsorted hc hj hkj

/-- Settles O37: by `nextFinds_searchRun` each pass finds its device; LAST_DEV is set by the last one, and the next pass is exhausted. -/
theorem searchEnumeratesDevices : Obligations.SearchEnumeratesDevices := by
  intro m s p found hl hstate hscript horacle hfound hne hsorted hfam
  have hline : DevicesOnLine m found s := ⟨hl, hscript, p, horacle, hfound⟩
  have hpass {k : Nat} {c : Bytes8} (hc : found[k]? = some c) : (searchRun m s (k + 1)).linkOpen = true ∧
      (searchRun m s (k + 1)).status = .ok ∧ (∀ i, i < 8 → byteAt (searchRun m s (k + 1)).rom i = byteAt c (7 - i)) ∧
      ((searchRun m s (k + 1)).lastDev = true ↔ k + 1 = found.length) := by
    obtain ⟨hkline, hkdev, hkguides⟩ := nextFinds_searchRun hsorted hfam hline hstate k hc
    have hmem := List.mem_of_getElem? hc
    obtain ⟨t, last, hexec, htline, hok, hrom, -, -, hdev, hlast⟩ := exec_owSearch_finds hkline hkdev hmem hkguides (hfam _ hmem)
    obtain rfl : searchRun m s (k + 1) = t := Host.Outcome.next.inj ((exec_searchRun m s k).symm.trans hexec)
    refine ⟨htline.linkOpen, hok, hrom, ?_⟩
    rw [hdev, decide_eq_true_iff, hlast.eq_zero_iff]
    have hk := (List.getElem?_eq_some_iff.1 hc).1
    constructor
    · intro hnone
      by_contra hlen
      have hnext : found[k + 1]? = some _ := List.getElem?_eq_getElem (by omega)
      exact hnone _ (List.mem_of_getElem? hnext) (lineOrder_of_lt hsorted hc hnext (by omega))
    · intro hlen d hd
      obtain ⟨j, hj⟩ := List.mem_iff_getElem?.1 hd
      have hj' := (List.getElem?_eq_some_iff.1 hj).1
      exact not_lineOrder_of_le hsorted hj hc (by omega)
  refine ⟨searchRun m s, rfl, fun k c hc => ⟨exec_searchRun m s k, (hpass hc).2⟩, exec_searchRun m s _, ?exhausted⟩
  obtain ⟨k, hk⟩ : ∃ k, found.length = k + 1 := ⟨found.length - 1, by have := List.length_pos_of_ne_nil hne; omega⟩
  have hlastPass : found[k]? = some _ := List.getElem?_eq_getElem (by omega)
  obtain ⟨hopen, -, -, hdev⟩ := hpass hlastPass
  have hdone := searchExhaustedGoesToFirst m (searchRun m s (k + 1)) hopen (hdev.2 hk.symm)
  rw [hk, Host.Outcome.next.inj ((exec_searchRun m s (k + 1)).symm.trans hdone)]

end Sys2Proof.Machine
end
